-- ==== Sys2Proof/Word.lean ====
section
/-! DEFINITION. The widths of the block's data: registers, samples, stream bytes (spec R9, R81, R83). -/

namespace Sys2Proof

/-- A host register: 32 bits, no byte lanes (R21, R81). -/
abbrev Word := BitVec 32

/-- One plane sample, a u16 (R6, R71). -/
abbrev Sample := BitVec 16

/-- One byte of the sink's or the source's stream (R74, R77). -/
abbrev Octet := BitVec 8

/-- The value of BS_WRITE and BS_READ, a u64 (R81). -/
abbrev DoubleWord := BitVec 64

end Sys2Proof
end

