-- ==== Sys2Proof/Syntax.lean ====
section
/-! DEFINITION. The commands of RCORE-1 (R103), the host's register names (R21), what the host and the platform may do
(R93, R114), and the pseudo-commands (R115). -/

namespace Sys2Proof

/-- The eleven commands, in the order of the command map (R103). A command word has no operand field (R100): the
operands are in registers (R104). -/
inductive Instr where
  | nop
  | bsWrite
  | bsFlush
  | bsRead
  | bsRalign
  | riceK
  | riceEnc
  | riceDec
  | medPred
  | planeEnc
  | planeDec
  deriving DecidableEq, Repr

/-- The sixteen registers of the map (R21). -/
inductive Reg where
  | cmd
  | status
  | arg0
  | arg1
  | arg2
  | res0
  | res1
  | pbase
  | pwidth
  | pheight
  | psstride
  | prstride
  | posRow
  | posCol
  | outBytes
  | inBytes
  deriving DecidableEq, Repr

/-- What an outside agent does to the block or to plane memory (R79, R93, R114, R116, R320). `width` is the width of a
host access in bits and `offset` its byte offset from REG_BASE. -/
inductive HostAct where
  /-- A host read of the register block (RD, R114). -/
  | read (width offset : Nat)
  /-- A host write of the register block (WR, R114). -/
  | write (width offset : Nat) (value : Word)
  /-- WAIT: poll STATUS until BUSY = 0 (R116). -/
  | wait
  /-- The host asserts reset (R320). -/
  | reset
  /-- Another agent writes a plane cell (R88, R324). -/
  | poke (addr : Word) (value : Sample)
  /-- Another agent reads a plane cell (R88). -/
  | peek (addr : Word)
  deriving DecidableEq, Repr

/-- The pseudo-commands of the host notation (R115). -/
inductive Pseudo where
  | nop
  | bsWrite (value : DoubleWord) (length : Word)
  | bsFlush
  | bsRead (length : Word)
  | bsRalign
  | riceK (a b c d : Sample)
  | riceEnc (k x : Word)
  | riceDec (k : Word)
  | medPred (a b c : Sample)
  | planeEnc (base w h ss rs : Word)
  | planeDec (base w h ss rs : Word)
  | bsWriteUnary (q : Word)
  | bsWriteZeros (n : Word)
  deriving DecidableEq, Repr

end Sys2Proof
end

