-- ==== Sys2Proof/WellFormed.lean ====
section
/-! DEFINITION. Which terms of the syntax the spec gives a meaning: command words (R101), host accesses (R82),
pseudo-commands (R115), and the commands themselves. -/

namespace Sys2Proof

/-- A command has no operand in its word (R100), so each one is well formed. Operand ranges are checked by the command
itself and end it with ILLEGAL_ARG (R112). -/
def Instr.wellFormed : Instr → Bool
  | .nop => true
  | .bsWrite => true
  | .bsFlush => true
  | .bsRead => true
  | .bsRalign => true
  | .riceK => true
  | .riceEnc => true
  | .riceDec => true
  | .medPred => true
  | .planeEnc => true
  | .planeDec => true

/-- A legal command word: "`CMD[31:4] = 0` and `op <= 0xA`" (R101). -/
def commandWordLegal (w : Word) : Bool :=
  w.extractLsb' 4 28 == 0#28 && (w.extractLsb' 0 4).toNat ≤ 0xA

/-- A host access that has a meaning: one 32-bit word at a multiple of 4 (R79, R82) inside the block of 64 words (R20). -/
def accessWellFormed (width offset : Nat) : Bool :=
  width == 32 && offset % 4 == 0 && offset < 0x100

/-- What an outside agent may do: a host access must be well formed (R82); the rest has no form to break. -/
def HostAct.wellFormed : HostAct → Bool
  | .read width offset => accessWellFormed width offset
  | .write width offset _ => accessWellFormed width offset
  | .wait => true
  | .reset => true
  | .poke _ _ => true
  | .peek _ => true

/-- BS_WRITE_UNARY takes q up to 2^32-2, so that q+1 fits in ARG2 (R115); the rest has no bound. -/
def Pseudo.wellFormed : Pseudo → Bool
  | .bsWriteUnary q => q.toNat ≤ 2 ^ 32 - 2
  | _ => true

end Sys2Proof
end

