-- ==== Sys2Proof/Decode.lean ====
section
/-! DEFINITION. The command decoder (R100 to R103, R107), total on 32-bit words and rejecting by name, and the encoder
written from the same map. -/

namespace Sys2Proof

/-- Why a command word is illegal (R107). -/
inductive DecodeReject where
  /-- CMD[31:4] is not 0 (R102). -/
  | reservedBits
  /-- CMD[31:4] is 0 and OPCODE is 0xB to 0xF (R103). -/
  | reservedOpcode
  deriving DecidableEq, Repr

/-- OPCODE, CMD[3:0] (R100). -/
def opcodeField (w : Word) : BitVec 4 := w.extractLsb' 0 4

/-- The reserved field, CMD[31:4] (R100). -/
def reservedField (w : Word) : BitVec 28 := w.extractLsb' 4 28

/-- The command map, from OPCODE to command (R103). -/
def commandOf (op : BitVec 4) : Except DecodeReject Instr :=
  match op.toNat with
  | 0x0 => .ok .nop
  | 0x1 => .ok .bsWrite
  | 0x2 => .ok .bsFlush
  | 0x3 => .ok .bsRead
  | 0x4 => .ok .bsRalign
  | 0x5 => .ok .riceK
  | 0x6 => .ok .riceEnc
  | 0x7 => .ok .riceDec
  | 0x8 => .ok .medPred
  | 0x9 => .ok .planeEnc
  | 0xA => .ok .planeDec
  | _ => .error .reservedOpcode

/-- Decoding of a command word (R101, R102). -/
def decode (w : Word) : Except DecodeReject Instr :=
  if reservedField w = 0#28 then commandOf (opcodeField w) else .error .reservedBits

/-- The command map, from command to OPCODE (R103). -/
def opcodeOf : Instr → BitVec 4
  | .nop => 0x0#4
  | .bsWrite => 0x1#4
  | .bsFlush => 0x2#4
  | .bsRead => 0x3#4
  | .bsRalign => 0x4#4
  | .riceK => 0x5#4
  | .riceEnc => 0x6#4
  | .riceDec => 0x7#4
  | .medPred => 0x8#4
  | .planeEnc => 0x9#4
  | .planeDec => 0xA#4

/-- The command word of a command: the reserved field 0 above OPCODE (R100, R102). -/
def encode (i : Instr) : Word := 0#28 ++ opcodeOf i

/-- The command that the decoder reads from a row's word: the bits above `nbits` are 0. A word longer than the one
format CMD32 (R100) names no command. -/
def decodeTableWord (nbits w : Nat) : Option Instr :=
  if nbits ≤ 32 then (decode (BitVec.ofNat 32 (w % 2 ^ nbits))).toOption else none

end Sys2Proof
end

