-- ==== Sys2Proof/Config.lean ====
section
/-! DEFINITION. What the platform fixes and what the spec leaves open (R8): constants without a body, so that no
proof can see a value of theirs. SINK, SOURCE and the answers of PLANE_MEM are plain data in State (log 3). -/

namespace Sys2Proof

/-- REG_BASE (R8): where the platform puts register offset 0x00. No rule's effect depends on it (log 10). -/
opaque Config.regBase : Nat

/-- The host address of a register offset (R20, R84). -/
def Config.regAddress (offset : Nat) : Nat := Config.regBase + offset

/-- BUSY_DRAW (R8, R27): the n-th value drawn for a register that is unspecified while BUSY = 1 (log 5). -/
opaque Config.busyDraw : Nat → Word

/-- What plane memory holds at a sample address that no write this model knows of has set (R71: the contents are the
parameter PLANE_MEM; log 4). -/
opaque Config.planeInitial : Nat → Sample

/-- What the n-th read of plane memory returns in a raced run: "Every value it reads is a draw" (R88, R329; log 9). -/
opaque Config.raceDraw : Nat → Sample

end Sys2Proof
end

