-- ==== Sys2Proof/Machine/State.lean ====
section
/-! DEFINITION. Everything the spec gives the machine, as plain data: the host registers (R21), STATUS's flags (R25), the
internal state (R43 to R47), the outstanding transaction (R70), the three ports' parameters (R8), and the model's own
records of what the host and the ports saw (R333). -/

namespace Sys2Proof.Machine

/-- The error codes of STATUS.ERR (R280). Code 7 is never produced. -/
inductive ErrCode where
  | none
  | illegalCmd
  | illegalArg
  | state
  | ioError
  | eos
  | memError
  deriving DecidableEq, Repr

/-- PHASE (R45). -/
inductive Phase where
  | idle
  | run
  deriving DecidableEq, Repr

/-- A request the block sends on one of its three ports (R72 to R78). -/
inductive Request where
  | planeRead (addr : Word)
  | planeWrite (addr : Word) (value : Sample)
  | byte (value : Octet)
  | flush
  | fetch
  deriving DecidableEq, Repr

/-- What became of a request: the port's answer, or an answer that reset made the block drop (R322). -/
inductive Answer where
  | ok
  | sample (value : Sample)
  | octet (value : Octet)
  | eos
  | error
  | dropped
  deriving DecidableEq, Repr

/-- One transaction of the record (R86, R333). -/
structure PortEvent where
  request : Request
  answer : Answer
  deriving DecidableEq, Repr

/-- What the sink will do with a request (R74): answer it, or never answer (R70, R93). -/
inductive SinkChoice where
  | ok
  | error
  | silent
  deriving DecidableEq, Repr

/-- What the source will do with a FETCH (R77): answer it, or never answer (R70, R93). -/
inductive SourceChoice where
  | data (value : Octet)
  | eos
  | error
  | silent
  deriving DecidableEq, Repr

/-- What plane memory will do with a request (R72, R73). -/
inductive PlaneChoice where
  /-- A READ is answered with the cell; a WRITE is carried out and answered OK. -/
  | serve
  /-- A READ is answered with this value (R93: any DATA answer), unless the block wrote the cell and R86 fixes the answer;
  a WRITE as `serve`. -/
  | override (value : Sample)
  /-- ERROR; after a WRITE the cell holds `cell`, or what it held before (R73, R287: neither may be assumed). -/
  | refuse (cell : Option Sample)
  /-- No answer (R70, R93); after a WRITE the cell holds `cell`, or what it held before (R322). -/
  | silent (cell : Option Sample)
  deriving DecidableEq, Repr

/-- A port parameter of R8 as data: the coming choices, the next one first, and the choice for every request after
those (log 3). -/
structure Port (α : Type) where
  script : List α
  tail : α
  deriving DecidableEq, Repr

/-- Plane memory: the cells that are known, by sample address, in one canonical form (log 4). -/
abbrev Memory := List (Nat × Sample)

/-- The stored host registers (R21). STATUS is computed from `Control`, `Writer` and `Reader` (R25). -/
structure Regs where
  cmd : Word
  arg0 : Word
  arg1 : Word
  arg2 : Word
  res0 : Word
  res1 : Word
  pbase : Word
  pwidth : Word
  pheight : Word
  psstride : Word
  prstride : Word
  posRow : Word
  posCol : Word
  outBytes : Word
  inBytes : Word
  deriving DecidableEq, Repr

/-- STATUS.BUSY, DONE, ERR (R25, R26) and the controller state PHASE, OP, ABORT_ERR (R45). -/
structure Control where
  busy : Bool
  done : Bool
  err : ErrCode
  phase : Phase
  op : BitVec 4
  abortErr : ErrCode
  deriving DecidableEq, Repr

/-- Writer state (R43): the low WBITS bits of WACC are pending. -/
structure Writer where
  wacc : Octet
  wbits : Nat
  deriving DecidableEq, Repr

/-- Reader state (R44): the low RBITS bits of RACC are fetched and not consumed. -/
structure Reader where
  racc : Octet
  rbits : Nat
  deriving DecidableEq, Repr

/-- Scan state of PLANE_ENC and PLANE_DEC (R46). -/
structure Scan where
  row : Word
  col : Word
  a : Sample
  b : Sample
  c : Sample
  d : Sample
  first : Sample
  k : Nat
  pred : Sample
  deriving DecidableEq, Repr

/-- Codeword state (R47): Q of RiceDecode, and the counter that emits RiceEncode's prefix, 33 bits so that q+1 is exact. -/
structure Codeword where
  q : Word
  prefixLen : BitVec 33
  deriving DecidableEq, Repr

/-- The three ports (R49): their parameters; plane memory's cells; the cells that hold what the block wrote last, by rising
address (R86: such a cell's READ is answered with the written value; log 4); the outstanding request (R70); the record of
transactions in the order they were sent (R86); whether the run is a race (R88), and how many plane reads were drawn in it
(log 9). -/
structure Ports where
  sink : Port SinkChoice
  source : Port SourceChoice
  plane : Port PlaneChoice
  cells : Memory
  held : List Nat
  pending : Option Request
  log : List PortEvent
  raced : Bool
  raceDraws : Nat
  deriving DecidableEq, Repr

/-- What a reader outside the block saw (R333): a register's value at an offset, or a plane cell's. -/
inductive HostSaw where
  | register (offset : Nat) (value : Word)
  | cell (addr : Word) (value : Sample)
  deriving DecidableEq, Repr

/-- The outside agents: their coming actions in order, how many of them land at each coming point of a running command
(log 2), what reads returned (oldest first), and the number of BUSY_DRAW values drawn (log 5). -/
structure HostSide where
  queue : List HostAct
  slots : List Nat
  saw : List HostSaw
  draws : Nat
  deriving DecidableEq, Repr

/-- The machine. `regs` to `word` are the block (R48); `ports` and `host` are what it meets. -/
structure State where
  regs : Regs
  ctl : Control
  writer : Writer
  reader : Reader
  scan : Scan
  word : Codeword
  ports : Ports
  host : HostSide
  deriving DecidableEq, Repr

/-- Why a run stops with a fault: for no reason. A failure of this machine is a completion with an error code (R280, R281),
and a race goes on with drawn values (R88), so nothing raises a fault. Safe. -/
inductive Fault where
  deriving DecidableEq, Repr

/-- Why the model has no step. -/
inductive Refusal where
  /-- An instruction without a meaning, by its mnemonic; raised by a refused arm of exec, of which there is none. Safe. -/
  | notModelled (mnemonic : String)
  /-- A host access that is not an aligned 32-bit word of the block: "A model refuses it: it has no step" (R82). Raised
  by the host side (`serveBusy`, `serveIdle`). Safe. -/
  | hostAccess (act : HostAct)
  deriving DecidableEq, Repr

/-- Every stored register 0 (R320, R321). -/
def Regs.reset : Regs where
  cmd := 0
  arg0 := 0
  arg1 := 0
  arg2 := 0
  res0 := 0
  res1 := 0
  pbase := 0
  pwidth := 0
  pheight := 0
  psstride := 0
  prstride := 0
  posRow := 0
  posCol := 0
  outBytes := 0
  inBytes := 0

/-- BUSY = DONE = 0, ERR = 0, PHASE = IDLE, OP = 0, ABORT_ERR = 0 (R320). -/
def Control.reset : Control where
  busy := false
  done := false
  err := .none
  phase := .idle
  op := 0
  abortErr := .none

/-- WACC = 0, WBITS = 0 (R320). -/
def Writer.reset : Writer where
  wacc := 0
  wbits := 0

/-- RACC = 0, RBITS = 0 (R320). -/
def Reader.reset : Reader where
  racc := 0
  rbits := 0

/-- The scan state has no reset value (R52); the model's is 0. DESIGN CHOICE, unsafe: log 6. -/
def Scan.reset : Scan where
  row := 0
  col := 0
  a := 0
  b := 0
  c := 0
  d := 0
  first := 0
  k := 0
  pred := 0

/-- The codeword counters have no reset value (R52); the model's is 0. DESIGN CHOICE, unsafe: log 6. -/
def Codeword.reset : Codeword where
  q := 0
  prefixLen := 0

/-- The machine right after reset (R320, R321): an idle block, no outstanding transaction, nothing recorded, and no
host action waiting. What the spec leaves open is a DESIGN CHOICE here: the ports' parameters (R8; log 3), the empty schedule
`host.slots` (R332: how many outside actions land in a command, and so how many polls see BUSY = 1, is a draw; from here none
does; log 2), the empty queue (log 8), the counters of draws (logs 5 and 9), and a run that is no race (log 9). -/
def State.reset : State where
  regs := Regs.reset
  ctl := Control.reset
  writer := Writer.reset
  reader := Reader.reset
  scan := Scan.reset
  word := Codeword.reset
  ports := {
    sink := { script := [], tail := .ok }
    source := { script := [], tail := .eos }
    plane := { script := [], tail := .serve }
    cells := []
    held := []
    pending := none
    log := []
    raced := false
    raceDraws := 0 }
  host := { queue := [], slots := [], saw := [], draws := 0 }

end Sys2Proof.Machine
end

