-- ==== Sys2Proof/Machine/Operands.lean ====
section
/-! DEFINITION. Operand packing and assembly (R104, R105) and result assembly (R106). -/

namespace Sys2Proof.Machine

/-- value = ARG1:ARG0 of BS_WRITE (R81, R104). -/
def State.valueOperand (s : State) : DoubleWord := s.regs.arg1 ++ s.regs.arg0

/-- length of BS_WRITE and BS_READ: ARG2 as u32 (R104). -/
def State.lengthOperand (s : State) : Nat := s.regs.arg2.toNat

/-- k of RICE_ENC and RICE_DEC: ARG2 as u32 (R104). -/
def State.kOperand (s : State) : Nat := s.regs.arg2.toNat

/-- x of RICE_ENC: ARG0 as a 32-bit pattern, read as s32 (R104, R105). -/
def State.residualOperand (s : State) : Word := s.regs.arg0

/-- a = ARG0[15:0] of RICE_K and MED_PRED (R104). -/
def State.aOperand (s : State) : Sample := s.regs.arg0.extractLsb' 0 16

/-- b = ARG0[31:16] of RICE_K and MED_PRED (R104). -/
def State.bOperand (s : State) : Sample := s.regs.arg0.extractLsb' 16 16

/-- c = ARG1[15:0] of RICE_K and MED_PRED (R104). -/
def State.cOperand (s : State) : Sample := s.regs.arg1.extractLsb' 0 16

/-- d = ARG1[31:16] of RICE_K; MED_PRED ignores it (R104). -/
def State.dOperand (s : State) : Sample := s.regs.arg1.extractLsb' 16 16

/-- Writes the result registers (R31, R32): RES0 = lo, RES1 = hi. -/
def State.setResult (hi lo : Word) (s : State) : State :=
  { s with regs.res0 := lo, regs.res1 := hi }

/-- A 64-bit result: RES0 the low word, RES1 the high word (R81, R106). -/
def State.setResult64 (v : DoubleWord) (s : State) : State :=
  s.setResult (v.extractLsb' 32 32) (v.extractLsb' 0 32)

/-- A u16 result: zero-extended in RES0, RES1 = 0 (R106). -/
def State.setResult16 (v : Sample) (s : State) : State :=
  s.setResult 0 (v.setWidth 32)

/-- A k result: zero-extended in RES0, RES1 = 0 (R106, R180). -/
def State.setResultK (k : Nat) (s : State) : State :=
  s.setResult 0 (BitVec.ofNat 32 k)

end Sys2Proof.Machine
end

