-- ==== Sys2Proof/Machine/Memory.lean ====
section
/-! DEFINITION. Plane memory as a list of known cells in canonical form (R71; log 4): addresses strictly rising. An unlisted
cell has no known value, so no entry can equal it; a reader of one gets the free value `Config.planeInitial`. -/

namespace Sys2Proof.Machine

/-- Every address of `m` is above `n`, and addresses rise strictly. -/
def Memory.risesAbove (n : Nat) : List (Nat × Sample) → Bool
  | [] => true
  | (a, _) :: m => decide (n < a) && Memory.risesAbove a m

/-- The canonical form: addresses strictly rising. -/
def Memory.wf : List (Nat × Sample) → Bool
  | [] => true
  | (a, _) :: m => Memory.risesAbove a m

/-- The known value of a cell, if there is one. -/
def Memory.lookup (addr : Nat) : List (Nat × Sample) → Option Sample
  | [] => none
  | (a, v) :: m => if a = addr then some v else Memory.lookup addr m

/-- The value of a cell (R71): the known one, or the parameter PLANE_MEM's. -/
def Memory.read (addr : Nat) (m : Memory) : Sample :=
  (Memory.lookup addr m).getD (Config.planeInitial addr)

/-- Sets one cell and keeps the canonical form. -/
def Memory.write (addr : Nat) (v : Sample) : List (Nat × Sample) → List (Nat × Sample)
  | [] => [(addr, v)]
  | (a, w) :: m =>
    if addr < a then (addr, v) :: (a, w) :: m
    else if addr = a then (a, v) :: m
    else (a, w) :: Memory.write addr v m

/-- Sets a cell if a value is given, and leaves memory alone otherwise. -/
def Memory.writeOpt (addr : Nat) (v : Option Sample) (m : Memory) : Memory :=
  match v with
  | none => m
  | some v => Memory.write addr v m

/-- The addresses rise strictly. -/
def heldWf : List Nat → Bool
  | [] => true
  | a :: l => l.all (fun b => decide (a < b)) && heldWf l

/-- Adds a cell to those that hold what the block wrote last (R86). -/
def holdCell (addr : Nat) : List Nat → List Nat
  | [] => [addr]
  | a :: l =>
    if addr < a then addr :: a :: l
    else if addr = a then a :: l
    else a :: holdCell addr l

/-- Takes a cell out of them: another agent wrote it (R86), or a WRITE of it was not answered OK (R73). -/
def releaseCell (addr : Nat) (l : List Nat) : List Nat := l.filter (· != addr)

end Sys2Proof.Machine
end

