-- ==== Sys2Proof/Machine/Flags.lean ====
section
/-! DEFINITION. STATUS (R25) as computed from its fields, and the edges of a command (R26, R110, R111). -/

namespace Sys2Proof.Machine

/-- The number of an error code (R280). -/
def ErrCode.code : ErrCode → Nat
  | .none => 0
  | .illegalCmd => 1
  | .illegalArg => 2
  | .state => 3
  | .ioError => 4
  | .eos => 5
  | .memError => 6

/-- STATUS from its fields: BUSY at 0, DONE at 1, ERR at 6..4, WBITS at 10..8, RBITS at 14..12; the reserved bits 0 (R25). -/
def statusWord (busy done : Bool) (err : ErrCode) (wbits rbits : BitVec 3) : Word :=
  BitVec.ofNat 32
    (busy.toNat + 2 * done.toNat + 2 ^ 4 * err.code + 2 ^ 8 * wbits.toNat + 2 ^ 12 * rbits.toNat)

/-- STATUS while BUSY = 0: WBITS and RBITS are the current values (R26). -/
def State.status (s : State) : Word :=
  statusWord s.ctl.busy s.ctl.done s.ctl.err (BitVec.ofNat 3 s.writer.wbits) (BitVec.ofNat 3 s.reader.rbits)

/-- The start of a command as one step (R110, R26): CMD holds the word, BUSY = 1, DONE = 0, ERR = 0, PHASE = RUN, OP is
the word's low four bits. -/
def State.startEdge (w : Word) (s : State) : State :=
  { s with
    regs.cmd := w
    ctl.busy := true
    ctl.done := false
    ctl.err := .none
    ctl.phase := .run
    ctl.op := w.extractLsb' 0 4 }

/-- The completion of a command as one step, with its error code (R111, R26): BUSY = 0, DONE = 1, ERR, PHASE = IDLE. -/
def State.complete (e : ErrCode) (s : State) : State :=
  { s with
    ctl.busy := false
    ctl.done := true
    ctl.err := e
    ctl.phase := .idle }

end Sys2Proof.Machine
end

