-- ==== Sys2Proof/Machine/Registers.lean ====
section
/-! DEFINITION. The host register block: the map of offsets (R20, R21), what a read returns while idle (R21) and while
busy (R27), and what a write of a register that starts nothing does (R21). -/

namespace Sys2Proof.Machine

/-- The byte offset of a register (R21). -/
def regOffset : Reg → Nat
  | .cmd => 0x00
  | .status => 0x04
  | .arg0 => 0x08
  | .arg1 => 0x0C
  | .arg2 => 0x10
  | .res0 => 0x14
  | .res1 => 0x18
  | .pbase => 0x1C
  | .pwidth => 0x20
  | .pheight => 0x24
  | .psstride => 0x28
  | .prstride => 0x2C
  | .posRow => 0x30
  | .posCol => 0x34
  | .outBytes => 0x38
  | .inBytes => 0x3C

/-- The register at an offset; none at a reserved offset (R20). -/
def regAt (offset : Nat) : Option Reg :=
  match offset with
  | 0x00 => some .cmd
  | 0x04 => some .status
  | 0x08 => some .arg0
  | 0x0C => some .arg1
  | 0x10 => some .arg2
  | 0x14 => some .res0
  | 0x18 => some .res1
  | 0x1C => some .pbase
  | 0x20 => some .pwidth
  | 0x24 => some .pheight
  | 0x28 => some .psstride
  | 0x2C => some .prstride
  | 0x30 => some .posRow
  | 0x34 => some .posCol
  | 0x38 => some .outBytes
  | 0x3C => some .inBytes
  | _ => none

/-- What a register holds (R21); STATUS is computed (R25). -/
def regValue (r : Reg) (s : State) : Word :=
  match r with
  | .cmd => s.regs.cmd
  | .status => s.status
  | .arg0 => s.regs.arg0
  | .arg1 => s.regs.arg1
  | .arg2 => s.regs.arg2
  | .res0 => s.regs.res0
  | .res1 => s.regs.res1
  | .pbase => s.regs.pbase
  | .pwidth => s.regs.pwidth
  | .pheight => s.regs.pheight
  | .psstride => s.regs.psstride
  | .prstride => s.regs.prstride
  | .posRow => s.regs.posRow
  | .posCol => s.regs.posCol
  | .outBytes => s.regs.outBytes
  | .inBytes => s.regs.inBytes

/-- What a read of an offset returns while BUSY = 0; a reserved offset reads 0 (R20). -/
def idleValue (offset : Nat) (s : State) : Word :=
  match regAt offset with
  | some r => regValue r s
  | none => 0

/-- Does a read of this register return a draw, in part or whole, while BUSY = 1 (R27)? -/
def drawnWhileBusy : Reg → Bool
  | .status => true
  | .res0 => true
  | .res1 => true
  | .posRow => true
  | .posCol => true
  | .outBytes => true
  | .inBytes => true
  | .cmd => false
  | .arg0 => false
  | .arg1 => false
  | .arg2 => false
  | .pbase => false
  | .pwidth => false
  | .pheight => false
  | .psstride => false
  | .prstride => false

/-- What a read of a register returns while BUSY = 1, given a drawn word (R27): STATUS has exact BUSY, DONE and ERR and
drawn WBITS and RBITS; the other registers of `drawnWhileBusy` are the draw; the rest hold their stored values. -/
def busyValue (draw : Word) (r : Reg) (s : State) : Word :=
  if drawnWhileBusy r then
    if r = .status then
      statusWord s.ctl.busy s.ctl.done s.ctl.err (draw.extractLsb' 8 3) (draw.extractLsb' 12 3)
    else draw
  else regValue r s

/-- Records what a reader outside saw. -/
def State.record (o : HostSaw) (s : State) : State :=
  { s with host.saw := s.host.saw ++ [o] }

/-- A host read while BUSY = 0 (R79): the value is returned, and nothing else changes. -/
def idleRead (offset : Nat) (s : State) : State :=
  s.record (.register offset (idleValue offset s))

/-- A host read while BUSY = 1 (R27): a register that is drawn takes the next value of BUSY_DRAW. -/
def busyRead (offset : Nat) (s : State) : State :=
  match regAt offset with
  | none => s.record (.register offset 0)
  | some r =>
    let seen := s.record (.register offset (busyValue (Config.busyDraw s.host.draws) r s))
    if drawnWhileBusy r then { seen with host.draws := s.host.draws + 1 } else seen

/-- A host write while BUSY = 0 to a register other than CMD: an RW register takes the value, a write to an RO register
or to a reserved offset is ignored (R20, R21). -/
def storeReg (offset : Nat) (v : Word) (s : State) : State :=
  match regAt offset with
  | some .arg0 => { s with regs.arg0 := v }
  | some .arg1 => { s with regs.arg1 := v }
  | some .arg2 => { s with regs.arg2 := v }
  | some .pbase => { s with regs.pbase := v }
  | some .pwidth => { s with regs.pwidth := v }
  | some .pheight => { s with regs.pheight := v }
  | some .psstride => { s with regs.psstride := v }
  | some .prstride => { s with regs.prstride := v }
  | some .cmd => s
  | some .status => s
  | some .res0 => s
  | some .res1 => s
  | some .posRow => s
  | some .posCol => s
  | some .outBytes => s
  | some .inBytes => s
  | none => s

end Sys2Proof.Machine
end

