-- ==== Sys2Proof/Machine/Ops.lean ====
section
/-! DEFINITION. The shared operations: raising an error and completing a command (R281, R111), reset (R320, R322), host
actions that land while a command runs (R27, R42, R88, R329), and one transaction on each port (R70 to R78). -/

namespace Sys2Proof.Machine

/-- How a part of a command's rule ends: it goes on with a value; it raises an error code (R281); or the command is over
without a completion: reset came (R322), a port never answers (R70), the source is an endless run of zeros (R332), or the
host side stopped the run (R82). -/
inductive Res (α : Type) where
  | ok (a : α) (s : State)
  | raised (e : ErrCode) (s : State)
  | ended (o : Host.Outcome State Fault Refusal)

/-- Sequencing: "No later step of its rule runs" after a raise (R281). -/
@[inline] def Res.bind {α β : Type} (r : Res α) (f : α → State → Res β) : Res β :=
  match r with
  | .ok a s => f a s
  | .raised e s => .raised e s
  | .ended o => .ended o

/-- An outstanding transaction at reset: the block drops its answer, and the record says so (R322). -/
def dropPending (p : Ports) : Ports :=
  match p.pending with
  | none => p
  | some req => { p with pending := none, log := p.log ++ [{ request := req, answer := .dropped }] }

/-- Reset (R320): every register and the internal state at its reset value; plane memory, the sink's stream and the
source's position are outside the block and stay (R323); a running command stops with no completion, no exit flush and
no reader discard (R322). The scan state and the codeword counters are unspecified; the model's value is log 6's. -/
def resetBlock (s : State) : State :=
  { s with
    regs := Regs.reset
    ctl := Control.reset
    writer := Writer.reset
    reader := Reader.reset
    scan := Scan.reset
    word := Codeword.reset
    ports := dropPending s.ports }

/-- Sample addresses of the plane view that are the address `addr` (R220), searched over rows and columns. -/
def viewHas (addr : Word) (s : State) : Bool :=
  (List.range s.regs.pheight.toNat).any fun row =>
    (List.range s.regs.pwidth.toNat).any fun col =>
      s.regs.pbase.toNat + row * s.regs.prstride.toNat + col * s.regs.psstride.toNat == addr.toNat

/-- Does a command that is about to complete with this code use cells at all? One that its first check ended used none: an
illegal word (R282), an argument out of range (R283), or a plane command off a byte boundary (R284). -/
def ErrCode.afterChecks : ErrCode → Bool
  | .illegalCmd => false
  | .illegalArg => false
  | .state => false
  | .none => true
  | .ioError => true
  | .eos => true
  | .memError => true

/-- Is a write of this cell by another agent a race with the running command (R88)? PLANE_ENC and PLANE_DEC use the
cells of their view, once past their check (`uses`). -/
def pokeRaces (uses : Bool) (addr : Word) (s : State) : Bool :=
  uses && (s.ctl.op == 0x9#4 || s.ctl.op == 0xA#4) && viewHas addr s

/-- Is a read of this cell by another agent a race with the running command (R88)? PLANE_DEC, once past its check, writes
its view. -/
def peekRaces (uses : Bool) (addr : Word) (s : State) : Bool :=
  uses && s.ctl.op == 0xA#4 && viewHas addr s

/-- Another agent writes a plane cell (R88, R324): it holds that agent's value, no longer the block's (R86). -/
def pokeCell (addr : Word) (v : Sample) (s : State) : State :=
  { s with
    ports.cells := Memory.write addr.toNat v s.ports.cells
    ports.held := releaseCell addr.toNat s.ports.held }

/-- What a read of plane memory that would return `v` returns: in a raced run, a draw (R88, R329; log 9). A run is known to be
raced from its first step (`foresee`). -/
def seen (v : Sample) (s : State) : Sample := if s.ports.raced then Config.raceDraw s.ports.raceDraws else v

/-- One read of plane memory is over: in a raced run, the next one gets a draw of its own. -/
def countSeen (s : State) : State := { s with ports.raceDraws := s.ports.raceDraws + s.ports.raced.toNat }

/-- An access that `races` makes the run a race from here on (R88, R329). -/
def markRace (races : Bool) (s : State) : State := { s with ports.raced := s.ports.raced || races }

/-- Another agent reads a plane cell; what it saw is recorded. -/
def peekCell (addr : Word) (s : State) : State :=
  (countSeen s).record (.cell addr (seen (Memory.read addr.toNat s.ports.cells) s))

/-- The outside agents' next action while BUSY = 1: a read returns exact or drawn values (R27), a write is ignored (R42),
WAIT polls STATUS once and goes on waiting (R116), reset stops the command (R322), an access of another form is refused
(R82), and an access to a cell of the command makes the run a race (R88, R329). `uses`: the command is past its checks. An
empty queue does nothing. -/
def serveBusy (uses : Bool) (s : State) : Except (Host.Outcome State Fault Refusal) State :=
  match s.host.queue with
  | [] => .ok s
  | act :: rest =>
    let popped := { s with host.queue := rest }
    if act.wellFormed then
      match act with
      | .read _ offset => .ok (busyRead offset popped)
      | .write _ _ _ => .ok popped
      | .wait => .ok (busyRead (regOffset .status) s)
      | .reset => .error (.next (resetBlock popped))
      | .poke addr v => .ok (pokeCell addr v (markRace (pokeRaces uses addr s) popped))
      | .peek addr => .ok (peekCell addr (markRace (peekRaces uses addr s) popped))
    else .error (.refused (.hostAccess act))

/-- `n` outside actions land, one after another. -/
def serveMany (uses : Bool) : Nat → State → Except (Host.Outcome State Fault Refusal) State
  | 0, s => .ok s
  | n + 1, s =>
    match serveBusy uses s with
    | .ok s' => serveMany uses n s'
    | .error o => .error o

/-- A point of a running command at which outside actions may land; the schedule says how many do (R332: a draw; log 2). -/
def yieldHost (uses : Bool) (s : State) : Except (Host.Outcome State Fault Refusal) State :=
  match s.host.slots with
  | [] => .ok s
  | n :: rest => serveMany uses n { s with host.slots := rest }

/-- The end of a command's rule (R111), after the outside actions that still land while BUSY = 1. -/
def endCommand (e : ErrCode) (s : State) : Host.Outcome State Fault Refusal :=
  match yieldHost e.afterChecks s with
  | .ok s' => .next (s'.complete e)
  | .error o => o

/-- The outcome of a command from the end of its rule: error code 0 without a `raise`, else the raised code (R111, R281). -/
def finish (r : Res Unit) : Host.Outcome State Fault Refusal :=
  match r with
  | .ok _ s => endCommand .none s
  | .raised e s => endCommand e s
  | .ended o => o

/-- An illegal command word: it raises ILLEGAL_CMD as its first step (R107, R282). -/
def illegalCommand (s : State) : Host.Outcome State Fault Refusal :=
  finish (.raised .illegalCmd s)

/-- A port parameter's next choice (R8). -/
def Port.next {α : Type} (p : Port α) : α :=
  match p.script with
  | [] => p.tail
  | x :: _ => x

/-- A port parameter after one request. -/
def Port.rest {α : Type} (p : Port α) : Port α :=
  match p.script with
  | [] => p
  | _ :: xs => { p with script := xs }

/-- The block waits for the answer of the request it has sent (R70). Outside actions may land; reset drops the answer
(R322). No answer: the block waits for ever, with BUSY = 1 and the request outstanding. The answer may depend on what has
landed. -/
def await (req : Request) (answer : State → Option Answer) (s : State) : Res Unit :=
  match yieldHost true { s with ports.pending := some req } with
  | .error o => .ended o
  | .ok s' =>
    match answer s' with
    | none => .ended (.next s')
    | some a =>
      .ok () { s' with ports.pending := none, ports.log := s'.ports.log ++ [{ request := req, answer := a }] }

/-- The sink's answer to a request, if it gives one (R74). -/
def SinkChoice.answer : SinkChoice → Option Answer
  | .ok => some .ok
  | .error => some .error
  | .silent => none

/-- One request on the sink port (R74); the value is whether it was answered OK. -/
def sinkRequest (req : Request) (s : State) : Res Bool :=
  match yieldHost true s with
  | .error o => .ended o
  | .ok s' =>
    let choice := s'.ports.sink.next
    (await req (fun _ => choice.answer) { s' with ports.sink := s'.ports.sink.rest }).bind fun _ t =>
      .ok (choice == .ok) t

/-- SinkByte (R75): OUT_BYTES goes up by 1 mod 2^32 on OK. -/
def sinkByte (v : Octet) (s : State) : Res Bool :=
  (sinkRequest (.byte v) s).bind fun accepted t =>
    .ok accepted (if accepted then { t with regs.outBytes := t.regs.outBytes + 1 } else t)

/-- SinkFlush (R76). -/
def sinkFlush (s : State) : Res Bool := sinkRequest .flush s

/-- The source's answer to a FETCH, if it gives one (R77). -/
def SourceChoice.answer : SourceChoice → Option Answer
  | .data v => some (.octet v)
  | .eos => some .eos
  | .error => some .error
  | .silent => none

/-- SourceFetch (R78): IN_BYTES goes up by 1 mod 2^32 on DATA; EOS raises EOS and ERROR raises IO_ERROR. -/
def sourceFetch (s : State) : Res Octet :=
  match yieldHost true s with
  | .error o => .ended o
  | .ok s' =>
    let choice := s'.ports.source.next
    (await .fetch (fun _ => choice.answer) { s' with ports.source := s'.ports.source.rest }).bind fun _ t =>
      match choice with
      | .data v => .ok v { t with regs.inBytes := t.regs.inBytes + 1 }
      | .eos => .raised .eos t
      | .error => .raised .ioError t
      | .silent => .ended (.next t)

/-- What plane memory would give for a READ that a script answers with `v`: any DATA (R93), but the written value for a cell
that holds what the block wrote last (R86). -/
def overridden (addr : Word) (v : Sample) (s : State) : Sample :=
  if s.ports.held.contains addr.toNat then Memory.read addr.toNat s.ports.cells else v

/-- Plane memory's answer to a READ (R72). -/
def PlaneChoice.readAnswer (addr : Word) (s : State) : PlaneChoice → Option Answer
  | .serve => some (.sample (seen (Memory.read addr.toNat s.ports.cells) s))
  | .override v => some (.sample (seen (overridden addr v s) s))
  | .refuse _ => some .error
  | .silent _ => none

/-- The value a READ returns, if it is answered DATA (R72). -/
def PlaneChoice.readValue (addr : Word) (s : State) : PlaneChoice → Option Sample
  | .serve => some (seen (Memory.read addr.toNat s.ports.cells) s)
  | .override v => some (seen (overridden addr v s) s)
  | .refuse _ => none
  | .silent _ => none

/-- MemRead (R72): DATA(v) returns v; ERROR raises MEM_ERROR. -/
def memRead (addr : Word) (s : State) : Res Sample :=
  match yieldHost true s with
  | .error o => .ended o
  | .ok s' =>
    let choice := s'.ports.plane.next
    let sent := { s' with ports.plane := s'.ports.plane.rest }
    (await (.planeRead addr) (fun t => choice.readAnswer addr t) sent).bind fun _ t =>
      match choice.readValue addr t with
      | some v => .ok v (countSeen t)
      | none => .raised .memError t

/-- Plane memory's answer to a WRITE (R73). -/
def PlaneChoice.writeAnswer : PlaneChoice → Option Answer
  | .serve => some .ok
  | .override _ => some .ok
  | .refuse _ => some .error
  | .silent _ => none

/-- What a WRITE leaves in the cell: the value, or what plane memory chose if it did not answer OK; none leaves the cell
as it was (R73, R287, R322). -/
def PlaneChoice.writeEffect (v : Sample) : PlaneChoice → Option Sample
  | .serve => some v
  | .override _ => some v
  | .refuse cell => cell
  | .silent cell => cell

/-- Which cells hold what the block wrote last, after a WRITE: this one if the WRITE is answered OK, and else not this one
(R73, R86). -/
def PlaneChoice.heldAfter (addr : Nat) (held : List Nat) : PlaneChoice → List Nat
  | .serve => holdCell addr held
  | .override _ => holdCell addr held
  | .refuse _ => releaseCell addr held
  | .silent _ => releaseCell addr held

/-- MemWrite (R73): ERROR raises MEM_ERROR. -/
def memWrite (addr : Word) (v : Sample) (s : State) : Res Unit :=
  match yieldHost true s with
  | .error o => .ended o
  | .ok s' =>
    let choice := s'.ports.plane.next
    let sent := { s' with
      ports.plane := s'.ports.plane.rest
      ports.cells := Memory.writeOpt addr.toNat (choice.writeEffect v) s'.ports.cells
      ports.held := choice.heldAfter addr.toNat s'.ports.held }
    (await (.planeWrite addr v) (fun _ => choice.writeAnswer) sent).bind fun _ t =>
      if choice.writeAnswer = some .ok then .ok () t else .raised .memError t

end Sys2Proof.Machine
end

