-- ==== Sys2Proof/Machine/Predictor.lean ====
section
/-! DEFINITION. The median-edge predictor (R210) and MED_PRED (R212). -/

namespace Sys2Proof.Machine

/-- Med (R210): the tests run in the order written; the arithmetic is exact. -/
def med (a b c : Sample) : Sample :=
  if max a.toNat b.toNat ≤ c.toNat then BitVec.ofNat 16 (min a.toNat b.toNat)
  else if c.toNat ≤ min a.toNat b.toNat then BitVec.ofNat 16 (max a.toNat b.toNat)
  else BitVec.ofInt 16 ((a.toNat : Int) + b.toNat - c.toNat)

/-- MED_PRED (R212). -/
def execMedPred (s : State) : Host.Outcome State Fault Refusal :=
  finish (.ok () (s.setResult16 (med s.aOperand s.bOperand s.cOperand)))

end Sys2Proof.Machine
end

