-- ==== Sys2Proof/Machine/BitStream.lean ====
section
/-! DEFINITION. The bit-level writer and reader (R130 to R135) and the four BitStream commands (R140 to R143). -/

namespace Sys2Proof.Machine

/-- PutBit (R130): a byte goes to the sink as soon as its eighth bit arrives; WACC and WBITS are 0 before it is sent. -/
def putBit (bit : Bool) (s : State) : Res Unit :=
  let acc : Octet := (s.writer.wacc <<< 1) ||| (BitVec.ofBool bit).setWidth 8
  if s.writer.wbits + 1 = 8 then
    (sinkByte acc { s with writer.wacc := 0, writer.wbits := 0 }).bind fun accepted t =>
      if accepted then .ok () t else .raised .ioError t
  else .ok () { s with writer.wacc := acc, writer.wbits := s.writer.wbits + 1 }

/-- WriteBits (R131): the low n bits of the value, most significant first; a position at 64 or above counts as 0. -/
def writeBits (value : DoubleWord) : Nat → State → Res Unit
  | 0, s => .ok () s
  | i + 1, s => (putBit (value.getLsbD i) s).bind fun _ t => writeBits value i t

/-- The pad byte of FlushWriter (R132): the pending bits at the top, zero bits on the low end. -/
def padByte (w : Writer) : Octet := w.wacc <<< (8 - w.wbits)

/-- The first part of FlushWriter (R132): the partial byte, if there is one. -/
def flushPad (report : Bool) (s : State) : Res Unit :=
  if 0 < s.writer.wbits then
    (sinkByte (padByte s.writer) { s with writer.wacc := 0, writer.wbits := 0 }).bind fun accepted t =>
      if accepted || !report then .ok () t else .raised .ioError t
  else .ok () s

/-- FlushWriter (R132): pad and emit the partial byte, then FLUSH, which is sent even with no byte pending. When `report`
is false, error answers are ignored and both requests are still sent. -/
def flushWriter (report : Bool) (s : State) : Res Unit :=
  (flushPad report s).bind fun _ t =>
    (sinkFlush t).bind fun accepted u =>
      if accepted || !report then .ok () u else .raised .ioError u

/-- The bit GetBit takes once a bit is held (R134): RACC[RBITS-1], and RBITS goes down. -/
def takeBit (s : State) : Res Bool :=
  .ok (s.reader.racc.getLsbD (s.reader.rbits - 1)) { s with reader.rbits := s.reader.rbits - 1 }

/-- GetBit (R134): a byte is fetched only when no bit is held. -/
def getBit (s : State) : Res Bool :=
  if s.reader.rbits = 0 then
    (sourceFetch s).bind fun v t => takeBit { t with reader.racc := v, reader.rbits := 8 }
  else takeBit s

/-- ReadBits (R135) from the bits taken so far: n more bits, most significant first. -/
def readBits : Nat → DoubleWord → State → Res DoubleWord
  | 0, v, s => .ok v s
  | n + 1, v, s =>
    (getBit s).bind fun bit t => readBits n ((v <<< 1) ||| (BitVec.ofBool bit).setWidth 64) t

/-- Drops the reader's buffered bits (R143, R232). -/
def State.dropReader (s : State) : State :=
  { s with reader.racc := 0, reader.rbits := 0 }

/-- BS_WRITE (R140). -/
def execBsWrite (s : State) : Host.Outcome State Fault Refusal :=
  finish (writeBits s.valueOperand s.lengthOperand s)

/-- BS_FLUSH (R141). -/
def execBsFlush (s : State) : Host.Outcome State Fault Refusal :=
  finish (flushWriter true s)

/-- BS_READ (R142): ILLEGAL_ARG above 64 bits, checked before any fetch. -/
def execBsRead (s : State) : Host.Outcome State Fault Refusal :=
  finish
    (if s.lengthOperand > 64 then .raised .illegalArg s
    else (readBits s.lengthOperand 0 s).bind fun v t => .ok () (t.setResult64 v))

/-- BS_RALIGN (R143). -/
def execBsRalign (s : State) : Host.Outcome State Fault Refusal :=
  finish (.ok () s.dropReader)

end Sys2Proof.Machine
end

