-- ==== Sys2Proof/Machine/Rice.lean ====
section
/-! DEFINITION. The Golomb-Rice coder (R170 to R175) and its three commands (R180 to R182). -/

namespace Sys2Proof.Machine

/-- Activity (R170): |d - b| + |b - c| + |c - a|, exact. -/
def activity (a b c d : Sample) : Nat :=
  ((d.toNat : Int) - b.toNat).natAbs + ((b.toNat : Int) - c.toNat).natAbs + ((c.toNat : Int) - a.toNat).natAbs

/-- Searches for the least k at or above `k` with 3*2^k at or above the level, for `fuel` steps. -/
def kSearch (level : Nat) : Nat → Nat → Nat
  | 0, k => k
  | fuel + 1, k => if level ≤ 3 * 2 ^ k then k else kSearch level fuel (k + 1)

/-- "the smallest non-negative integer such that 3·2^k ≥ activity_level" (R171), for any level. -/
def kOfActivity (level : Nat) : Nat := kSearch level level 0

/-- ComputeK (R171). -/
def computeK (a b c d : Sample) : Nat := kOfActivity (activity a b c d)

/-- Fold (R172): (x asr 30) XOR (x << 1), all in 32 bits. -/
def fold (x : Word) : Word := x.sshiftRight 30 ^^^ (x <<< 1)

/-- Unfold (R173): (x' >> 1) XOR 32 copies of x'[0]. -/
def unfold (x : Word) : Word := (x >>> 1) ^^^ (if x.getLsbD 0 then 0xFFFFFFFF#32 else 0#32)

/-- The quotient of a codeword, x' >> k (R174). -/
def quotient (k : Nat) (x : Word) : Word := fold x >>> k

/-- The remainder of a codeword, x' AND (2^k - 1) (R174). -/
def remainder (k : Nat) (x : Word) : Word := fold x &&& BitVec.ofNat 32 (2 ^ k - 1)

/-- RiceEncode (R174): q zero bits and a one, written as the value 1 in q+1 bits, then the k bits of r. The prefix counter
holds q+1 exactly (R47). -/
def riceEncode (k : Nat) (x : Word) (s : State) : Res Unit :=
  let counted := { s with word.prefixLen := (quotient k x).setWidth 33 + 1 }
  (writeBits 1 counted.word.prefixLen.toNat counted).bind fun _ t =>
    writeBits ((remainder k x).setWidth 64) k t

/-- The prefix loop of RiceDecode (R175): zero bits are counted in Q mod 2^32 until a one bit. `fuel` bits without a one
are an endless run of zeros (R331, R332: a hang; log 7). -/
def countPrefix : Nat → State → Res Unit
  | 0, s => .ended (.next s)
  | fuel + 1, s =>
    (getBit s).bind fun bit t =>
      if bit then .ok () t else countPrefix fuel { t with word.q := t.word.q + 1 }

/-- More zero bits than this are endless: the bits held, those of the coming answers, and one byte of the answer that
stands for every fetch after those. -/
def prefixFuel (s : State) : Nat := s.reader.rbits + 8 * (s.ports.source.script.length + 1)

/-- x' of RiceDecode (R175): ((q << k) OR r) mod 2^32. -/
def assemble (k : Nat) (q : Word) (r : DoubleWord) : Word := (q <<< k) ||| r.setWidth 32

/-- RiceDecode (R175): one codeword, as the pattern of an s32 residual. -/
def riceDecode (k : Nat) (s : State) : Res Word :=
  (countPrefix (prefixFuel s) { s with word.q := 0 }).bind fun _ t =>
    (readBits k 0 t).bind fun r u => .ok (unfold (assemble k u.word.q r)) u

/-- RICE_K (R180). -/
def execRiceK (s : State) : Host.Outcome State Fault Refusal :=
  finish (.ok () (s.setResultK (computeK s.aOperand s.bOperand s.cOperand s.dOperand)))

/-- RICE_ENC (R181): ILLEGAL_ARG for k above 31, checked before any bit is written. -/
def execRiceEnc (s : State) : Host.Outcome State Fault Refusal :=
  finish
    (if s.kOperand > 31 then .raised .illegalArg s
    else riceEncode s.kOperand s.residualOperand s)

/-- RICE_DEC (R182): ILLEGAL_ARG for k above 31, checked before any fetch. -/
def execRiceDec (s : State) : Host.Outcome State Fault Refusal :=
  finish
    (if s.kOperand > 31 then .raised .illegalArg s
    else (riceDecode s.kOperand s).bind fun x t => .ok () (t.setResult 0 x))

end Sys2Proof.Machine
end

