-- ==== Sys2Proof/Machine/Plane.lean ====
section
/-! DEFINITION. The raster-scan plane codec (R220 to R233) and its two commands (R240, R241). -/

namespace Sys2Proof.Machine

/-- n of Addr (R220): exact, in natural numbers. -/
def addrNat (row col : Nat) (s : State) : Nat :=
  s.regs.pbase.toNat + row * s.regs.prstride.toNat + col * s.regs.psstride.toNat

/-- Addr (R220): a value above 2^32 - 1 raises MEM_ERROR, and no transaction is sent. -/
def addr (row col : Nat) (s : State) : Res Word :=
  if addrNat row col s > 2 ^ 32 - 1 then .raised .memError s
  else .ok (BitVec.ofNat 32 (addrNat row col s)) s

/-- The first action of a pixel step (R227, R228, R230): POS_ROW and POS_COL. -/
def markPosition (s : State) : State :=
  { s with regs.posRow := s.scan.row, regs.posCol := s.scan.col }

/-- Does the pixel at (ROW, COL) have an above-right sample: row > 0 and col < W - 1 (R225)? -/
def hasAboveRight (s : State) : Bool :=
  0 < s.scan.row.toNat && s.scan.col.toNat + 1 < s.regs.pwidth.toNat

/-- D of the pixel at (ROW, COL) (R225): a read of the cell one row up and one column right, or 0. -/
def loadAboveRight (s : State) : Res Unit :=
  if hasAboveRight s then
    (addr (s.scan.row.toNat - 1) (s.scan.col.toNat + 1) s).bind fun a t =>
      (memRead a t).bind fun v u => .ok () { u with scan.d := v }
  else .ok () { s with scan.d := 0 }

/-- PRED and K from the context A, B, C, D (R227, R228). -/
def predict (s : State) : State :=
  { s with
    scan.pred := med s.scan.a s.scan.b s.scan.c
    scan.k := computeK s.scan.a s.scan.b s.scan.c s.scan.d }

/-- Context roll and row seed after the pixel's sample x (R226). -/
def roll (x : Sample) (s : State) : State :=
  let first := if s.scan.col = 0 then x else s.scan.first
  { s with
    scan.first := first
    scan.c := s.scan.b
    scan.b := if s.scan.col.toNat + 1 = s.regs.pwidth.toNat then first else s.scan.d
    scan.a := x }

/-- res = x - PRED as an s32 pattern (R227). -/
def residual (x pred : Sample) : Word := BitVec.ofInt 32 ((x.toNat : Int) - pred.toNat)

/-- x = (PRED + res) mod 2^16 (R228, R229). -/
def reconstruct (pred : Sample) (res : Word) : Sample := BitVec.ofInt 16 ((pred.toNat : Int) + res.toInt)

/-- The encode pixel step at (ROW, COL) (R227). -/
def encodePixel (s : State) : Res Unit :=
  (loadAboveRight (markPosition s)).bind fun _ t =>
    let p := predict t
    (addr p.scan.row.toNat p.scan.col.toNat p).bind fun a u =>
      (memRead a u).bind fun x v =>
        (riceEncode v.scan.k (residual x v.scan.pred) v).bind fun _ w => .ok () (roll x w)

/-- The decode pixel step at (ROW, COL) (R228). -/
def decodePixel (s : State) : Res Unit :=
  (loadAboveRight (markPosition s)).bind fun _ t =>
    let p := predict t
    (riceDecode p.scan.k p).bind fun res u =>
      let x := reconstruct u.scan.pred res
      (addr u.scan.row.toNat u.scan.col.toNat u).bind fun a v =>
        (memWrite a x v).bind fun _ w => .ok () (roll x w)

/-- The rest of a row: `n` pixels from COL on, left to right (R223). -/
def scanRow (pixel : State → Res Unit) : Nat → State → Res Unit
  | 0, s => .ok () s
  | n + 1, s => (pixel s).bind fun _ t => scanRow pixel n { t with scan.col := t.scan.col + 1 }

/-- The start of a row: A = C = 0, at column 0; B keeps the seed of the row before (R224). -/
def startRow (s : State) : State :=
  { s with scan.a := 0, scan.c := 0, scan.col := 0 }

/-- The rest of the plane: `n` rows from ROW on, top to bottom (R223). -/
def scanRows (pixel : State → Res Unit) : Nat → State → Res Unit
  | 0, s => .ok () s
  | n + 1, s =>
    (scanRow pixel s.regs.pwidth.toNat (startRow s)).bind fun _ t =>
      scanRows pixel n { t with scan.row := t.scan.row + 1 }

/-- The scan of a plane (R223, R224): B = 0 before the first pixel, rows 0 to H-1, and POS = (H, 0) when it ends without
an error (R230). -/
def scanPlane (pixel : State → Res Unit) (s : State) : Res Unit :=
  (scanRows pixel s.regs.pheight.toNat { s with scan.b := 0, scan.row := 0 }).bind fun _ t =>
    .ok () { t with regs.posRow := t.regs.pheight, regs.posCol := 0 }

/-- The exit flush of PLANE_ENC (R231): after a normal scan its errors are raised; after a raise the error is held in
ABORT_ERR, the flush's answers are ignored, and the command ends with the held error. -/
def encodeExit (r : Res Unit) : Res Unit :=
  match r with
  | .ok _ s => flushWriter true s
  | .raised e s =>
    (flushWriter false { s with ctl.abortErr := e }).bind fun _ t => .raised t.ctl.abortErr t
  | .ended o => .ended o

/-- The exit of PLANE_DEC (R232): the reader's bits are dropped, with or without an error. -/
def decodeExit (r : Res Unit) : Res Unit :=
  match r with
  | .ok _ s => .ok () s.dropReader
  | .raised e s => .raised e s.dropReader
  | .ended o => .ended o

/-- PLANE_ENC (R240): STATE if the writer holds bits (R233), before anything else. -/
def execPlaneEnc (s : State) : Host.Outcome State Fault Refusal :=
  finish
    (if s.writer.wbits ≠ 0 then .raised .state s
    else encodeExit (scanPlane encodePixel s))

/-- PLANE_DEC (R241): STATE if the reader holds bits (R233), before anything else. -/
def execPlaneDec (s : State) : Host.Outcome State Fault Refusal :=
  finish
    (if s.reader.rbits ≠ 0 then .raised .state s
    else decodeExit (scanPlane decodePixel s))

end Sys2Proof.Machine
end

