-- ==== Sys2Proof/Machine/System.lean ====
section
/-! DEFINITION. NOP (R270): "nothing between the start of 30_encoding.md rule R110 and the completion of rule R111". -/

namespace Sys2Proof.Machine

/-- NOP (R270). -/
def execNop (s : State) : Host.Outcome State Fault Refusal := finish (.ok () s)

end Sys2Proof.Machine
end

