-- ==== Sys2Proof/Machine/Dispatch.lean ====
section
/-! DEFINITION. The command map (R103): one arm per command. -/

namespace Sys2Proof.Machine

def exec (i : Instr) (s : State) : Host.Outcome State Fault Refusal :=
  match i with
  | .nop => Sys2Proof.Machine.execNop s
  | .bsWrite => Sys2Proof.Machine.execBsWrite s
  | .bsFlush => Sys2Proof.Machine.execBsFlush s
  | .bsRead => Sys2Proof.Machine.execBsRead s
  | .bsRalign => Sys2Proof.Machine.execBsRalign s
  | .riceK => Sys2Proof.Machine.execRiceK s
  | .riceEnc => Sys2Proof.Machine.execRiceEnc s
  | .riceDec => Sys2Proof.Machine.execRiceDec s
  | .medPred => Sys2Proof.Machine.execMedPred s
  | .planeEnc => Sys2Proof.Machine.execPlaneEnc s
  | .planeDec => Sys2Proof.Machine.execPlaneDec s

end Sys2Proof.Machine
end

