-- ==== Sys2Proof/Machine/HostPort.lean ====
section
/-! DEFINITION. The host's side of a step: a command started by a CMD write (R110), an outside action while the block is
idle (R79), and the pseudo-commands as host programs (R115, R116). -/

namespace Sys2Proof.Machine

/-- A host write of `w` to CMD while BUSY = 0 (R110): the start edge, then the command the word names, or ILLEGAL_CMD. -/
def startCommand (w : Word) (s : State) : Host.Outcome State Fault Refusal :=
  match decode w with
  | .ok i => exec i (s.startEdge w)
  | .error _ => illegalCommand (s.startEdge w)

/-- The outside agents' next action while BUSY = 0: a read returns a register (R79), a write to CMD starts a command
(R110), another write stores or is ignored (R21), WAIT reads STATUS once and is over (R116), reset acts (R320), another
agent touches plane memory (R88), and an access of another form is refused (R82). With nothing to do the block stays
idle (R302). -/
def serveIdle (s : State) : Host.Outcome State Fault Refusal :=
  match s.host.queue with
  | [] => .next s
  | act :: rest =>
    let popped := { s with host.queue := rest }
    if act.wellFormed then
      match act with
      | .read _ offset => .next (idleRead offset popped)
      | .write _ offset v =>
        if offset = regOffset .cmd then startCommand v popped else .next (storeReg offset v popped)
      | .wait => .next (idleRead (regOffset .status) popped)
      | .reset => .next (resetBlock popped)
      | .poke addr v => .next (pokeCell addr v popped)
      | .peek addr => .next (peekCell addr popped)
    else .refused (.hostAccess act)

/-- One step of the machine. While BUSY = 1 between steps, a port never answers or the source is endless (R70, R332):
only the outside agents act. -/
def hostStep (s : State) : Host.Outcome State Fault Refusal :=
  if s.ctl.busy then
    match serveBusy true s with
    | .ok s' => .next s'
    | .error o => o
  else serveIdle s

/-- Does another agent touch a plane cell by this action? -/
def touchesPlane : HostAct → Bool
  | .read _ _ => false
  | .write _ _ _ => false
  | .wait => false
  | .reset => false
  | .poke _ _ => true
  | .peek _ => true

/-- Does the run from here meet a racing access within `n` steps? -/
def runRaces : Nat → State → Bool
  | 0, s => s.ports.raced
  | n + 1, s =>
    s.ports.raced ||
      match hostStep s with
      | .next t => runRaces n t
      | .fault _ => false
      | .refused _ => false

/-- "A model treats every value such a run reads as a free draw" (R88): also those read before the racing access. So each step
first looks ahead over the outside actions still waiting, which are all the run has left: a step takes one from the queue,
or none ever will. If one of them races, the run is a race from this step on (log 9). -/
def foresee (s : State) : State :=
  { s with
    ports.raced :=
      s.ports.raced || (s.host.queue.any touchesPlane && runRaces s.host.queue.length s) }

/-- WR of a named register (R114). -/
def wr (r : Reg) (v : Word) : HostAct := .write 32 (regOffset r) v

/-- RD of a named register (R114). -/
def rd (r : Reg) : HostAct := .read 32 (regOffset r)

/-- Two samples in one register: lo + (hi << 16) (R115). -/
def packSamples (hi lo : Sample) : Word := hi ++ lo

/-- The writes of a plane descriptor (R115). -/
def wrPlane (base w h ss rs : Word) : List HostAct :=
  [wr .pbase base, wr .pwidth w, wr .pheight h, wr .psstride ss, wr .prstride rs]

/-- The writes of BS_WRITE's operands and its command (R115). -/
def bsWriteProgram (value : DoubleWord) (length : Word) : List HostAct :=
  [wr .arg0 (value.extractLsb' 0 32), wr .arg1 (value.extractLsb' 32 32), wr .arg2 length, wr .cmd 0x1, .wait]

/-- The expansion of a pseudo-command (R115). -/
def expand : Pseudo → List HostAct
  | .nop => [wr .cmd 0x0, .wait]
  | .bsWrite value length => bsWriteProgram value length
  | .bsFlush => [wr .cmd 0x2, .wait]
  | .bsRead length => [wr .arg2 length, wr .cmd 0x3, .wait]
  | .bsRalign => [wr .cmd 0x4, .wait]
  | .riceK a b c d => [wr .arg0 (packSamples b a), wr .arg1 (packSamples d c), wr .cmd 0x5, .wait]
  | .riceEnc k x => [wr .arg0 x, wr .arg2 k, wr .cmd 0x6, .wait]
  | .riceDec k => [wr .arg2 k, wr .cmd 0x7, .wait]
  | .medPred a b c => [wr .arg0 (packSamples b a), wr .arg1 (c.setWidth 32), wr .cmd 0x8, .wait]
  | .planeEnc base w h ss rs => wrPlane base w h ss rs ++ [wr .cmd 0x9, .wait]
  | .planeDec base w h ss rs => wrPlane base w h ss rs ++ [wr .cmd 0xA, .wait]
  | .bsWriteUnary q => bsWriteProgram 1 (q + 1)
  | .bsWriteZeros n => bsWriteProgram 0 n

/-- The program that runs the command word `w` next: a CMD write at the head of the host's queue, with the block idle. -/
def placeCommand (w : Word) (s : State) : State :=
  { s with
    ctl.busy := false
    ctl.phase := .idle
    ports.pending := none
    host.queue := wr .cmd w :: s.host.queue }

end Sys2Proof.Machine
end

