-- ==== Sys2Proof/Machine/Step.lean ====
section
/-! DEFINITION. One step of the machine, and how a command comes to be the next step (log 8). -/

namespace Sys2Proof.Machine

/-- One step: the outside agents' next action, with the whole command it starts (log 1), in a run known to be a race if it is
one (R88). -/
def step (s : State) : Host.Outcome State Fault Refusal := hostStep (foresee s)

/-- The block fetches no instructions (R24): the word whose bits are `w` becomes the host's next CMD write. -/
def State.withFetchWord (s : State) (nbits w : Nat) : State :=
  placeCommand (BitVec.ofNat 32 (w % 2 ^ nbits)) s

end Sys2Proof.Machine
end

