-- ==== Sys2Proof/Safety.lean ====
section
/-! DEFINITION. The terms claims are made in: the invariant, runs that are undisturbed, ports that answer, the bits of the
streams (R11, R80), the codeword and context of a pixel by their laws (R174, R245), and the observation of a run (R333). -/

namespace Sys2Proof.Safety

open Sys2Proof.Machine

/-! ### The invariant -/

/-- What every state of the machine keeps: WBITS at most 7 with WACC clear above the pending bits (R43), RBITS at most 7
(R44), PHASE = RUN exactly when BUSY = 1 (R45), DONE = 0 while BUSY = 1 and an error code only with DONE = 1 (R26), no
outstanding transaction while idle (R87), K at most 16 (R46), and plane memory and the list of held cells in canonical form
(log 4). -/
abbrev Inv (s : State) : Prop :=
  s.writer.wbits ≤ 7 ∧
  s.writer.wacc.toNat < 2 ^ s.writer.wbits ∧
  s.reader.rbits ≤ 7 ∧
  (s.ctl.phase = .run ↔ s.ctl.busy = true) ∧
  (s.ctl.busy = true → s.ctl.done = false) ∧
  (s.ctl.err ≠ .none → s.ctl.done = true) ∧
  (s.ctl.busy = false → s.ports.pending = none) ∧
  s.scan.k ≤ 16 ∧
  Memory.wf s.ports.cells = true ∧
  heldWf s.ports.held = true

/-! ### The outside agents -/

/-- No outside action lands while the next command runs (log 2). -/
abbrev Quiet (s : State) : Prop := s.host.slots = []

/-- A host access that the block answers or ignores while it runs: a well-formed read or write, or WAIT. -/
def harmless (act : HostAct) : Bool :=
  match act with
  | .read width offset => accessWellFormed width offset
  | .write width offset _ => accessWellFormed width offset
  | .wait => true
  | .reset => false
  | .poke _ _ => false
  | .peek _ => false

/-- Every choice of a port, scripted or not, satisfies `p`. -/
def portAll {α : Type} (p : α → Bool) (port : Port α) : Bool := port.script.all p && p port.tail

/-- The sink answers OK to everything. -/
abbrev SinkAccepts (s : State) : Prop := portAll (fun c => c == .ok) s.ports.sink = true

/-- Plane memory answers every READ with the cell and every WRITE with OK, and the run is no race (R88). -/
abbrev PlaneServes (s : State) : Prop := portAll (fun c => c == .serve) s.ports.plane = true ∧ s.ports.raced = false

/-- Does this choice answer a FETCH? -/
def sourceAnswers : SourceChoice → Bool
  | .data _ => true
  | .eos => true
  | .error => true
  | .silent => false

/-- Does this choice answer a plane request? -/
def planeAnswers : PlaneChoice → Bool
  | .serve => true
  | .override _ => true
  | .refuse _ => true
  | .silent _ => false

/-- Every port answers every request (the duties of R93). -/
abbrev PortsAnswer (s : State) : Prop :=
  portAll (fun c => c != .silent) s.ports.sink = true ∧
  portAll sourceAnswers s.ports.source = true ∧
  portAll planeAnswers s.ports.plane = true

/-- The source does not answer DATA(0x00) for ever (R332). -/
abbrev SourceNotEndlessZeros (s : State) : Prop := s.ports.source.tail ≠ .data 0

/-! ### Bits of the streams -/

/-- The low `n` bits of a value, most significant first, as WriteBits appends them (R131). -/
def valueBits {w : Nat} (v : BitVec w) : Nat → List Bool
  | 0 => []
  | n + 1 => v.getLsbD n :: valueBits v n

/-- The number that bits spell, most significant first (R135). -/
def bitsNat (bits : List Bool) : Nat := bits.foldl (fun n b => 2 * n + b.toNat) 0

/-- The bits of a byte sequence in stream order (R80). -/
def octetsBits (bytes : List Octet) : List Bool := bytes.flatMap fun v => valueBits v 8

/-- The bytes of the sink's stream: the BYTE requests answered OK, in request order (R74). -/
def sinkStream (log : List PortEvent) : List Octet :=
  log.filterMap fun e =>
    match e.request, e.answer with
    | .byte v, .ok => some v
    | _, _ => none

/-- The number of FETCH requests answered DATA (R78). -/
def fetchedCount (log : List PortEvent) : Nat :=
  log.countP fun e =>
    match e.request, e.answer with
    | .fetch, .octet _ => true
    | _, _ => false

/-- The writer's pending bits, oldest first (R43). -/
def pendingBits (w : Writer) : List Bool := valueBits w.wacc w.wbits

/-- Every bit written so far: the sink's stream, then the pending bits (R133). -/
def writtenBits (s : State) : List Bool := octetsBits (sinkStream s.ports.log) ++ pendingBits s.writer

/-- Bits padded with zeros to the next byte boundary (R132). -/
def padded (bits : List Bool) : List Bool := bits ++ List.replicate ((8 - bits.length % 8) % 8) false

/-- The bytes of the coming DATA answers of a script, up to its first other answer. -/
def comingBytes : List SourceChoice → List Octet
  | .data v :: rest => v :: comingBytes rest
  | _ => []

/-- The bits the reader can take next: the buffered bits, then those of the coming bytes (R134). -/
def readableBits (s : State) : List Bool :=
  valueBits s.reader.racc s.reader.rbits ++ octetsBits (comingBytes s.ports.source.script)

/-! ### Codewords and planes -/

/-- The codeword of residual x with parameter k (R174): q zero bits, a one, and r in k bits. -/
def codeword (k : Nat) (x : Word) : List Bool :=
  List.replicate (quotient k x).toNat false ++ true :: valueBits (remainder k x) k

/-- The residuals on which the fold is the zigzag map and the unfold its inverse: [-2^30, 2^30 - 1] (R172). -/
abbrev InFoldDomain (x : Word) : Prop := -(2 ^ 30) ≤ x.toInt ∧ x.toInt < 2 ^ 30

/-- A of the pixel at (row, col) (R245). -/
def contextA (f : Nat → Nat → Sample) (row col : Nat) : Sample := if 0 < col then f row (col - 1) else 0

/-- B of the pixel at (row, col) (R245). -/
def contextB (f : Nat → Nat → Sample) (row col : Nat) : Sample := if 0 < row then f (row - 1) col else 0

/-- C of the pixel at (row, col) (R245). -/
def contextC (f : Nat → Nat → Sample) (row col : Nat) : Sample :=
  if 0 < row ∧ 0 < col then f (row - 1) (col - 1) else 0

/-- D of the pixel at (row, col) of a plane of width `w` (R245). -/
def contextD (f : Nat → Nat → Sample) (w row col : Nat) : Sample :=
  if 0 < row ∧ col + 1 < w then f (row - 1) (col + 1) else 0

/-- The prediction at (row, col) (R227). -/
def pixelPrediction (f : Nat → Nat → Sample) (row col : Nat) : Sample :=
  med (contextA f row col) (contextB f row col) (contextC f row col)

/-- The Rice parameter at (row, col) of a plane of width `w` (R227). -/
def pixelK (f : Nat → Nat → Sample) (w row col : Nat) : Nat :=
  computeK (contextA f row col) (contextB f row col) (contextC f row col) (contextD f w row col)

/-- The codeword of the pixel at (row, col) of a plane of width `w` with samples `f` (R227). -/
def pixelCodeword (f : Nat → Nat → Sample) (w row col : Nat) : List Bool :=
  codeword (pixelK f w row col) (residual (f row col) (pixelPrediction f row col))

/-- The codewords of a plane in raster order (R223). -/
def planeBits (f : Nat → Nat → Sample) (w h : Nat) : List Bool :=
  (List.range h).flatMap fun row => (List.range w).flatMap fun col => pixelCodeword f w row col

/-- The sample that plane memory holds for the pixel at (row, col) of the descriptor registers' view (R220). -/
def planeSample (s : State) (row col : Nat) : Sample := Memory.read (addrNat row col s) s.ports.cells

/-- Is (row, col) a pixel of the descriptor registers' view (R221)? -/
abbrev InPlane (s : State) (row col : Nat) : Prop :=
  row < s.regs.pheight.toNat ∧ col < s.regs.pwidth.toNat

/-- Every pixel's address fits in 32 bits (R220). -/
abbrev AddressesFit (s : State) : Prop := ∀ row col, InPlane s row col → addrNat row col s < 2 ^ 32

/-- No two pixels share an address (R92, R247). -/
abbrev AddressesDistinct (s : State) : Prop :=
  ∀ row col row' col', InPlane s row col → InPlane s row' col' →
    addrNat row col s = addrNat row' col' s → row = row' ∧ col = col'

/-! ### A run and its observation -/

/-- The observation at the end of a run (R333): the registers, the three ports' requests and answers in order, and the
contents of plane memory, of which nothing is known after a race (R88). -/
structure Observation where
  registers : List (Reg × Word)
  sink : List PortEvent
  source : List PortEvent
  plane : List PortEvent
  cells : Option Memory
  deriving DecidableEq, Repr

/-- The registers of the map, in offset order (R21). -/
def allRegs : List Reg :=
  [.cmd, .status, .arg0, .arg1, .arg2, .res0, .res1, .pbase, .pwidth, .pheight, .psstride, .prstride, .posRow, .posCol,
    .outBytes, .inBytes]

/-- Is this a request on the sink port (R74)? -/
def onSink : Request → Bool
  | .byte _ => true
  | .flush => true
  | .fetch => false
  | .planeRead _ => false
  | .planeWrite _ _ => false

/-- Is this a request on the source port (R77)? -/
def onSource : Request → Bool
  | .fetch => true
  | .byte _ => false
  | .flush => false
  | .planeRead _ => false
  | .planeWrite _ _ => false

/-- Is this a request on the plane memory port (R71)? -/
def onPlane : Request → Bool
  | .planeRead _ => true
  | .planeWrite _ _ => true
  | .byte _ => false
  | .flush => false
  | .fetch => false

/-- A run has ended: the host's program is done and the block is idle (R333). -/
def runEnded (s : State) : Bool := s.host.queue.isEmpty && !s.ctl.busy

/-- The five parts of the observation (R333). -/
def observe (s : State) : Observation where
  registers := allRegs.map fun r => (r, regValue r s)
  sink := s.ports.log.filter fun e => onSink e.request
  source := s.ports.log.filter fun e => onSource e.request
  plane := s.ports.log.filter fun e => onPlane e.request
  cells := if s.ports.raced then none else some s.ports.cells

end Sys2Proof.Safety
end

