-- ==== Sys2Proof/Certificates/Slice0/Obligations.lean ====
section
/-! DEFINITION. The statements for the provers. `Quiet s`: no outside action lands while the command runs. A command's
statement is about the state after its start edge (R110) or any other: `exec` is the command's rule and its completion.
`foresee s` is s but for `ports.raced`: whether the run is known to be a race (R88; log 9). -/

open Sys2Proof Sys2Proof.Machine Sys2Proof.Safety

/-! ### Encoding and dispatch -/

/-- R103, R107: words written out from the command map, and one word of each illegal kind. -/
def Obligations.CommandWordsDecodeByTheMap : Prop :=
  decode 0x00000000 = .ok .nop ∧ decode 0x00000001 = .ok .bsWrite ∧ decode 0x00000002 = .ok .bsFlush ∧
  decode 0x00000003 = .ok .bsRead ∧ decode 0x00000004 = .ok .bsRalign ∧ decode 0x00000005 = .ok .riceK ∧
  decode 0x00000006 = .ok .riceEnc ∧ decode 0x00000007 = .ok .riceDec ∧ decode 0x00000008 = .ok .medPred ∧
  decode 0x00000009 = .ok .planeEnc ∧ decode 0x0000000A = .ok .planeDec ∧
  decode 0x0000000B = .error .reservedOpcode ∧ decode 0x0000000F = .error .reservedOpcode ∧
  decode 0x00000011 = .error .reservedBits ∧ decode 0x80000001 = .error .reservedBits

/-- R101, R103: every command's word decodes to it, and no other word does. -/
def Obligations.DecodeInvertsEncodeExactly : Prop :=
  (∀ i : Instr, i.wellFormed = true → decode (encode i) = .ok i) ∧
  (∀ (w : Word) (i : Instr), decode w = .ok i → w = encode i)

/-- R101: "every 32-bit value decodes to exactly one legal command or to the single result illegal". -/
def Obligations.DecoderIsTotalOnCommandWords : Prop :=
  ∀ w : Word,
    if w.extractLsb' 4 28 = 0#28 ∧ (w.extractLsb' 0 4).toNat ≤ 0xA then ∃! i, decode w = .ok i
    else ∃ r, decode w = .error r

/-- R110: a host write of a legal word to CMD while BUSY = 0 is the start edge and then the command's rule. -/
def Obligations.StepRunsTheDecodedCommand : Prop :=
  ∀ (s : State) (w : Word) (i : Instr) (rest : List HostAct),
    s.ctl.busy = false → s.host.queue = wr .cmd w :: rest → decode w = .ok i →
    step s = exec i
      { foresee s with
        regs.cmd := w
        ctl := { busy := true, done := false, err := .none, phase := .run, op := w.extractLsb' 0 4,
                 abortErr := s.ctl.abortErr }
        host.queue := rest }

/-- Log 8: the word placed by `withFetchWord` is the command the next step runs; with no access of another agent waiting,
in the state as it stands. -/
def Obligations.PlacedWordRunsNext : Prop :=
  ∀ (s : State) (i : Instr),
    ∃ raced : Bool,
      step (s.withFetchWord 32 (encode i).toNat) =
        exec i (State.startEdge (encode i)
          { s with ctl.busy := false, ctl.phase := .idle, ports.pending := none, ports.raced := raced }) ∧
      (s.ports.raced = true → raced = true) ∧
      (s.host.queue.any touchesPlane = false → raced = s.ports.raced)

/-- R107, R282: an illegal word is stored, and the command completes with ILLEGAL_CMD and changes nothing else but the
edges (OP is R110's). -/
def Obligations.IllegalWordCompletesAtOnce : Prop :=
  ∀ (s : State) (w : Word) (rest : List HostAct),
    Quiet s → s.ctl.busy = false → s.host.queue = wr .cmd w :: rest → commandWordLegal w = false →
    step s = .next
      { foresee s with
        regs.cmd := w
        ctl := { busy := false, done := true, err := .illegalCmd, phase := .idle, op := w.extractLsb' 0 4,
                 abortErr := s.ctl.abortErr }
        host.queue := rest }

/-! ### The host register port -/

/-- R25: where STATUS shows each field. -/
def Obligations.StatusShowsItsFields : Prop :=
  ∀ s : State, s.writer.wbits ≤ 7 → s.reader.rbits ≤ 7 →
    (regValue .status s).getLsbD 0 = s.ctl.busy ∧
    (regValue .status s).getLsbD 1 = s.ctl.done ∧
    (regValue .status s).extractLsb' 2 2 = 0#2 ∧
    ((regValue .status s).extractLsb' 4 3).toNat = s.ctl.err.code ∧
    (regValue .status s).getLsbD 7 = false ∧
    ((regValue .status s).extractLsb' 8 3).toNat = s.writer.wbits ∧
    (regValue .status s).getLsbD 11 = false ∧
    ((regValue .status s).extractLsb' 12 3).toNat = s.reader.rbits ∧
    (regValue .status s).extractLsb' 15 17 = 0#17

/-- R20, R21, R79: a read while BUSY = 0 returns the register at the offset, 0 at a reserved offset, and has no side
effect (the model's record of the read apart). -/
def Obligations.IdleReadReturnsTheRegister : Prop :=
  ∀ (s : State) (offset : Nat) (rest : List HostAct),
    s.ctl.busy = false → s.host.queue = .read 32 offset :: rest → accessWellFormed 32 offset = true →
    ∃ v : Word,
      step s = .next { foresee s with host.queue := rest, host.saw := s.host.saw ++ [.register offset v] } ∧
      (∀ r : Reg, offset = regOffset r → v = regValue r s) ∧
      ((∀ r : Reg, offset ≠ regOffset r) → v = 0)

/-- R20, R21: a write while BUSY = 0 to an offset other than CMD's changes the RW register there and no other state. -/
def Obligations.IdleWriteStoresOnlyItsRegister : Prop :=
  ∀ (s : State) (offset : Nat) (v : Word) (rest : List HostAct),
    s.ctl.busy = false → s.host.queue = .write 32 offset v :: rest → accessWellFormed 32 offset = true →
    offset ≠ 0 →
    ∃ t : State, step s = .next t ∧
      t = { foresee s with regs := t.regs, host.queue := rest } ∧
      ∀ r : Reg,
        regValue r t =
          if offset = regOffset r ∧
              r ∈ [Reg.arg0, .arg1, .arg2, .pbase, .pwidth, .pheight, .psstride, .prstride]
            then v else regValue r s

/-- R42: "A host write to any register while STATUS.BUSY = 1 is ignored." -/
def Obligations.BusyWriteIsIgnored : Prop :=
  ∀ (s : State) (offset : Nat) (v : Word) (rest : List HostAct),
    s.ctl.busy = true → s.host.queue = .write 32 offset v :: rest → accessWellFormed 32 offset = true →
    step s = .next { foresee s with host.queue := rest }

/-- R27: while BUSY = 1, STATUS has exact BUSY, DONE and ERR; the registers not named there read their stored values; the
rest may be any value. A read changes nothing but the host's side. -/
def Obligations.BusyReadIsExactOrDrawn : Prop :=
  ∀ (s : State) (r : Reg) (rest : List HostAct),
    s.ctl.busy = true → s.host.queue = rd r :: rest →
    ∃ (t : State) (v : Word),
      step s = .next t ∧ t = { foresee s with host := t.host } ∧ t.host.queue = rest ∧ t.host.slots = s.host.slots ∧
      t.host.saw = s.host.saw ++ [.register (regOffset r) v] ∧
      (r = .status → v.getLsbD 0 = true ∧ v.getLsbD 1 = s.ctl.done ∧ (v.extractLsb' 4 3).toNat = s.ctl.err.code) ∧
      (r ∈ [Reg.cmd, .arg0, .arg1, .arg2, .pbase, .pwidth, .pheight, .psstride, .prstride] → v = regValue r s)

/-- R82: an access of another width or at another offset has no step, whether BUSY = 0 or 1. That offsets of 0x100 and
more are among them is log 14, from R20. -/
def Obligations.OtherHostAccessesAreRefused : Prop :=
  ∀ (s : State) (width offset : Nat) (v : Word) (act : HostAct) (rest : List HostAct),
    act = .read width offset ∨ act = .write width offset v →
    width ≠ 32 ∨ offset % 4 ≠ 0 ∨ offset ≥ 0x100 →
    s.host.queue = act :: rest → step s = .refused (.hostAccess act)

/-- R88, R329, logs 4 and 9 (the model's form of other agents). While a plane command that is past its check runs, another
agent's write of a cell of its view, or its read of one that PLANE_DEC writes, makes the run a race; an access to another
cell does not, and neither does one that lands in an illegal command or in a plane command that its check ends, which use no
cell. Every READ of a race is a draw: a step whose run is a race now or within its waiting actions reads nothing but draws
from its start. A run with no access of another agent is as without them. -/
def Obligations.ForeignAccessToTheCommandsCellsIsARace : Prop :=
  (∀ (s : State) (a : Word) (v : Sample) (rest : List HostAct),
    s.ctl.op = 0x9#4 ∨ s.ctl.op = 0xA#4 → s.host.queue = .poke a v :: rest →
    ∃ raced : Bool,
      (raced = true ↔ s.ports.raced = true ∨ ∃ row col, InPlane s row col ∧ addrNat row col s = a.toNat) ∧
      serveBusy true s = .ok
        { s with
          host.queue := rest
          ports.cells := Memory.write a.toNat v s.ports.cells
          ports.held := releaseCell a.toNat s.ports.held
          ports.raced := raced }) ∧
  (∀ (s : State) (a : Word) (rest : List HostAct), s.ctl.op = 0xA#4 → s.host.queue = .peek a :: rest →
    ∃ raced : Bool,
      (raced = true ↔ s.ports.raced = true ∨ ∃ row col, InPlane s row col ∧ addrNat row col s = a.toNat) ∧
      serveBusy true s = .ok
        { s with
          host.queue := rest
          host.saw := s.host.saw ++
            [.cell a (if raced then Config.raceDraw s.ports.raceDraws else Memory.read a.toNat s.ports.cells)]
          ports.raced := raced
          ports.raceDraws := s.ports.raceDraws + raced.toNat }) ∧
  (∀ (s : State) (a : Word) (v : Sample) (rest : List HostAct) (slots : List Nat),
    s.host.slots = 1 :: slots → s.host.queue = .poke a v :: rest →
    let landed := { s with
      host.slots := slots
      host.queue := rest
      ports.cells := Memory.write a.toNat v s.ports.cells
      ports.held := releaseCell a.toNat s.ports.held }
    illegalCommand s = .next (landed.complete .illegalCmd) ∧
    (s.writer.wbits ≠ 0 → exec .planeEnc s = .next (landed.complete .state)) ∧
    (s.reader.rbits ≠ 0 → exec .planeDec s = .next (landed.complete .state))) ∧
  (∀ s t : State, Inv s → step s = .next t → t.ports.raced = true → step s = hostStep { s with ports.raced := true }) ∧
  (∀ (s : State) (n : Nat), s.host.queue.any touchesPlane = true → n ≤ s.host.queue.length → runRaces n s = true →
    step s = hostStep { s with ports.raced := true }) ∧
  (∀ s : State, s.host.queue.any touchesPlane = false → step s = hostStep s) ∧
  (∀ (s : State) (a : Word), Quiet s → s.ports.raced = true → s.ports.plane.next = .serve →
    ∃ t : State, memRead a s = .ok (Config.raceDraw s.ports.raceDraws) t ∧
      t.ports.raced = true ∧ t.ports.raceDraws = s.ports.raceDraws + 1 ∧ t.ports.cells = s.ports.cells)

/-! ### Reset -/

/-- R320, R322, R323: reset acts in one step, busy or idle, on the block alone. The answer of an outstanding transaction
is dropped. Nothing is said of the scan state and the codeword counters (log 6). -/
def Obligations.ResetActsOnTheBlockAlone : Prop :=
  ∀ (s : State) (rest : List HostAct), s.host.queue = .reset :: rest →
    ∃ t : State, step s = .next t ∧
      (∀ offset, idleValue offset t = 0) ∧
      t.ctl = { busy := false, done := false, err := .none, phase := .idle, op := 0, abortErr := .none } ∧
      t.writer = { wacc := 0, wbits := 0 } ∧ t.reader = { racc := 0, rbits := 0 } ∧
      t.ports.pending = none ∧
      t.ports.log = s.ports.log ++ (s.ports.pending.toList.map fun req => { request := req, answer := .dropped }) ∧
      t.ports.cells = s.ports.cells ∧ t.ports.sink = s.ports.sink ∧ t.ports.source = s.ports.source ∧
      t.ports.plane = s.ports.plane ∧ t.ports.held = s.ports.held ∧
      t.ports.raced = (foresee s).ports.raced ∧ t.ports.raceDraws = s.ports.raceDraws ∧
      t.host = { s.host with queue := rest }

/-- R322: a reset that lands in any command before its first transaction stops it: no completion, no exit flush, no
transaction. -/
def Obligations.ResetStopsAnyCommand : Prop :=
  ∀ (i : Instr) (s : State) (n : Nat) (slots : List Nat) (rest : List HostAct),
    s.host.slots = (n + 1) :: slots → s.host.queue = .reset :: rest → s.ports.pending = none →
    ∃ t : State, exec i s = .next t ∧
      t.regs = Regs.reset ∧ t.ctl = Control.reset ∧ t.writer = Writer.reset ∧ t.reader = Reader.reset ∧
      t.ports = s.ports ∧ t.host = { s.host with queue := rest, slots := slots }

/-- R321, R20: after reset every offset of the block reads 0, and the internal state of R52 is 0 or IDLE. -/
def Obligations.ResetStateReadsZero : Prop :=
  (∀ offset, idleValue offset State.reset = 0) ∧
  State.reset.ctl = { busy := false, done := false, err := .none, phase := .idle, op := 0, abortErr := .none } ∧
  State.reset.writer = { wacc := 0, wbits := 0 } ∧ State.reset.reader = { racc := 0, rbits := 0 }

/-! ### The invariant and whole-machine rules -/

/-- The invariant holds after reset. -/
def Obligations.ResetMeetsTheInvariant : Prop := Inv State.reset

/-- R26, R43, R44, R45, R46, R87: every step keeps the invariant. -/
def Obligations.StepKeepsTheInvariant : Prop :=
  ∀ s t : State, Inv s → step s = .next t → Inv t

/-- R332: if every port answers every request, the source is not an endless run of zeros, and no reset or other agent
comes in between, every command ends. -/
def Obligations.EveryCommandEnds : Prop :=
  ∀ (i : Instr) (s : State),
    Quiet s ∨ s.host.queue.all harmless = true → PortsAnswer s → SourceNotEndlessZeros s →
    ∃ t : State, exec i s = .next t ∧ t.ctl.busy = false ∧ t.ctl.done = true ∧ t.ctl.phase = .idle

/-- R27, R42: reads, writes and polls that land while a command runs change nothing of what it does. -/
def Obligations.HostAccessesDoNotDisturbACommand : Prop :=
  ∀ (i : Instr) (s t : State), s.host.queue.all harmless = true →
    exec i { s with host.slots := [] } = .next t → ∃ h : HostSide, exec i s = .next { t with host := h }

/-- R40, R41, R86: the counters go up by the bytes accepted and delivered, and nothing else; the record only grows. -/
def Obligations.ByteCountersCountTheStreams : Prop :=
  ∀ (i : Instr) (s t : State), Quiet s → exec i s = .next t →
    ∃ new : List PortEvent, t.ports.log = s.ports.log ++ new ∧
      t.regs.outBytes = s.regs.outBytes + BitVec.ofNat 32 (sinkStream new).length ∧
      t.regs.inBytes = s.regs.inBytes + BitVec.ofNat 32 (fetchedCount new)

/-- R22, R28 to R30, R33 to R37: no command changes CMD, an operand register or a descriptor register. -/
def Obligations.CommandsKeepTheHostsRegisters : Prop :=
  ∀ (i : Instr) (s t : State), Quiet s → exec i s = .next t →
    ∀ r ∈ [Reg.cmd, .arg0, .arg1, .arg2, .pbase, .pwidth, .pheight, .psstride, .prstride],
      regValue r t = regValue r s

/-- R31, R32: RES0 and RES1 are written by four commands only, and only when they complete with ERR = 0. -/
def Obligations.ResultsOnlyFromFourCommandsOnSuccess : Prop :=
  ∀ (i : Instr) (s t : State), Quiet s → s.ctl.busy = true → exec i s = .next t →
    i ∉ [Instr.bsRead, .riceK, .riceDec, .medPred] ∨ t.ctl.busy = true ∨ t.ctl.err ≠ .none →
    t.regs.res0 = s.regs.res0 ∧ t.regs.res1 = s.regs.res1

/-- R139, R73, R49, R38, R39, R46: a command that writes the stream leaves the reader, the source and plane memory alone;
one that reads it leaves the writer and the sink alone; only PLANE_DEC writes a plane cell, and only the plane commands
write POS and the scan state. -/
def Obligations.WriterAndReaderAreSeparate : Prop :=
  ∀ (i : Instr) (s t : State), Quiet s → exec i s = .next t →
    (i ∈ [Instr.bsWrite, .bsFlush, .riceEnc, .planeEnc] →
      t.reader = s.reader ∧ t.ports.source = s.ports.source ∧ t.regs.inBytes = s.regs.inBytes) ∧
    (i ∈ [Instr.bsRead, .bsRalign, .riceDec, .planeDec] →
      t.writer = s.writer ∧ t.ports.sink = s.ports.sink ∧ t.regs.outBytes = s.regs.outBytes) ∧
    (i ≠ .planeDec → t.ports.cells = s.ports.cells) ∧
    (i ∉ [Instr.planeEnc, .planeDec] →
      t.regs.posRow = s.regs.posRow ∧ t.regs.posCol = s.regs.posCol ∧ t.scan = s.scan ∧
      t.ports.plane = s.ports.plane)

/-! ### Commands on registers alone -/

/-- R270: NOP changes nothing but the edges, and STATUS reads WBITS, RBITS and DONE. -/
def Obligations.NopOnlyCompletes : Prop :=
  ∀ s : State, Quiet s → s.writer.wbits ≤ 7 → s.reader.rbits ≤ 7 →
    exec .nop s = .next { s with ctl.busy := false, ctl.done := true, ctl.err := .none, ctl.phase := .idle } ∧
    ∀ t : State, exec .nop s = .next t →
      regValue .status t =
        ((BitVec.ofNat 32 s.writer.wbits <<< 8) ||| (BitVec.ofNat 32 s.reader.rbits <<< 12)) ||| 0x2#32

/-- R143: BS_RALIGN drops the buffered bits and changes nothing else but the edges. -/
def Obligations.BsRalignDropsTheBufferedBits : Prop :=
  ∀ s : State, Quiet s →
    exec .bsRalign s = .next
      { s with
        reader := { racc := 0, rbits := 0 }
        ctl.busy := false
        ctl.done := true
        ctl.err := .none
        ctl.phase := .idle }

/-- R170, R171, R180: RICE_K returns the least k with 3*2^k at or above the activity of the four halves, and changes
nothing else but RES1 and the edges. -/
def Obligations.RiceKReturnsTheLeastParameter : Prop :=
  ∀ s : State, Quiet s →
    ∃ k : Nat,
      (let a : Int := (s.regs.arg0.extractLsb' 0 16).toNat
       let b : Int := (s.regs.arg0.extractLsb' 16 16).toNat
       let c : Int := (s.regs.arg1.extractLsb' 0 16).toNat
       let d : Int := (s.regs.arg1.extractLsb' 16 16).toNat
       |d - b| + |b - c| + |c - a| ≤ 3 * 2 ^ k ∧ ∀ j < k, 3 * 2 ^ j < |d - b| + |b - c| + |c - a|) ∧
      exec .riceK s = .next
        { s with
          regs.res0 := BitVec.ofNat 32 k
          regs.res1 := 0
          ctl.busy := false
          ctl.done := true
          ctl.err := .none
          ctl.phase := .idle }

/-- R210, R212: MED_PRED returns the prediction of three halves and changes nothing else but RES1 and the edges. -/
def Obligations.MedPredReturnsThePrediction : Prop :=
  ∀ s : State, Quiet s →
    let a := (s.regs.arg0.extractLsb' 0 16).toNat
    let b := (s.regs.arg0.extractLsb' 16 16).toNat
    let c := (s.regs.arg1.extractLsb' 0 16).toNat
    exec .medPred s = .next
      { s with
        regs.res0 := BitVec.ofNat 32 (if c ≥ max a b then min a b else if c ≤ min a b then max a b else a + b - c)
        regs.res1 := 0
        ctl.busy := false
        ctl.done := true
        ctl.err := .none
        ctl.phase := .idle }

/-- R211: Med lies between min and max, is one of them in its first two arms, and lies strictly between them in its third,
where it is exactly a + b - c. -/
def Obligations.MedStaysBetweenItsNeighbours : Prop :=
  ∀ a b c : Sample,
    min a.toNat b.toNat ≤ (med a b c).toNat ∧ (med a b c).toNat ≤ max a.toNat b.toNat ∧
    (max a.toNat b.toNat ≤ c.toNat → (med a b c).toNat = min a.toNat b.toNat) ∧
    (c.toNat ≤ min a.toNat b.toNat → (med a b c).toNat = max a.toNat b.toNat) ∧
    (min a.toNat b.toNat < c.toNat → c.toNat < max a.toNat b.toNat →
      (med a b c).toNat + c.toNat = a.toNat + b.toNat ∧
      min a.toNat b.toNat < (med a b c).toNat ∧ (med a b c).toNat < max a.toNat b.toNat)

/-- R171: k is the smallest with 3*2^k at or above the level, whatever the level. -/
def Obligations.RiceParameterIsLeast : Prop :=
  ∀ level : Nat, level ≤ 3 * 2 ^ kOfActivity level ∧ ∀ j < kOfActivity level, 3 * 2 ^ j < level

/-- R178: k is monotone in the activity, and zero for equal samples. -/
def Obligations.RiceParameterIsMonotone : Prop :=
  (∀ a b c d a' b' c' d' : Sample, activity a b c d ≤ activity a' b' c' d' →
    computeK a b c d ≤ computeK a' b' c' d') ∧
  ∀ a : Sample, computeK a a a a = 0

/-- R170, R176: for samples the activity is at most 196605 and k at most 16. -/
def Obligations.RiceParameterIsAtMostSixteen : Prop :=
  ∀ a b c d : Sample, activity a b c d ≤ 196605 ∧ computeK a b c d ≤ 16

/-! ### The fold -/

/-- R172, R173: on [-2^30, 2^30 - 1] the fold is 2x or -2x-1, and the unfold undoes it. -/
def Obligations.FoldIsZigzagOnItsDomain : Prop :=
  ∀ x : Word, InFoldDomain x →
    ((fold x).toNat : Int) = (if 0 ≤ x.toInt then 2 * x.toInt else -2 * x.toInt - 1) ∧ unfold (fold x) = x

/-- R179: outside the domain the fold is still one-to-one and onto, but the unfold is not its inverse. -/
def Obligations.FoldOutsideItsDomain : Prop :=
  Function.Bijective fold ∧
  (∀ x : Word, 2 ^ 30 ≤ x.toInt → fold x = (x <<< 1) ^^^ 1#32) ∧
  (∀ x : Word, x.toInt < -(2 ^ 30) → fold x = (x <<< 1) ^^^ 0xFFFFFFFE#32) ∧
  ∀ x : Word, ¬ InFoldDomain x → unfold (fold x) ≠ x

/-! ### The bit stream -/

/-- R130, R131, R140: with the sink accepting, BS_WRITE appends the low ARG2 bits of ARG1:ARG0 to the bits written so far
and completes; it sends BYTE requests alone, and nothing else changes but the edges, the writer, OUT_BYTES and the sink's
record. -/
def Obligations.BsWriteAppendsItsBits : Prop :=
  ∀ s : State, Quiet s → s.writer.wbits ≤ 7 → SinkAccepts s →
    ∃ (t : State) (sent : List Octet), exec .bsWrite s = .next t ∧
      t.ctl = { s.ctl with busy := false, done := true, err := .none, phase := .idle } ∧
      t.ports.log = s.ports.log ++ (sent.map fun v => { request := .byte v, answer := .ok }) ∧
      writtenBits t = writtenBits s ++ valueBits (s.regs.arg1 ++ s.regs.arg0) s.regs.arg2.toNat ∧
      t.writer.wbits = (s.writer.wbits + s.regs.arg2.toNat) % 8 ∧
      t.regs = { s.regs with
        outBytes := s.regs.outBytes + BitVec.ofNat 32 ((s.writer.wbits + s.regs.arg2.toNat) / 8) } ∧
      t.reader = s.reader ∧ t.scan = s.scan ∧ t.word = s.word ∧ t.host = s.host ∧
      t.ports.cells = s.ports.cells ∧ t.ports.source = s.ports.source ∧ t.ports.plane = s.ports.plane

/-- R130, R140, R181, R281, R285, R289: when the sink refuses a byte of BS_WRITE or RICE_ENC, the command stops there with
IO_ERROR: the bytes before it are sent, that byte is dropped, no bit stays pending, and nothing is sent after it. -/
def Obligations.BsWriteStopsAtARefusedByte : Prop :=
  ∀ (s : State) (i : Instr) (bits : List Bool) (j : Nat) (more : List SinkChoice), Quiet s → s.writer.wbits ≤ 7 →
    s.ports.sink.script = List.replicate j .ok ++ .error :: more →
    (i = .bsWrite ∧ bits = valueBits (s.regs.arg1 ++ s.regs.arg0) s.regs.arg2.toNat) ∨
      (i = .riceEnc ∧ s.regs.arg2.toNat ≤ 31 ∧ bits = codeword s.regs.arg2.toNat s.regs.arg0) →
    8 * (j + 1) ≤ s.writer.wbits + bits.length →
    ∃ (t : State) (sent : List Octet) (lost : Octet), exec i s = .next t ∧
      t.ctl = { s.ctl with busy := false, done := true, err := .ioError, phase := .idle } ∧
      sent.length = j ∧
      octetsBits (sent ++ [lost]) = (pendingBits s.writer ++ bits).take (8 * (j + 1)) ∧
      t.ports.log = s.ports.log ++ (sent.map fun v => { request := .byte v, answer := .ok }) ++
        [{ request := .byte lost, answer := .error }] ∧
      t.writer = { wacc := 0, wbits := 0 } ∧
      t.regs = { s.regs with outBytes := s.regs.outBytes + BitVec.ofNat 32 j } ∧
      t.reader = s.reader ∧ t.scan = s.scan ∧ t.word = { s.word with prefixLen := t.word.prefixLen } ∧
      (i = .bsWrite → t.word = s.word) ∧ t.host = s.host ∧
      t.ports.cells = s.ports.cells ∧ t.ports.source = s.ports.source ∧ t.ports.plane = s.ports.plane

/-- R132, R141: with the sink accepting, BS_FLUSH sends the pending bits padded with zeros, if there are any, and then
FLUSH in every case; WBITS = 0; nothing else changes but the edges, OUT_BYTES and the sink's record. -/
def Obligations.BsFlushPadsAndFlushes : Prop :=
  ∀ s : State, Quiet s → s.writer.wbits ≤ 7 → SinkAccepts s →
    ∃ (t : State) (pad : List Octet), exec .bsFlush s = .next t ∧
      t.ctl = { s.ctl with busy := false, done := true, err := .none, phase := .idle } ∧
      octetsBits pad = padded (pendingBits s.writer) ∧
      t.ports.log = s.ports.log ++ (pad.map fun v => { request := .byte v, answer := .ok }) ++
        [{ request := .flush, answer := .ok }] ∧
      t.writer.wbits = 0 ∧
      t.regs = { s.regs with outBytes := s.regs.outBytes + BitVec.ofNat 32 pad.length } ∧
      t.reader = s.reader ∧ t.scan = s.scan ∧ t.word = s.word ∧ t.host = s.host ∧
      t.ports.cells = s.ports.cells ∧ t.ports.source = s.ports.source ∧ t.ports.plane = s.ports.plane

/-- R132, R141, R285: BS_FLUSH ends with IO_ERROR when its pad byte is refused, and then FLUSH is not sent; when the pad byte is
accepted and FLUSH refused, and then OUT_BYTES has counted the pad byte; and when FLUSH is refused with no bit pending.
WBITS = 0 in all three. -/
def Obligations.BsFlushReportsSinkErrors : Prop :=
  (∀ (s : State) (more : List SinkChoice), Quiet s → 0 < s.writer.wbits → s.writer.wbits ≤ 7 →
    ∃ v : Octet, octetsBits [v] = padded (pendingBits s.writer) ∧
      (s.ports.sink.script = .error :: more →
        ∃ t : State, exec .bsFlush s = .next t ∧ t.ctl.err = .ioError ∧ t.writer.wbits = 0 ∧
          t.ports.log = s.ports.log ++ [{ request := .byte v, answer := .error }] ∧ t.regs = s.regs) ∧
      (s.ports.sink.script = .ok :: .error :: more →
        ∃ t : State, exec .bsFlush s = .next t ∧ t.ctl.err = .ioError ∧ t.writer.wbits = 0 ∧
          t.ports.log = s.ports.log ++
            [{ request := .byte v, answer := .ok }, { request := .flush, answer := .error }] ∧
          t.regs = { s.regs with outBytes := s.regs.outBytes + 1 })) ∧
  (∀ (s : State) (more : List SinkChoice), Quiet s → s.writer.wbits = 0 →
    s.ports.sink.script = .error :: more →
    ∃ t : State, exec .bsFlush s = .next t ∧ t.ctl.err = .ioError ∧ t.writer.wbits = 0 ∧
      t.ports.log = s.ports.log ++ [{ request := .flush, answer := .error }] ∧ t.regs = s.regs)

/-- R134, R135, R142: BS_READ of up to 64 readable bits returns them as a number in RES1:RES0, takes exactly them from the
stream, and fetches no byte more than they need; nothing else changes but the edges, RACC, RBITS, IN_BYTES and the
source's record. -/
def Obligations.BsReadTakesItsBits : Prop :=
  ∀ s : State, Quiet s → s.reader.rbits ≤ 7 → s.regs.arg2.toNat ≤ 64 →
    s.regs.arg2.toNat ≤ (readableBits s).length →
    ∃ t : State, exec .bsRead s = .next t ∧
      t.ctl = { s.ctl with busy := false, done := true, err := .none, phase := .idle } ∧
      (t.regs.res1 ++ t.regs.res0).toNat = bitsNat ((readableBits s).take s.regs.arg2.toNat) ∧
      readableBits t = (readableBits s).drop s.regs.arg2.toNat ∧
      t.reader.rbits ≤ 7 ∧
      t.regs = { s.regs with
        res0 := t.regs.res0
        res1 := t.regs.res1
        inBytes := s.regs.inBytes + BitVec.ofNat 32 ((s.regs.arg2.toNat - s.reader.rbits + 7) / 8) } ∧
      t.writer = s.writer ∧ t.scan = s.scan ∧ t.word = s.word ∧ t.host = s.host ∧
      t.ports.cells = s.ports.cells ∧ t.ports.sink = s.ports.sink ∧ t.ports.plane = s.ports.plane

/-- R134, R142, R285, R286: BS_READ of more bits than the source gives ends with EOS or IO_ERROR as the source answers;
the bits taken are lost, RBITS = 0, and the results are unchanged. -/
def Obligations.BsReadFailsAtTheEndOfTheSource : Prop :=
  ∀ (s : State) (bytes : List Octet) (last : SourceChoice) (more : List SourceChoice), Quiet s → s.reader.rbits ≤ 7 →
    last = .eos ∨ last = .error →
    s.ports.source.script = bytes.map .data ++ last :: more →
    s.regs.arg2.toNat ≤ 64 → s.reader.rbits + 8 * bytes.length < s.regs.arg2.toNat →
    ∃ t : State, exec .bsRead s = .next t ∧
      t.ctl = { s.ctl with busy := false, done := true, err := if last = .eos then .eos else .ioError, phase := .idle } ∧
      t.reader.rbits = 0 ∧
      t.regs = { s.regs with inBytes := s.regs.inBytes + BitVec.ofNat 32 bytes.length } ∧
      t.ports.source.script = more ∧
      t.writer = s.writer ∧ t.scan = s.scan ∧ t.word = s.word ∧ t.host = s.host ∧
      t.ports.cells = s.ports.cells ∧ t.ports.sink = s.ports.sink ∧ t.ports.plane = s.ports.plane

/-- R112, R142, R181, R182, R283: a length above 64 or a k above 31 is ILLEGAL_ARG, and nothing but the edges changes. -/
def Obligations.IllegalArgumentChangesNothing : Prop :=
  ∀ (i : Instr) (s : State), Quiet s →
    (i = .bsRead ∧ 64 < s.regs.arg2.toNat) ∨ ((i = .riceEnc ∨ i = .riceDec) ∧ 31 < s.regs.arg2.toNat) →
    exec i s = .next { s with ctl.busy := false, ctl.done := true, ctl.err := .illegalArg, ctl.phase := .idle }

/-- R138: "WriteBits(value, n) appends the same bits as WriteBits(value >> m, n - m) followed by WriteBits(value mod 2^m, m)",
with every other effect the same. -/
def Obligations.WriteBitsSplits : Prop :=
  ∀ (value : DoubleWord) (n m : Nat) (s : State), m ≤ n → m ≤ 64 →
    writeBits value n s =
      (writeBits (value >>> m) (n - m) s).bind fun _ t =>
        writeBits (BitVec.ofNat 64 (value.toNat % 2 ^ m)) m t

/-- R131, R137: WriteBits(v, n) appends n bits with the sink accepting; at the matching stream position they read back as
v mod 2^n; above 64 bits, the first n - 64 are zeros. -/
def Obligations.WrittenBitsReadBack : Prop :=
  (∀ (s : State) (v : DoubleWord) (n : Nat), Quiet s → s.writer.wbits ≤ 7 → SinkAccepts s →
    ∃ t : State, writeBits v n s = .ok () t ∧ writtenBits t = writtenBits s ++ valueBits v n) ∧
  (∀ (s : State) (v : DoubleWord) (n : Nat) (rest : List Bool), Quiet s → s.reader.rbits ≤ 7 → n ≤ 64 →
    readableBits s = valueBits v n ++ rest →
    ∃ t : State, readBits n 0 s = .ok (BitVec.ofNat 64 (v.toNat % 2 ^ n)) t ∧ readableBits t = rest) ∧
  ∀ (v : DoubleWord) (n : Nat), 64 ≤ n → valueBits v n = List.replicate (n - 64) false ++ valueBits v 64

/-! ### Rice codewords -/

/-- R174, R181: with the sink accepting and k up to 31, RICE_ENC appends exactly the codeword: q zeros, a one, k bits of
r; it sends BYTE requests alone, and nothing else changes but the edges, the writer, the prefix counter, OUT_BYTES and the
sink's record. -/
def Obligations.RiceEncAppendsItsCodeword : Prop :=
  ∀ s : State, Quiet s → s.writer.wbits ≤ 7 → SinkAccepts s → s.regs.arg2.toNat ≤ 31 →
    ∃ (t : State) (sent : List Octet), exec .riceEnc s = .next t ∧
      t.ctl = { s.ctl with busy := false, done := true, err := .none, phase := .idle } ∧
      t.ports.log = s.ports.log ++ (sent.map fun v => { request := .byte v, answer := .ok }) ∧
      writtenBits t = writtenBits s ++ codeword s.regs.arg2.toNat s.regs.arg0 ∧
      (codeword s.regs.arg2.toNat s.regs.arg0).length =
        (fold s.regs.arg0).toNat / 2 ^ s.regs.arg2.toNat + 1 + s.regs.arg2.toNat ∧
      t.regs = { s.regs with outBytes := t.regs.outBytes } ∧
      t.reader = s.reader ∧ t.scan = s.scan ∧ t.word = { s.word with prefixLen := t.word.prefixLen } ∧
      t.host = s.host ∧
      t.ports.cells = s.ports.cells ∧ t.ports.source = s.ports.source ∧ t.ports.plane = s.ports.plane

/-- R175, R182: with k up to 31 and a one bit in reach, RICE_DEC counts the zeros before it, takes k more bits, and returns
the unfolded ((q << k) OR r) mod 2^32; it takes exactly the codeword; nothing else changes but the edges, RACC, RBITS, Q,
IN_BYTES and the source's record. -/
def Obligations.RiceDecReadsOneCodeword : Prop :=
  ∀ (s : State) (q : Nat) (r rest : List Bool), Quiet s → s.reader.rbits ≤ 7 → s.regs.arg2.toNat ≤ 31 →
    readableBits s = List.replicate q false ++ true :: (r ++ rest) → r.length = s.regs.arg2.toNat →
    ∃ t : State, exec .riceDec s = .next t ∧
      t.ctl = { s.ctl with busy := false, done := true, err := .none, phase := .idle } ∧
      t.regs = { s.regs with
        res0 := unfold (BitVec.ofNat 32 (q * 2 ^ s.regs.arg2.toNat + bitsNat r))
        res1 := 0
        inBytes := s.regs.inBytes + BitVec.ofNat 32 ((q + 1 + s.regs.arg2.toNat - s.reader.rbits + 7) / 8) } ∧
      readableBits t = rest ∧
      t.writer = s.writer ∧ t.scan = s.scan ∧ t.word = { s.word with q := t.word.q } ∧ t.host = s.host ∧
      t.ports.cells = s.ports.cells ∧ t.ports.sink = s.ports.sink ∧ t.ports.plane = s.ports.plane

/-- R175, R182, R285, R286: when the source ends at any bit of a codeword, in its zeros, at its one, or in its k bits, RICE_DEC
ends with EOS or IO_ERROR as the source answers; RBITS = 0 and the results are unchanged. -/
def Obligations.RiceDecFailsAtTheEndOfTheSource : Prop :=
  ∀ (s : State) (bytes : List Octet) (last : SourceChoice) (more : List SourceChoice), Quiet s → s.reader.rbits ≤ 7 →
    last = .eos ∨ last = .error →
    s.ports.source.script = bytes.map .data ++ last :: more →
    s.regs.arg2.toNat ≤ 31 →
    ((readableBits s).all (fun b => !b) = true ∨
      ∃ (q : Nat) (r : List Bool), readableBits s = List.replicate q false ++ true :: r ∧ r.length < s.regs.arg2.toNat) →
    ∃ t : State, exec .riceDec s = .next t ∧
      t.ctl = { s.ctl with busy := false, done := true, err := if last = .eos then .eos else .ioError, phase := .idle } ∧
      t.reader.rbits = 0 ∧
      t.regs = { s.regs with inBytes := s.regs.inBytes + BitVec.ofNat 32 bytes.length } ∧
      t.ports.source.script = more ∧
      t.writer = s.writer ∧ t.scan = s.scan ∧ t.host = s.host ∧ t.ports.cells = s.ports.cells

/-- R177: for k up to 31 and a residual in the fold's domain, RiceEncode appends a codeword, and RiceDecode reads the
residual back from it. -/
def Obligations.CodewordRoundTrip : Prop :=
  ∀ (k : Nat) (x : Word), k ≤ 31 → InFoldDomain x →
    (∀ s : State, Quiet s → s.writer.wbits ≤ 7 → SinkAccepts s →
      ∃ t : State, riceEncode k x s = .ok () t ∧ writtenBits t = writtenBits s ++ codeword k x) ∧
    ∀ (s : State) (rest : List Bool), Quiet s → s.reader.rbits ≤ 7 → readableBits s = codeword k x ++ rest →
      ∃ t : State, riceDecode k s = .ok x t ∧ readableBits t = rest ∧ t.reader.rbits ≤ 7

/-! ### The ports' duties -/

/-- R70, R93: a port that does not answer leaves the block waiting with its request outstanding, and, with nothing from
outside, it waits for ever: a BYTE or FLUSH on the sink, a FETCH on the source, a READ or WRITE on plane memory, whatever the
operation is part of; and so the command: BS_FLUSH, by its FLUSH. -/
def Obligations.SilentPortLeavesTheBlockWaiting : Prop :=
  (∀ s : State, Quiet s → s.ctl.busy = true → s.host.queue = [] →
    (∀ (v : Octet) (req : Request), s.ports.sink.next = .silent → req = .byte v ∨ req = .flush →
      ∃ t : State, sinkRequest req s = .ended (.next t) ∧ t.ctl = s.ctl ∧ t.ports.pending = some req ∧
        t.ports.log = s.ports.log ∧ step t = .next t) ∧
    (s.ports.source.next = .silent →
      ∃ t : State, sourceFetch s = .ended (.next t) ∧ t.ctl = s.ctl ∧ t.ports.pending = some .fetch ∧
        t.ports.log = s.ports.log ∧ step t = .next t) ∧
    (∀ (a : Word) (cell : Option Sample), s.ports.plane.next = .silent cell →
      ∃ t : State, memRead a s = .ended (.next t) ∧ t.ctl = s.ctl ∧ t.ports.pending = some (.planeRead a) ∧
        t.ports.log = s.ports.log ∧ t.ports.cells = s.ports.cells ∧ step t = .next t) ∧
    (∀ (a : Word) (v : Sample) (cell : Option Sample), s.ports.plane.next = .silent cell →
      ∃ t : State, memWrite a v s = .ended (.next t) ∧ t.ctl = s.ctl ∧ t.ports.pending = some (.planeWrite a v) ∧
        t.ports.log = s.ports.log ∧ t.ports.cells = Memory.writeOpt a.toNat cell s.ports.cells ∧ step t = .next t)) ∧
  (∀ (s : State) (more : List SinkChoice), Quiet s → s.ctl.busy = true → s.host.queue = [] → s.writer.wbits = 0 →
    s.ports.sink.script = .silent :: more →
    ∃ t : State, exec .bsFlush s = .next t ∧ t.ctl = s.ctl ∧ t.ports.pending = some .flush ∧
      t.ports.log = s.ports.log ∧ step t = .next t)

/-- R331, R332, log 7: on a source that answers DATA(0x00) for ever, RICE_DEC does not end. -/
def Obligations.EndlessZerosHangRiceDec : Prop :=
  ∀ s : State, Quiet s → s.ctl.busy = true → s.host.queue = [] → s.reader.rbits ≤ 7 → s.regs.arg2.toNat ≤ 31 →
    valueBits s.reader.racc s.reader.rbits = List.replicate s.reader.rbits false →
    s.ports.source = { script := [], tail := .data 0 } →
    ∃ t : State, exec .riceDec s = .next t ∧ t.ctl = s.ctl ∧ step t = .next t

/-- R72, R73, R86: with plane memory serving, a MemRead after a MemWrite of the same cell returns the written value, and a
MemRead of another cell what it held before. Whatever plane memory's script says, an OK MemWrite makes its cell hold the
written value, and every DATA answer to a MemRead of a cell that holds what the block wrote last is that value, as long as
the run is no race. -/
def Obligations.MemReadAfterMemWrite : Prop :=
  (∀ (s : State) (a b : Word) (v : Sample), Quiet s → PlaneServes s → Memory.wf s.ports.cells = true →
    ∃ (t u : State) (x : Sample), memWrite a v s = .ok () t ∧ memRead b t = .ok x u ∧
      x = (if b = a then v else Memory.read b.toNat s.ports.cells) ∧
      Memory.wf u.ports.cells = true ∧
      u.ports.log = s.ports.log ++
        [{ request := .planeWrite a v, answer := .ok }, { request := .planeRead b, answer := .sample x }]) ∧
  (∀ (s t : State) (a : Word) (v : Sample), Quiet s → memWrite a v s = .ok () t →
    a.toNat ∈ t.ports.held ∧ Memory.read a.toNat t.ports.cells = v ∧
    ∀ b : Word, b ≠ a →
      (b.toNat ∈ t.ports.held ↔ b.toNat ∈ s.ports.held) ∧
      Memory.read b.toNat t.ports.cells = Memory.read b.toNat s.ports.cells) ∧
  (∀ (s u : State) (a : Word) (x : Sample), Quiet s → s.ports.raced = false → a.toNat ∈ s.ports.held →
    memRead a s = .ok x u →
    x = Memory.read a.toNat s.ports.cells ∧ u.ports.cells = s.ports.cells ∧ u.ports.held = s.ports.held)

/-! ### The plane codec -/

/-- R233, R284: PLANE_ENC with pending bits and PLANE_DEC with buffered bits end with STATE and change nothing else but the
edges. -/
def Obligations.PlaneCommandsStartOnAByteBoundary : Prop :=
  ∀ s : State, Quiet s →
    (s.writer.wbits ≠ 0 → exec .planeEnc s = .next
      { s with ctl.busy := false, ctl.done := true, ctl.err := .state, ctl.phase := .idle }) ∧
    (s.reader.rbits ≠ 0 → exec .planeDec s = .next
      { s with ctl.busy := false, ctl.done := true, ctl.err := .state, ctl.phase := .idle })

/-- R222: a plane with no pixels sends no plane transaction and no codeword: PLANE_ENC sends FLUSH alone, PLANE_DEC fetches
nothing, and both end at (H, 0). PLANE_ENC's error, if FLUSH is refused, is R231's. -/
def Obligations.EmptyPlaneSendsOnlyFlush : Prop :=
  ∀ s : State, Quiet s → s.regs.pwidth = 0 ∨ s.regs.pheight = 0 →
    (s.writer.wbits = 0 → ∀ accepted : Bool, s.ports.sink.next = (if accepted then .ok else .error) →
      ∃ t : State, exec .planeEnc s = .next t ∧
        t.ctl = { s.ctl with busy := false, done := true, err := if accepted then .none else .ioError, phase := .idle } ∧
        t.regs = { s.regs with posRow := s.regs.pheight, posCol := 0 } ∧
        t.ports.log = s.ports.log ++ [{ request := .flush, answer := if accepted then .ok else .error }] ∧
        t.ports.cells = s.ports.cells ∧ t.ports.source = s.ports.source ∧ t.writer.wbits = 0 ∧ t.reader = s.reader ∧
        t.host = s.host) ∧
    (s.reader.rbits = 0 →
      ∃ t : State, exec .planeDec s = .next t ∧
        t.ctl = { s.ctl with busy := false, done := true, err := .none, phase := .idle } ∧
        t.regs = { s.regs with posRow := s.regs.pheight, posCol := 0 } ∧
        t.ports = s.ports ∧ t.writer = s.writer ∧ t.reader.rbits = 0 ∧ t.host = s.host)

/-- R72, R73, R220, R225, R227, R228, R287: MEM_ERROR in a pixel step. An address that does not fit in 32 bits, the pixel's or
the above-right sample's, is MEM_ERROR at that position with no plane transaction; a READ or WRITE that plane memory refuses
is MEM_ERROR at that position, and its last transaction. The decode step has taken its codeword when its own address or its
WRITE fails, and after a refused WRITE the cell holds what plane memory's script says. -/
def Obligations.OverflowingAddressSendsNothing : Prop :=
  (∀ s : State, Quiet s → s.scan.row = 0 ∨ s.scan.col.toNat + 1 ≥ s.regs.pwidth.toNat →
    let n := addrNat s.scan.row.toNat s.scan.col.toNat s
    (2 ^ 32 ≤ n →
      ∃ t : State, encodePixel s = .raised .memError t ∧ t.ports = s.ports ∧ t.writer = s.writer ∧
        t.regs = { s.regs with posRow := s.scan.row, posCol := s.scan.col }) ∧
    (∀ cell : Option Sample, n < 2 ^ 32 → s.ports.plane.next = .refuse cell →
      ∃ t : State, encodePixel s = .raised .memError t ∧
        t.ports.log = s.ports.log ++ [{ request := .planeRead (BitVec.ofNat 32 n), answer := .error }] ∧
        t.ports.cells = s.ports.cells ∧ t.writer = s.writer ∧
        t.regs = { s.regs with posRow := s.scan.row, posCol := s.scan.col }) ∧
    (∀ (x : Word) (rest : List Bool), s.reader.rbits ≤ 7 → InFoldDomain x →
      readableBits s = codeword (computeK s.scan.a s.scan.b s.scan.c 0) x ++ rest →
      (2 ^ 32 ≤ n →
        ∃ t : State, decodePixel s = .raised .memError t ∧ readableBits t = rest ∧
          t.ports.plane = s.ports.plane ∧ t.ports.cells = s.ports.cells ∧
          (t.ports.log.filter fun e => onPlane e.request) = s.ports.log.filter (fun e => onPlane e.request) ∧
          t.regs = { s.regs with posRow := s.scan.row, posCol := s.scan.col, inBytes := t.regs.inBytes }) ∧
      (∀ cell : Option Sample, n < 2 ^ 32 → s.ports.plane.next = .refuse cell →
        ∃ (t : State) (fetches : List PortEvent), decodePixel s = .raised .memError t ∧ readableBits t = rest ∧
          t.ports.log = s.ports.log ++ fetches ++
            [{ request := .planeWrite (BitVec.ofNat 32 n) (reconstruct (med s.scan.a s.scan.b s.scan.c) x),
               answer := .error }] ∧
          (∀ e ∈ fetches, e.request = .fetch) ∧
          t.ports.cells = Memory.writeOpt n cell s.ports.cells ∧
          t.regs = { s.regs with posRow := s.scan.row, posCol := s.scan.col, inBytes := t.regs.inBytes }))) ∧
  (∀ (s : State) (pixel : State → Res Unit), Quiet s → pixel = encodePixel ∨ pixel = decodePixel →
    s.scan.row ≠ 0 → s.scan.col.toNat + 1 < s.regs.pwidth.toNat →
    let n := addrNat (s.scan.row.toNat - 1) (s.scan.col.toNat + 1) s
    (2 ^ 32 ≤ n →
      ∃ t : State, pixel s = .raised .memError t ∧ t.ports = s.ports ∧ t.writer = s.writer ∧ t.reader = s.reader ∧
        t.regs = { s.regs with posRow := s.scan.row, posCol := s.scan.col }) ∧
    (∀ cell : Option Sample, n < 2 ^ 32 → s.ports.plane.next = .refuse cell →
      ∃ t : State, pixel s = .raised .memError t ∧
        t.ports.log = s.ports.log ++ [{ request := .planeRead (BitVec.ofNat 32 n), answer := .error }] ∧
        t.ports.cells = s.ports.cells ∧ t.writer = s.writer ∧ t.reader = s.reader ∧
        t.regs = { s.regs with posRow := s.scan.row, posCol := s.scan.col }))

/-- R223 to R227, R231, R240, R245: with the sink accepting and plane memory serving, PLANE_ENC sends exactly the codewords
of the plane's pixels in raster order, each with the context of R245, padded once with zeros, and then FLUSH; it leaves
(H, 0) and an empty writer, and no plane cell changes. -/
def Obligations.PlaneEncSendsThePlanesCodewords : Prop :=
  ∀ s : State, Quiet s → s.writer.wbits = 0 → SinkAccepts s → PlaneServes s → AddressesFit s →
    ∃ (t : State) (new : List PortEvent), exec .planeEnc s = .next t ∧
      t.ctl = { s.ctl with busy := false, done := true, err := .none, phase := .idle } ∧
      t.ports.log = s.ports.log ++ new ++ [{ request := .flush, answer := .ok }] ∧
      octetsBits (sinkStream new) = padded (planeBits (planeSample s) s.regs.pwidth.toNat s.regs.pheight.toNat) ∧
      t.writer.wbits = 0 ∧
      t.regs = { s.regs with
        posRow := s.regs.pheight
        posCol := 0
        outBytes := s.regs.outBytes + BitVec.ofNat 32 (sinkStream new).length } ∧
      t.ports.cells = s.ports.cells ∧ t.ports.source = s.ports.source ∧ t.reader = s.reader ∧ t.host = s.host

/-- R248: with every answer OK, PLANE_ENC sends ceil(N/8) bytes, N the sum of the lengths q + 1 + K of its W*H codewords,
and then one FLUSH. -/
def Obligations.PlaneEncLengthLaw : Prop :=
  ∀ s : State, Quiet s → s.writer.wbits = 0 → SinkAccepts s → PlaneServes s → AddressesFit s →
    ∃ (t : State) (new : List PortEvent), exec .planeEnc s = .next t ∧ t.ctl.err = .none ∧
      t.ports.log = s.ports.log ++ new ++ [{ request := .flush, answer := .ok }] ∧
      new.countP (fun e => e.request == .flush) = 0 ∧
      (sinkStream new).length =
        (((List.range s.regs.pheight.toNat).map fun row => ((List.range s.regs.pwidth.toNat).map fun col =>
          let k := pixelK (planeSample s) s.regs.pwidth.toNat row col
          (quotient k (residual (planeSample s row col) (pixelPrediction (planeSample s) row col))).toNat + 1 + k).sum).sum
          + 7) / 8

/-- R223 to R229, R232, R241, R245: with plane memory serving and distinct addresses that fit, PLANE_DEC of a stream that
starts with the codewords of a plane writes that plane: every pixel's cell holds its sample, no other cell changes, it
fetches only the bytes the codewords need, and it leaves (H, 0) and an empty reader. -/
def Obligations.PlaneDecWritesThePlane : Prop :=
  ∀ (s : State) (f : Nat → Nat → Sample) (rest : List Bool),
    Quiet s → s.reader.rbits = 0 → PlaneServes s → AddressesFit s → AddressesDistinct s →
    readableBits s = planeBits f s.regs.pwidth.toNat s.regs.pheight.toNat ++ rest →
    ∃ t : State, exec .planeDec s = .next t ∧
      t.ctl = { s.ctl with busy := false, done := true, err := .none, phase := .idle } ∧
      (∀ row col, InPlane s row col → Memory.lookup (addrNat row col s) t.ports.cells = some (f row col)) ∧
      (∀ a, (∀ row col, InPlane s row col → addrNat row col s ≠ a) →
        Memory.lookup a t.ports.cells = Memory.lookup a s.ports.cells) ∧
      t.reader = { racc := 0, rbits := 0 } ∧
      t.regs = { s.regs with
        posRow := s.regs.pheight
        posCol := 0
        inBytes := s.regs.inBytes +
          BitVec.ofNat 32 (((planeBits f s.regs.pwidth.toNat s.regs.pheight.toNat).length + 7) / 8) } ∧
      t.writer = s.writer ∧ t.ports.sink = s.ports.sink ∧ t.host = s.host

/-- R230, R232, R241, R286: when the source ends inside the codeword at (row, col), with the codewords before it whole and
plane memory serving, PLANE_DEC ends with EOS or IO_ERROR as the source answers, at POS = (row, col): the pixels before it
are written, no other cell changes, and the reader is empty. -/
def Obligations.PlaneDecStopsAtATruncatedCodeword : Prop :=
  ∀ (s : State) (f : Nat → Nat → Sample) (row col : Nat) (bytes : List Octet) (cut gone : List Bool)
    (last : SourceChoice) (more : List SourceChoice),
    Quiet s → s.reader.rbits = 0 → PlaneServes s → AddressesFit s → AddressesDistinct s → InPlane s row col →
    last = .eos ∨ last = .error → s.ports.source.script = bytes.map .data ++ last :: more →
    octetsBits bytes = planeBits f s.regs.pwidth.toNat row ++
      ((List.range col).flatMap fun j => pixelCodeword f s.regs.pwidth.toNat row j) ++ cut →
    pixelCodeword f s.regs.pwidth.toNat row col = cut ++ gone → gone ≠ [] →
    ∃ t : State, exec .planeDec s = .next t ∧
      t.ctl = { s.ctl with busy := false, done := true, err := if last = .eos then .eos else .ioError, phase := .idle } ∧
      t.regs = { s.regs with
        posRow := BitVec.ofNat 32 row
        posCol := BitVec.ofNat 32 col
        inBytes := s.regs.inBytes + BitVec.ofNat 32 bytes.length } ∧
      (∀ i j, InPlane s i j →
        Memory.lookup (addrNat i j s) t.ports.cells =
          if i < row ∨ i = row ∧ j < col then some (f i j) else Memory.lookup (addrNat i j s) s.ports.cells) ∧
      (∀ a, (∀ i j, InPlane s i j → addrNat i j s ≠ a) →
        Memory.lookup a t.ports.cells = Memory.lookup a s.ports.cells) ∧
      t.reader = { racc := 0, rbits := 0 } ∧ t.ports.source.script = more ∧
      t.writer = s.writer ∧ t.ports.sink = s.ports.sink ∧ t.host = s.host

/-- R247: PLANE_DEC of the bytes PLANE_ENC sent, with the same width, height and strides, distinct fitting addresses in
each run, and every port answering OK or DATA, writes at each pixel the sample PLANE_ENC read there, and fetches as many
bytes as were sent. The two bases may differ. -/
def Obligations.PlaneRoundTrip : Prop :=
  ∀ (s u : State) (more : List SourceChoice),
    Quiet s → s.writer.wbits = 0 → SinkAccepts s → PlaneServes s → AddressesFit s → AddressesDistinct s →
    Quiet u → u.reader.rbits = 0 → PlaneServes u → AddressesFit u → AddressesDistinct u →
    1 ≤ s.regs.pwidth.toNat → 1 ≤ s.regs.pheight.toNat →
    u.regs.pwidth = s.regs.pwidth → u.regs.pheight = s.regs.pheight →
    u.regs.psstride = s.regs.psstride → u.regs.prstride = s.regs.prstride →
    ∃ (t : State) (new : List PortEvent), exec .planeEnc s = .next t ∧ t.ctl.err = .none ∧
      t.ports.log = s.ports.log ++ new ∧
      (u.ports.source.script = (sinkStream new).map .data ++ more →
        ∃ v : State, exec .planeDec u = .next v ∧ v.ctl.err = .none ∧
          (∀ row col, InPlane s row col → planeSample v row col = planeSample s row col) ∧
          v.regs.inBytes = u.regs.inBytes + BitVec.ofNat 32 (sinkStream new).length ∧
          v.ports.source.script = more)

/-- R230, R231, R288, R289: PLANE_ENC started on a byte boundary ends on one, whatever the ports answer. When its scan stops at
a failing transaction or an overflowing address, the first error is the one reported, POS is the failing pixel, and the exit
flush sends the pad byte, if bits are pending, and then FLUSH, whatever the answers; when its scan ends, POS is (H, 0) and
the one error left is a refusal in the exit flush. -/
def Obligations.PlaneEncEndsOnAByteBoundary : Prop :=
  ∀ s : State, Quiet s → s.writer.wbits = 0 → PortsAnswer s →
    ∃ t : State, exec .planeEnc s = .next t ∧ t.ctl.busy = false ∧ t.ctl.done = true ∧ t.writer.wbits = 0 ∧
      t.ports.cells = s.ports.cells ∧ t.reader = s.reader ∧
      (t.ctl.err = .memError →
        ∃ (l : List PortEvent) (a : Answer), t.ports.log = l ++ [{ request := .flush, answer := a }]) ∧
      (∀ (e : ErrCode) (u : State), scanPlane encodePixel s = .raised e u →
        t.ctl.err = e ∧ InPlane s u.scan.row.toNat u.scan.col.toNat ∧
        t.regs = { s.regs with posRow := u.scan.row, posCol := u.scan.col, outBytes := t.regs.outBytes } ∧
        (∃ before last : List PortEvent, u.ports.log = s.ports.log ++ before ++ last ∧
          (∀ ev ∈ before, ev.answer ≠ .error) ∧
          ((e = .ioError ∧ ∃ v : Octet, last = [{ request := .byte v, answer := .error }]) ∨
            (e = .memError ∧ (last = [] ∨ ∃ a : Word, last = [{ request := .planeRead a, answer := .error }])))) ∧
        ∃ (pad : List PortEvent) (a : Answer),
          t.ports.log = u.ports.log ++ pad ++ [{ request := .flush, answer := a }] ∧
          (u.writer.wbits = 0 → pad = []) ∧
          (0 < u.writer.wbits → ∃ b : Answer, pad = [{ request := .byte (padByte u.writer), answer := b }])) ∧
      (∀ u : State, scanPlane encodePixel s = .ok () u →
        t.regs = { s.regs with posRow := s.regs.pheight, posCol := 0, outBytes := t.regs.outBytes } ∧
        (t.ctl.err = .none ∨ t.ctl.err = .ioError))

/-- R232, R289: PLANE_DEC started with an empty reader ends with one, whatever the ports answer, and leaves every cell
outside its view alone. -/
def Obligations.PlaneDecEndsWithAnEmptyReader : Prop :=
  ∀ s : State, Quiet s → s.reader.rbits = 0 → PortsAnswer s → SourceNotEndlessZeros s →
    ∃ t : State, exec .planeDec s = .next t ∧ t.ctl.busy = false ∧ t.ctl.done = true ∧
      t.reader = { racc := 0, rbits := 0 } ∧ t.writer = s.writer ∧
      ∀ a, (∀ row col, InPlane s row col → addrNat row col s ≠ a) →
        Memory.lookup a t.ports.cells = Memory.lookup a s.ports.cells
end

