-- ==== Sys2Proof/Laws/Memory.lean ====
section
/-! SUPPORT. Plane memory: a write is read back, leaves every other cell alone, and keeps the canonical form; equal
memories are equal lists. -/

namespace Sys2Proof.Machine

theorem Memory.lookup_write_same (a : Nat) (v : Sample) (m : Memory) : Memory.lookup a (Memory.write a v m) = some v := by
  induction m with
  | nil => simp [Memory.write, Memory.lookup]
  | cons e m ih =>
    obtain ⟨b, w⟩ := e
    unfold Memory.write
    split
    · simp [Memory.lookup]
    · split
      · next h => simp [Memory.lookup, h]
      · next h => simp [Memory.lookup, Ne.symm h, ih]

theorem Memory.lookup_write_other {a b : Nat} (h : b ≠ a) (v : Sample) (m : Memory) :
    Memory.lookup b (Memory.write a v m) = Memory.lookup b m := by
  induction m with
  | nil => simp [Memory.write, Memory.lookup, Ne.symm h]
  | cons e m ih =>
    obtain ⟨c, w⟩ := e
    unfold Memory.write
    split
    · simp [Memory.lookup, Ne.symm h]
    · split
      · next hc => subst hc; simp [Memory.lookup, Ne.symm h]
      · simp [Memory.lookup, ih]

theorem Memory.read_write_same (a : Nat) (v : Sample) (m : Memory) : Memory.read a (Memory.write a v m) = v := by
  simp [Memory.read, Memory.lookup_write_same]

theorem Memory.read_write_other {a b : Nat} (h : b ≠ a) (v : Sample) (m : Memory) :
    Memory.read b (Memory.write a v m) = Memory.read b m := by
  simp [Memory.read, Memory.lookup_write_other h]

theorem Memory.read_of_lookup {a : Nat} {v : Sample} {m : Memory} (h : Memory.lookup a m = some v) :
    Memory.read a m = v := by
  simp [Memory.read, h]

theorem Memory.risesAbove_write {n a : Nat} {v : Sample} {m : Memory} (hm : Memory.risesAbove n m = true) (h : n < a) :
    Memory.risesAbove n (Memory.write a v m) = true := by
  induction m generalizing n with
  | nil => simp [Memory.write, Memory.risesAbove, h]
  | cons e m ih =>
    obtain ⟨b, w⟩ := e
    simp only [Memory.risesAbove, Bool.and_eq_true, decide_eq_true_eq] at hm
    unfold Memory.write
    split
    · next hab => simp [Memory.risesAbove, h, hab, hm.2]
    · split
      · simp [Memory.risesAbove, hm.1, hm.2]
      · have : b < a := by omega
        simp [Memory.risesAbove, hm.1, ih hm.2 this]

/-- A write keeps the canonical form. -/
theorem Memory.wf_write (a : Nat) (v : Sample) {m : Memory} (hm : Memory.wf m = true) :
    Memory.wf (Memory.write a v m) = true := by
  cases m with
  | nil => rfl
  | cons e m =>
    obtain ⟨b, w⟩ := e
    have hb : Memory.risesAbove b m = true := hm
    unfold Memory.write
    split
    · next hab => simp [Memory.wf, Memory.risesAbove, hab, hb]
    · split
      · exact hb
      · exact Memory.risesAbove_write hb (by omega)

theorem Memory.wf_writeOpt (a : Nat) (v : Option Sample) {m : Memory} (hm : Memory.wf m = true) :
    Memory.wf (Memory.writeOpt a v m) = true := by
  cases v with
  | none => exact hm
  | some v => exact Memory.wf_write a v hm

/-! ### The cells that hold what the block wrote last (R86) -/

theorem mem_holdCell {a b : Nat} {l : List Nat} : b ∈ holdCell a l ↔ b = a ∨ b ∈ l := by
  induction l with
  | nil => simp [holdCell]
  | cons c l ih =>
    unfold holdCell
    split
    · simp
    · split
      · next h => simp [h]
      · simp only [List.mem_cons, ih]
        tauto

theorem mem_releaseCell {a b : Nat} {l : List Nat} : b ∈ releaseCell a l ↔ b ∈ l ∧ b ≠ a := by
  simp [releaseCell]

theorem heldWf_holdCell (a : Nat) {l : List Nat} (h : heldWf l = true) : heldWf (holdCell a l) = true := by
  induction l with
  | nil => rfl
  | cons b l ih =>
    simp only [heldWf, Bool.and_eq_true, List.all_eq_true, decide_eq_true_eq] at h
    unfold holdCell
    split
    · next hab =>
      simp only [heldWf, Bool.and_eq_true, List.all_eq_true, decide_eq_true_eq, List.mem_cons]
      exact ⟨fun c hc => hc.elim (fun e => e ▸ hab) fun hc => hab.trans (h.1 c hc), h.1, h.2⟩
    · split
      · simpa [heldWf] using h
      · simp only [heldWf, Bool.and_eq_true, List.all_eq_true, decide_eq_true_eq, mem_holdCell]
        exact ⟨fun c hc => hc.elim (fun e => by omega) (h.1 c), ih h.2⟩

theorem heldWf_releaseCell (a : Nat) {l : List Nat} (h : heldWf l = true) : heldWf (releaseCell a l) = true := by
  induction l with
  | nil => rfl
  | cons b l ih =>
    simp only [heldWf, Bool.and_eq_true, List.all_eq_true, decide_eq_true_eq] at h
    have := ih h.2
    unfold releaseCell at this ⊢
    rw [List.filter_cons]
    split
    · simp only [heldWf, Bool.and_eq_true, List.all_eq_true, decide_eq_true_eq]
      exact ⟨fun c hc => h.1 c (List.mem_of_mem_filter hc), this⟩
    · exact this

theorem heldWf_heldAfter (a : Nat) (c : PlaneChoice) {l : List Nat} (h : heldWf l = true) :
    heldWf (c.heldAfter a l) = true := by
  cases c
  · exact heldWf_holdCell a h
  · exact heldWf_holdCell a h
  · exact heldWf_releaseCell a h
  · exact heldWf_releaseCell a h

theorem Memory.wf_reset : Memory.wf State.reset.ports.cells = true := rfl

theorem Memory.lookup_eq_none_of_risesAbove {n a : Nat} {m : Memory} (hm : Memory.risesAbove n m = true) (h : a ≤ n) :
    Memory.lookup a m = none := by
  induction m generalizing n with
  | nil => rfl
  | cons e m ih =>
    obtain ⟨b, w⟩ := e
    simp only [Memory.risesAbove, Bool.and_eq_true, decide_eq_true_eq] at hm
    have : b ≠ a := by omega
    simp [Memory.lookup, this, ih hm.2 (by omega)]

/-- Two memories in canonical form with the same cells are the same list. -/
theorem Memory.eq_of_lookup_eq {m n : Memory} (hm : Memory.wf m = true) (hn : Memory.wf n = true)
    (h : ∀ a, Memory.lookup a m = Memory.lookup a n) : m = n := by
  induction m generalizing n with
  | nil =>
    cases n with
    | nil => rfl
    | cons e n =>
      obtain ⟨b, w⟩ := e
      simpa [Memory.lookup] using h b
  | cons e m ih =>
    obtain ⟨b, w⟩ := e
    have hbm : Memory.risesAbove b m = true := hm
    cases n with
    | nil => simpa [Memory.lookup] using h b
    | cons e' n =>
      obtain ⟨c, x⟩ := e'
      have hcn : Memory.risesAbove c n = true := hn
      have hbc : b = c := by
        rcases Nat.lt_trichotomy b c with hlt | heq | hgt
        · have := h b
          have hne : c ≠ b := by omega
          simp [Memory.lookup, hne, Memory.lookup_eq_none_of_risesAbove hcn (Nat.le_of_lt hlt)] at this
        · exact heq
        · have := h c
          have hne : b ≠ c := by omega
          simp [Memory.lookup, hne, Memory.lookup_eq_none_of_risesAbove hbm (Nat.le_of_lt hgt)] at this
      subst hbc
      have hwx : w = x := by simpa [Memory.lookup] using h b
      subst hwx
      have wf_of_rises : ∀ {l : Memory}, Memory.risesAbove b l = true → Memory.wf l = true := by
        intro l hl
        cases l with
        | nil => rfl
        | cons e l => exact (Bool.and_eq_true_iff.mp hl).2
      rw [ih (wf_of_rises hbm) (wf_of_rises hcn)]
      intro a
      by_cases hab : a ≤ b
      · rw [Memory.lookup_eq_none_of_risesAbove hbm hab, Memory.lookup_eq_none_of_risesAbove hcn hab]
      · have hne : b ≠ a := by omega
        simpa [Memory.lookup, hne] using h a

end Sys2Proof.Machine
end

