-- ==== Sys2Proof/Laws/State.lean ====
section
/-! SUPPORT. What each named update of State does to each part of it, and what it leaves alone: true by rfl, for simp, so
that no proof unfolds a record update. -/

namespace Sys2Proof.Machine

@[simp] theorem State.startEdge_regs (w : Word) (s : State) : (s.startEdge w).regs = { s.regs with cmd := w } := rfl
@[simp] theorem State.startEdge_ctl (w : Word) (s : State) : (s.startEdge w).ctl = { s.ctl with busy := true, done := false, err := .none, phase := .run, op := w.extractLsb' 0 4 } := rfl
@[simp] theorem State.startEdge_writer (w : Word) (s : State) : (s.startEdge w).writer = s.writer := rfl
@[simp] theorem State.startEdge_reader (w : Word) (s : State) : (s.startEdge w).reader = s.reader := rfl
@[simp] theorem State.startEdge_scan (w : Word) (s : State) : (s.startEdge w).scan = s.scan := rfl
@[simp] theorem State.startEdge_word (w : Word) (s : State) : (s.startEdge w).word = s.word := rfl
@[simp] theorem State.startEdge_ports (w : Word) (s : State) : (s.startEdge w).ports = s.ports := rfl
@[simp] theorem State.startEdge_host (w : Word) (s : State) : (s.startEdge w).host = s.host := rfl

@[simp] theorem State.complete_regs (e : ErrCode) (s : State) : (s.complete e).regs = s.regs := rfl
@[simp] theorem State.complete_ctl (e : ErrCode) (s : State) : (s.complete e).ctl = { s.ctl with busy := false, done := true, err := e, phase := .idle } := rfl
@[simp] theorem State.complete_writer (e : ErrCode) (s : State) : (s.complete e).writer = s.writer := rfl
@[simp] theorem State.complete_reader (e : ErrCode) (s : State) : (s.complete e).reader = s.reader := rfl
@[simp] theorem State.complete_scan (e : ErrCode) (s : State) : (s.complete e).scan = s.scan := rfl
@[simp] theorem State.complete_word (e : ErrCode) (s : State) : (s.complete e).word = s.word := rfl
@[simp] theorem State.complete_ports (e : ErrCode) (s : State) : (s.complete e).ports = s.ports := rfl
@[simp] theorem State.complete_host (e : ErrCode) (s : State) : (s.complete e).host = s.host := rfl

@[simp] theorem State.record_regs (o : HostSaw) (s : State) : (s.record o).regs = s.regs := rfl
@[simp] theorem State.record_ctl (o : HostSaw) (s : State) : (s.record o).ctl = s.ctl := rfl
@[simp] theorem State.record_writer (o : HostSaw) (s : State) : (s.record o).writer = s.writer := rfl
@[simp] theorem State.record_reader (o : HostSaw) (s : State) : (s.record o).reader = s.reader := rfl
@[simp] theorem State.record_scan (o : HostSaw) (s : State) : (s.record o).scan = s.scan := rfl
@[simp] theorem State.record_word (o : HostSaw) (s : State) : (s.record o).word = s.word := rfl
@[simp] theorem State.record_ports (o : HostSaw) (s : State) : (s.record o).ports = s.ports := rfl
@[simp] theorem State.record_host (o : HostSaw) (s : State) : (s.record o).host = { s.host with saw := s.host.saw ++ [o] } := rfl

@[simp] theorem idleRead_regs (offset : Nat) (s : State) : (idleRead offset s).regs = s.regs := rfl
@[simp] theorem idleRead_ctl (offset : Nat) (s : State) : (idleRead offset s).ctl = s.ctl := rfl
@[simp] theorem idleRead_writer (offset : Nat) (s : State) : (idleRead offset s).writer = s.writer := rfl
@[simp] theorem idleRead_reader (offset : Nat) (s : State) : (idleRead offset s).reader = s.reader := rfl
@[simp] theorem idleRead_scan (offset : Nat) (s : State) : (idleRead offset s).scan = s.scan := rfl
@[simp] theorem idleRead_word (offset : Nat) (s : State) : (idleRead offset s).word = s.word := rfl
@[simp] theorem idleRead_ports (offset : Nat) (s : State) : (idleRead offset s).ports = s.ports := rfl
@[simp] theorem idleRead_host (offset : Nat) (s : State) : (idleRead offset s).host = { s.host with saw := s.host.saw ++ [.register offset (idleValue offset s)] } := rfl

@[simp] theorem resetBlock_regs (s : State) : (resetBlock s).regs = Regs.reset := rfl
@[simp] theorem resetBlock_ctl (s : State) : (resetBlock s).ctl = Control.reset := rfl
@[simp] theorem resetBlock_writer (s : State) : (resetBlock s).writer = Writer.reset := rfl
@[simp] theorem resetBlock_reader (s : State) : (resetBlock s).reader = Reader.reset := rfl
@[simp] theorem resetBlock_scan (s : State) : (resetBlock s).scan = Scan.reset := rfl
@[simp] theorem resetBlock_word (s : State) : (resetBlock s).word = Codeword.reset := rfl
@[simp] theorem resetBlock_ports (s : State) : (resetBlock s).ports = dropPending s.ports := rfl
@[simp] theorem resetBlock_host (s : State) : (resetBlock s).host = s.host := rfl

@[simp] theorem pokeCell_regs (a : Word) (v : Sample) (s : State) : (pokeCell a v s).regs = s.regs := rfl
@[simp] theorem pokeCell_ctl (a : Word) (v : Sample) (s : State) : (pokeCell a v s).ctl = s.ctl := rfl
@[simp] theorem pokeCell_writer (a : Word) (v : Sample) (s : State) : (pokeCell a v s).writer = s.writer := rfl
@[simp] theorem pokeCell_reader (a : Word) (v : Sample) (s : State) : (pokeCell a v s).reader = s.reader := rfl
@[simp] theorem pokeCell_scan (a : Word) (v : Sample) (s : State) : (pokeCell a v s).scan = s.scan := rfl
@[simp] theorem pokeCell_word (a : Word) (v : Sample) (s : State) : (pokeCell a v s).word = s.word := rfl
@[simp] theorem pokeCell_ports (a : Word) (v : Sample) (s : State) : (pokeCell a v s).ports = { s.ports with cells := Memory.write a.toNat v s.ports.cells, held := releaseCell a.toNat s.ports.held } := rfl
@[simp] theorem pokeCell_host (a : Word) (v : Sample) (s : State) : (pokeCell a v s).host = s.host := rfl

@[simp] theorem foresee_regs (s : State) : (foresee s).regs = s.regs := rfl
@[simp] theorem foresee_ctl (s : State) : (foresee s).ctl = s.ctl := rfl
@[simp] theorem foresee_writer (s : State) : (foresee s).writer = s.writer := rfl
@[simp] theorem foresee_reader (s : State) : (foresee s).reader = s.reader := rfl
@[simp] theorem foresee_scan (s : State) : (foresee s).scan = s.scan := rfl
@[simp] theorem foresee_word (s : State) : (foresee s).word = s.word := rfl
@[simp] theorem foresee_sink (s : State) : (foresee s).ports.sink = s.ports.sink := rfl
@[simp] theorem foresee_source (s : State) : (foresee s).ports.source = s.ports.source := rfl
@[simp] theorem foresee_plane (s : State) : (foresee s).ports.plane = s.ports.plane := rfl
@[simp] theorem foresee_cells (s : State) : (foresee s).ports.cells = s.ports.cells := rfl
@[simp] theorem foresee_held (s : State) : (foresee s).ports.held = s.ports.held := rfl
@[simp] theorem foresee_pending (s : State) : (foresee s).ports.pending = s.ports.pending := rfl
@[simp] theorem foresee_log (s : State) : (foresee s).ports.log = s.ports.log := rfl
@[simp] theorem foresee_raceDraws (s : State) : (foresee s).ports.raceDraws = s.ports.raceDraws := rfl
@[simp] theorem foresee_host (s : State) : (foresee s).host = s.host := rfl

@[simp] theorem peekCell_regs (a : Word) (s : State) : (peekCell a s).regs = s.regs := rfl
@[simp] theorem peekCell_ctl (a : Word) (s : State) : (peekCell a s).ctl = s.ctl := rfl
@[simp] theorem peekCell_writer (a : Word) (s : State) : (peekCell a s).writer = s.writer := rfl
@[simp] theorem peekCell_reader (a : Word) (s : State) : (peekCell a s).reader = s.reader := rfl
@[simp] theorem peekCell_scan (a : Word) (s : State) : (peekCell a s).scan = s.scan := rfl
@[simp] theorem peekCell_word (a : Word) (s : State) : (peekCell a s).word = s.word := rfl
@[simp] theorem peekCell_ports (a : Word) (s : State) : (peekCell a s).ports = { s.ports with raceDraws := s.ports.raceDraws + s.ports.raced.toNat } := rfl
@[simp] theorem peekCell_host (a : Word) (s : State) : (peekCell a s).host = { s.host with saw := s.host.saw ++ [.cell a (seen (Memory.read a.toNat s.ports.cells) s)] } := rfl

/-- In a run that is no race a read returns what it would (R72). -/
@[simp] theorem seen_calm (v : Sample) {s : State} (h : s.ports.raced = false) : seen v s = v := by simp [seen, h]

/-- In a run that is no race nothing is drawn. -/
@[simp] theorem countSeen_calm {s : State} (h : s.ports.raced = false) : countSeen s = s := by
  unfold countSeen
  rw [h]
  rfl

@[simp] theorem State.setResult_regs (hi lo : Word) (s : State) : (s.setResult hi lo).regs = { s.regs with res0 := lo, res1 := hi } := rfl
@[simp] theorem State.setResult_ctl (hi lo : Word) (s : State) : (s.setResult hi lo).ctl = s.ctl := rfl
@[simp] theorem State.setResult_writer (hi lo : Word) (s : State) : (s.setResult hi lo).writer = s.writer := rfl
@[simp] theorem State.setResult_reader (hi lo : Word) (s : State) : (s.setResult hi lo).reader = s.reader := rfl
@[simp] theorem State.setResult_scan (hi lo : Word) (s : State) : (s.setResult hi lo).scan = s.scan := rfl
@[simp] theorem State.setResult_word (hi lo : Word) (s : State) : (s.setResult hi lo).word = s.word := rfl
@[simp] theorem State.setResult_ports (hi lo : Word) (s : State) : (s.setResult hi lo).ports = s.ports := rfl
@[simp] theorem State.setResult_host (hi lo : Word) (s : State) : (s.setResult hi lo).host = s.host := rfl

@[simp] theorem State.setResult64_regs (v : DoubleWord) (s : State) : (s.setResult64 v).regs = { s.regs with res0 := v.extractLsb' 0 32, res1 := v.extractLsb' 32 32 } := rfl
@[simp] theorem State.setResult64_ctl (v : DoubleWord) (s : State) : (s.setResult64 v).ctl = s.ctl := rfl
@[simp] theorem State.setResult64_writer (v : DoubleWord) (s : State) : (s.setResult64 v).writer = s.writer := rfl
@[simp] theorem State.setResult64_reader (v : DoubleWord) (s : State) : (s.setResult64 v).reader = s.reader := rfl
@[simp] theorem State.setResult64_scan (v : DoubleWord) (s : State) : (s.setResult64 v).scan = s.scan := rfl
@[simp] theorem State.setResult64_word (v : DoubleWord) (s : State) : (s.setResult64 v).word = s.word := rfl
@[simp] theorem State.setResult64_ports (v : DoubleWord) (s : State) : (s.setResult64 v).ports = s.ports := rfl
@[simp] theorem State.setResult64_host (v : DoubleWord) (s : State) : (s.setResult64 v).host = s.host := rfl

@[simp] theorem State.setResult16_regs (v : Sample) (s : State) : (s.setResult16 v).regs = { s.regs with res0 := v.setWidth 32, res1 := 0 } := rfl
@[simp] theorem State.setResult16_ctl (v : Sample) (s : State) : (s.setResult16 v).ctl = s.ctl := rfl
@[simp] theorem State.setResult16_writer (v : Sample) (s : State) : (s.setResult16 v).writer = s.writer := rfl
@[simp] theorem State.setResult16_reader (v : Sample) (s : State) : (s.setResult16 v).reader = s.reader := rfl
@[simp] theorem State.setResult16_scan (v : Sample) (s : State) : (s.setResult16 v).scan = s.scan := rfl
@[simp] theorem State.setResult16_word (v : Sample) (s : State) : (s.setResult16 v).word = s.word := rfl
@[simp] theorem State.setResult16_ports (v : Sample) (s : State) : (s.setResult16 v).ports = s.ports := rfl
@[simp] theorem State.setResult16_host (v : Sample) (s : State) : (s.setResult16 v).host = s.host := rfl

@[simp] theorem State.setResultK_regs (k : Nat) (s : State) : (s.setResultK k).regs = { s.regs with res0 := BitVec.ofNat 32 k, res1 := 0 } := rfl
@[simp] theorem State.setResultK_ctl (k : Nat) (s : State) : (s.setResultK k).ctl = s.ctl := rfl
@[simp] theorem State.setResultK_writer (k : Nat) (s : State) : (s.setResultK k).writer = s.writer := rfl
@[simp] theorem State.setResultK_reader (k : Nat) (s : State) : (s.setResultK k).reader = s.reader := rfl
@[simp] theorem State.setResultK_scan (k : Nat) (s : State) : (s.setResultK k).scan = s.scan := rfl
@[simp] theorem State.setResultK_word (k : Nat) (s : State) : (s.setResultK k).word = s.word := rfl
@[simp] theorem State.setResultK_ports (k : Nat) (s : State) : (s.setResultK k).ports = s.ports := rfl
@[simp] theorem State.setResultK_host (k : Nat) (s : State) : (s.setResultK k).host = s.host := rfl

@[simp] theorem State.dropReader_regs (s : State) : (s.dropReader).regs = s.regs := rfl
@[simp] theorem State.dropReader_ctl (s : State) : (s.dropReader).ctl = s.ctl := rfl
@[simp] theorem State.dropReader_writer (s : State) : (s.dropReader).writer = s.writer := rfl
@[simp] theorem State.dropReader_reader (s : State) : (s.dropReader).reader = { racc := 0, rbits := 0 } := rfl
@[simp] theorem State.dropReader_scan (s : State) : (s.dropReader).scan = s.scan := rfl
@[simp] theorem State.dropReader_word (s : State) : (s.dropReader).word = s.word := rfl
@[simp] theorem State.dropReader_ports (s : State) : (s.dropReader).ports = s.ports := rfl
@[simp] theorem State.dropReader_host (s : State) : (s.dropReader).host = s.host := rfl

@[simp] theorem markPosition_regs (s : State) : (markPosition s).regs = { s.regs with posRow := s.scan.row, posCol := s.scan.col } := rfl
@[simp] theorem markPosition_ctl (s : State) : (markPosition s).ctl = s.ctl := rfl
@[simp] theorem markPosition_writer (s : State) : (markPosition s).writer = s.writer := rfl
@[simp] theorem markPosition_reader (s : State) : (markPosition s).reader = s.reader := rfl
@[simp] theorem markPosition_scan (s : State) : (markPosition s).scan = s.scan := rfl
@[simp] theorem markPosition_word (s : State) : (markPosition s).word = s.word := rfl
@[simp] theorem markPosition_ports (s : State) : (markPosition s).ports = s.ports := rfl
@[simp] theorem markPosition_host (s : State) : (markPosition s).host = s.host := rfl

@[simp] theorem predict_regs (s : State) : (predict s).regs = s.regs := rfl
@[simp] theorem predict_ctl (s : State) : (predict s).ctl = s.ctl := rfl
@[simp] theorem predict_writer (s : State) : (predict s).writer = s.writer := rfl
@[simp] theorem predict_reader (s : State) : (predict s).reader = s.reader := rfl
@[simp] theorem predict_scan (s : State) : (predict s).scan = { s.scan with
      pred := med s.scan.a s.scan.b s.scan.c, k := computeK s.scan.a s.scan.b s.scan.c s.scan.d } := rfl
@[simp] theorem predict_word (s : State) : (predict s).word = s.word := rfl
@[simp] theorem predict_ports (s : State) : (predict s).ports = s.ports := rfl
@[simp] theorem predict_host (s : State) : (predict s).host = s.host := rfl

@[simp] theorem startRow_regs (s : State) : (startRow s).regs = s.regs := rfl
@[simp] theorem startRow_ctl (s : State) : (startRow s).ctl = s.ctl := rfl
@[simp] theorem startRow_writer (s : State) : (startRow s).writer = s.writer := rfl
@[simp] theorem startRow_reader (s : State) : (startRow s).reader = s.reader := rfl
@[simp] theorem startRow_scan (s : State) : (startRow s).scan = { s.scan with a := 0, c := 0, col := 0 } := rfl
@[simp] theorem startRow_word (s : State) : (startRow s).word = s.word := rfl
@[simp] theorem startRow_ports (s : State) : (startRow s).ports = s.ports := rfl
@[simp] theorem startRow_host (s : State) : (startRow s).host = s.host := rfl

/-- The context roll changes the scan state alone (R226). -/
@[simp] theorem roll_regs (x : Sample) (s : State) : (roll x s).regs = s.regs := rfl
@[simp] theorem roll_ctl (x : Sample) (s : State) : (roll x s).ctl = s.ctl := rfl
@[simp] theorem roll_writer (x : Sample) (s : State) : (roll x s).writer = s.writer := rfl
@[simp] theorem roll_reader (x : Sample) (s : State) : (roll x s).reader = s.reader := rfl
@[simp] theorem roll_word (x : Sample) (s : State) : (roll x s).word = s.word := rfl
@[simp] theorem roll_ports (x : Sample) (s : State) : (roll x s).ports = s.ports := rfl
@[simp] theorem roll_host (x : Sample) (s : State) : (roll x s).host = s.host := rfl
@[simp] theorem roll_scan_row (x : Sample) (s : State) : (roll x s).scan.row = (s.scan.row) := rfl
@[simp] theorem roll_scan_col (x : Sample) (s : State) : (roll x s).scan.col = (s.scan.col) := rfl
@[simp] theorem roll_scan_a (x : Sample) (s : State) : (roll x s).scan.a = (x) := rfl
@[simp] theorem roll_scan_c (x : Sample) (s : State) : (roll x s).scan.c = (s.scan.b) := rfl
@[simp] theorem roll_scan_d (x : Sample) (s : State) : (roll x s).scan.d = (s.scan.d) := rfl
@[simp] theorem roll_scan_k (x : Sample) (s : State) : (roll x s).scan.k = (s.scan.k) := rfl
@[simp] theorem roll_scan_pred (x : Sample) (s : State) : (roll x s).scan.pred = (s.scan.pred) := rfl
@[simp] theorem roll_scan_first (x : Sample) (s : State) : (roll x s).scan.first = (if s.scan.col = 0 then x else s.scan.first) := rfl

/-- The row seed (R226): B is the first sample of the row after its last column. -/
@[simp] theorem roll_scan_b (x : Sample) (s : State) :
    (roll x s).scan.b =
      if s.scan.col.toNat + 1 = s.regs.pwidth.toNat then (if s.scan.col = 0 then x else s.scan.first) else s.scan.d :=
  rfl

/-- A read while busy changes the host's side alone (R27). -/
theorem busyRead_eq (offset : Nat) (s : State) : busyRead offset s = { s with host := (busyRead offset s).host } := by
  unfold busyRead
  split
  · rfl
  · dsimp only
    split <;> rfl

/-- A read while busy takes nothing from the queue or the schedule. -/
theorem busyRead_queue (offset : Nat) (s : State) :
    (busyRead offset s).host.queue = s.host.queue ∧ (busyRead offset s).host.slots = s.host.slots := by
  unfold busyRead
  split
  · exact ⟨rfl, rfl⟩
  · dsimp only
    split <;> exact ⟨rfl, rfl⟩

/-- A write of a register that starts nothing changes the host registers alone (R21). -/
theorem storeReg_eq (offset : Nat) (v : Word) (s : State) :
    storeReg offset v s = { s with regs := (storeReg offset v s).regs } := by
  unfold storeReg
  split <;> rfl

/-- The offset map and its inverse agree (R21). -/
@[simp] theorem regAt_regOffset (r : Reg) : regAt (regOffset r) = some r := by
  cases r <;> rfl

/-- An offset of the map is its register's (R21). -/
theorem regOffset_of_regAt {offset : Nat} {r : Reg} (h : regAt offset = some r) : regOffset r = offset := by
  unfold regAt at h
  split at h <;> cases h <;> rfl

/-- Every offset of the map is a word of the block (R20, R79). -/
theorem regOffset_wellFormed (r : Reg) : accessWellFormed 32 (regOffset r) = true := by
  cases r <;> rfl

end Sys2Proof.Machine
end

