-- ==== Sys2Proof/Laws/Ops.lean ====
section
/-! SUPPORT. What each shared operation can do: sequencing, outside actions that land, transactions on the ports, the end of
a command. The lemmas named `_quiet` compute an operation while no outside action lands; those named `_ok` say all that it
can have done when it goes on. -/

namespace Sys2Proof.Machine

open Sys2Proof.Safety

variable {α β γ : Type}

/-! ### Sequencing -/

@[simp] theorem Res.bind_ok (a : α) (s : State) (f : α → State → Res β) : (Res.ok a s).bind f = f a s := rfl

@[simp] theorem Res.bind_raised (e : ErrCode) (s : State) (f : α → State → Res β) :
    (Res.raised e s).bind f = .raised e s := rfl

@[simp] theorem Res.bind_ended (o : Host.Outcome State Fault Refusal) (f : α → State → Res β) :
    (Res.ended o).bind f = .ended o := rfl

theorem Res.bind_assoc (r : Res α) (f : α → State → Res β) (g : β → State → Res γ) :
    (r.bind f).bind g = r.bind fun a s => (f a s).bind g := by
  cases r <;> rfl

theorem Res.bind_eq_ok {r : Res α} {f : α → State → Res β} {b : β} {u : State} :
    r.bind f = .ok b u ↔ ∃ a t, r = .ok a t ∧ f a t = .ok b u := by
  cases r <;> simp

/-- What holds of a result: `Q` of a value and state it goes on with, `E` of an error it raises, `O` of an outcome it is
over with. -/
def Res.Sat (Q : α → State → Prop) (E : ErrCode → State → Prop) (O : Host.Outcome State Fault Refusal → Prop) :
    Res α → Prop
  | .ok a s => Q a s
  | .raised e s => E e s
  | .ended o => O o

@[simp] theorem Res.sat_ok {Q : α → State → Prop} {E : ErrCode → State → Prop}
    {O : Host.Outcome State Fault Refusal → Prop} {a : α} {s : State} : (Res.ok a s).Sat Q E O ↔ Q a s := Iff.rfl

@[simp] theorem Res.sat_raised {Q : α → State → Prop} {E : ErrCode → State → Prop}
    {O : Host.Outcome State Fault Refusal → Prop} {e : ErrCode} {s : State} :
    (Res.raised e s : Res α).Sat Q E O ↔ E e s := Iff.rfl

@[simp] theorem Res.sat_ended {Q : α → State → Prop} {E : ErrCode → State → Prop}
    {O : Host.Outcome State Fault Refusal → Prop} {o : Host.Outcome State Fault Refusal} :
    (Res.ended o : Res α).Sat Q E O ↔ O o := Iff.rfl

/-- The sequencing rule. -/
theorem Res.Sat.bind {Q : α → State → Prop} {R : β → State → Prop} {E : ErrCode → State → Prop}
    {O : Host.Outcome State Fault Refusal → Prop} {r : Res α} {f : α → State → Res β}
    (hr : r.Sat Q E O) (hf : ∀ a s, Q a s → (f a s).Sat R E O) : (r.bind f).Sat R E O := by
  cases r with
  | ok a s => exact hf a s hr
  | raised e s => exact hr
  | ended o => exact hr

/-- The consequence rule. -/
theorem Res.Sat.mono {Q Q' : α → State → Prop} {E E' : ErrCode → State → Prop}
    {O O' : Host.Outcome State Fault Refusal → Prop} {r : Res α} (hr : r.Sat Q E O)
    (hq : ∀ a s, Q a s → Q' a s) (he : ∀ e s, E e s → E' e s) (ho : ∀ o, O o → O' o) : r.Sat Q' E' O' := by
  cases r with
  | ok a s => exact hq a s hr
  | raised e s => exact he e s hr
  | ended o => exact ho o hr

/-! ### The end of a command -/

@[simp] theorem finish_ok (a : Unit) (s : State) : finish (.ok a s) = endCommand .none s := rfl

@[simp] theorem finish_raised (e : ErrCode) (s : State) : finish (.raised e s) = endCommand e s := rfl

@[simp] theorem finish_ended (o : Host.Outcome State Fault Refusal) : finish (.ended o) = o := rfl

/-! ### Outside actions -/

/-- With no outside action scheduled, a point of a command is passed with the state as it is. -/
theorem yieldHost_quiet {uses : Bool} {s : State} (h : s.host.slots = []) : yieldHost uses s = .ok s := by
  unfold yieldHost
  rw [h]

/-- With no outside action scheduled, a command completes at once (R111). -/
theorem endCommand_quiet (e : ErrCode) {s : State} (h : s.host.slots = []) : endCommand e s = .next (s.complete e) := by
  unfold endCommand
  rw [yieldHost_quiet h]

/-- What outside actions that let a command go on have done: the host's side, and plane cells, which another agent may
write, in canonical form if they were, and a race if one was among the command's (R88). -/
def Landed (s t : State) : Prop :=
  t = { s with
    host := t.host
    ports.cells := t.ports.cells
    ports.held := t.ports.held
    ports.raced := t.ports.raced
    ports.raceDraws := t.ports.raceDraws } ∧
    (Memory.wf s.ports.cells = true → Memory.wf t.ports.cells = true) ∧
    (heldWf s.ports.held = true → heldWf t.ports.held = true) ∧
    (s.host.queue.any touchesPlane = false → t.host.queue.any touchesPlane = false ∧ t.ports.raced = s.ports.raced)

theorem Landed.refl (s : State) : Landed s s := ⟨rfl, id, id, fun h => ⟨h, rfl⟩⟩

theorem Landed.trans {s t u : State} (h : Landed s t) (h' : Landed t u) : Landed s u := by
  refine ⟨?_, fun w => h'.2.1 (h.2.1 w), fun w => h'.2.2.1 (h.2.2.1 w), fun w => ?_⟩
  · rw [h'.1, h.1]
  · obtain ⟨q, r⟩ := h.2.2.2 w
    obtain ⟨q', r'⟩ := h'.2.2.2 q
    exact ⟨q', r'.trans r⟩

/-- The host's side moved, and no action was added to the queue. -/
theorem Landed.of_host {s : State} {h : HostSide}
    (hq : s.host.queue.any touchesPlane = false → h.queue.any touchesPlane = false) : Landed s { s with host := h } :=
  ⟨rfl, id, id, fun w => ⟨hq w, rfl⟩⟩

theorem Landed.of_busyRead {offset : Nat} {s t : State} (h : Landed s t) : Landed s (busyRead offset t) := by
  rw [busyRead_eq]
  exact h.trans (Landed.of_host fun w => by rw [(busyRead_queue offset t).1]; exact w)

/-- One outside action that lets a command go on. -/
theorem serveBusy_ok {uses : Bool} {s t : State} (h : serveBusy uses s = .ok t) : Landed s t := by
  unfold serveBusy at h
  split at h
  · cases h; exact Landed.refl _
  · next act rest hq =>
    have hrest : s.host.queue.any touchesPlane = false → rest.any touchesPlane = false := by
      rw [hq, List.any_cons, Bool.or_eq_false_iff]
      exact And.right
    dsimp only at h
    split at h
    · split at h
      · cases h
        exact Landed.of_busyRead (Landed.of_host hrest)
      · cases h
        exact Landed.of_host hrest
      · cases h
        exact Landed.of_busyRead (Landed.refl _)
      · cases h
      · cases h
        refine ⟨rfl, Memory.wf_write _ _, heldWf_releaseCell _, fun w => ?_⟩
        rw [hq, List.any_cons] at w
        simp [touchesPlane] at w
      · cases h
        refine ⟨rfl, id, id, fun w => ?_⟩
        rw [hq, List.any_cons] at w
        simp [touchesPlane] at w
    · cases h

/-- One outside action that does not: a reset, or an access the model refuses. -/
theorem serveBusy_error {uses : Bool} {s : State} {o : Host.Outcome State Fault Refusal} (h : serveBusy uses s = .error o) :
    (∃ rest, s.host.queue = .reset :: rest ∧ o = .next (resetBlock { s with host.queue := rest })) ∨
      ∃ act, o = .refused (.hostAccess act) := by
  unfold serveBusy at h
  split at h
  · cases h
  · next act rest hq =>
    dsimp only at h
    split at h
    · split at h
      · cases h
      · cases h
      · cases h
      · cases h; exact .inl ⟨rest, hq, rfl⟩
      · cases h
      · cases h
    · cases h; exact .inr ⟨_, rfl⟩

theorem serveMany_ok {uses : Bool} {n : Nat} {s t : State} (h : serveMany uses n s = .ok t) : Landed s t := by
  induction n generalizing s with
  | zero => cases h; exact Landed.refl _
  | succ n ih =>
    unfold serveMany at h
    split at h
    · next s' hs => exact (serveBusy_ok hs).trans (ih h)
    · cases h

theorem serveMany_error {uses : Bool} {n : Nat} {s : State} {o : Host.Outcome State Fault Refusal} (h : serveMany uses n s = .error o) :
    (∃ t rest, Landed s t ∧ o = .next (resetBlock { t with host.queue := rest })) ∨
      ∃ act, o = .refused (.hostAccess act) := by
  induction n generalizing s with
  | zero => cases h
  | succ n ih =>
    unfold serveMany at h
    split at h
    · next s' hs =>
      rcases ih h with ⟨t, rest, ht, ho⟩ | h'
      · exact .inl ⟨t, rest, (serveBusy_ok hs).trans ht, ho⟩
      · exact .inr h'
    · next o' hs =>
      cases h
      rcases serveBusy_error hs with ⟨rest, _, ho⟩ | h'
      · exact .inl ⟨s, rest, Landed.refl s, ho⟩
      · exact .inr h'

theorem yieldHost_ok {uses : Bool} {s t : State} (h : yieldHost uses s = .ok t) : Landed s t := by
  unfold yieldHost at h
  split at h
  · cases h; exact Landed.refl _
  · next n rest _ => exact Landed.trans (t := { s with host.slots := rest }) (Landed.of_host id) (serveMany_ok h)

/-- A point of a command at which it stops: a reset, or an access the model refuses. -/
theorem yieldHost_error {uses : Bool} {s : State} {o : Host.Outcome State Fault Refusal} (h : yieldHost uses s = .error o) :
    (∃ t rest, Landed s t ∧ o = .next (resetBlock { t with host.queue := rest })) ∨
      ∃ act, o = .refused (.hostAccess act) := by
  unfold yieldHost at h
  split at h
  · cases h
  · next n slots _ =>
    rcases serveMany_error h with ⟨t, rest, ht, ho⟩ | h'
    · exact .inl ⟨t, rest, Landed.trans (t := { s with host.slots := slots }) (Landed.of_host id) ht, ho⟩
    · exact .inr h'

/-- Reset drops an outstanding answer, and changes nothing else of the ports (R322). -/
theorem dropPending_eq (p : Ports) :
    dropPending p = { p with
      pending := none
      log := p.log ++ (p.pending.toList.map fun req => { request := req, answer := .dropped }) } := by
  unfold dropPending
  split
  · next h => obtain ⟨_, _, _, _, pending, _⟩ := p; simp_all
  · next req h => simp [h]

/-! ### Port parameters -/

@[simp] theorem Port.next_cons (x : α) (xs : List α) (tl : α) : (Port.mk (x :: xs) tl).next = x := rfl

@[simp] theorem Port.rest_cons (x : α) (xs : List α) (tl : α) : (Port.mk (x :: xs) tl).rest = ⟨xs, tl⟩ := rfl

@[simp] theorem Port.next_nil (tl : α) : (Port.mk [] tl).next = tl := rfl

@[simp] theorem Port.rest_nil (tl : α) : (Port.mk [] tl).rest = ⟨[], tl⟩ := rfl

/-- A port whose choices all satisfy `p` makes a next choice that does, and is left with such choices. -/
theorem portAll_next {p : α → Bool} {q : Port α} (h : portAll p q = true) : p q.next = true ∧ portAll p q.rest = true := by
  obtain ⟨script, tl⟩ := q
  cases script with
  | nil => simpa [portAll] using h
  | cons x xs =>
    simp only [portAll, List.all_cons, Bool.and_eq_true] at h
    simp [portAll, h.1.1, h.1.2, h.2]

/-! ### Transactions while no outside action lands -/

/-- The state after a transaction: nothing outstanding, and the record one longer (R70, R86). -/
def answered (req : Request) (a : Answer) (s : State) : State :=
  { s with ports.pending := none, ports.log := s.ports.log ++ [{ request := req, answer := a }] }

theorem await_quiet_some (req : Request) {f : State → Option Answer} {a : Answer} {s : State} (h : s.host.slots = [])
    (ha : f { s with ports.pending := some req } = some a) : await req f s = .ok () (answered req a s) := by
  unfold await
  rw [yieldHost_quiet (by exact h)]
  simp [ha, answered]

theorem await_quiet_none (req : Request) {f : State → Option Answer} {s : State} (h : s.host.slots = [])
    (ha : f { s with ports.pending := some req } = none) :
    await req f s = .ended (.next { s with ports.pending := some req }) := by
  unfold await
  rw [yieldHost_quiet (by exact h)]
  simp [ha]

theorem sinkRequest_quiet (req : Request) {s : State} (h : s.host.slots = []) :
    sinkRequest req s =
      (await req (fun _ => s.ports.sink.next.answer) { s with ports.sink := s.ports.sink.rest }).bind fun _ t =>
        .ok (s.ports.sink.next == .ok) t := by
  unfold sinkRequest
  rw [yieldHost_quiet h]

/-- A sink request answered OK (R74). -/
theorem sinkRequest_accepted (req : Request) {s : State} (h : s.host.slots = []) (hc : s.ports.sink.next = .ok) :
    sinkRequest req s = .ok true (answered req .ok { s with ports.sink := s.ports.sink.rest }) := by
  simp [sinkRequest_quiet req h, hc, SinkChoice.answer, await_quiet_some, h]

/-- A sink request answered ERROR (R74). -/
theorem sinkRequest_refused (req : Request) {s : State} (h : s.host.slots = []) (hc : s.ports.sink.next = .error) :
    sinkRequest req s = .ok false (answered req .error { s with ports.sink := s.ports.sink.rest }) := by
  simp [sinkRequest_quiet req h, hc, SinkChoice.answer, await_quiet_some, h]

/-- A sink request that is never answered (R70). -/
theorem sinkRequest_silent (req : Request) {s : State} (h : s.host.slots = []) (hc : s.ports.sink.next = .silent) :
    sinkRequest req s =
      .ended (.next { s with ports.sink := s.ports.sink.rest, ports.pending := some req }) := by
  simp [sinkRequest_quiet req h, hc, SinkChoice.answer, await_quiet_none, h]

/-- A byte the sink accepts: OUT_BYTES goes up by 1 (R75). -/
theorem sinkByte_accepted (v : Octet) {s : State} (h : s.host.slots = []) (hc : s.ports.sink.next = .ok) :
    sinkByte v s = .ok true
      (answered (.byte v) .ok
        { s with ports.sink := s.ports.sink.rest, regs.outBytes := s.regs.outBytes + 1 }) := by
  simp [sinkByte, sinkRequest_accepted _ h hc, answered]

/-- A byte the sink refuses: OUT_BYTES is unchanged (R75). -/
theorem sinkByte_refused (v : Octet) {s : State} (h : s.host.slots = []) (hc : s.ports.sink.next = .error) :
    sinkByte v s = .ok false (answered (.byte v) .error { s with ports.sink := s.ports.sink.rest }) := by
  simp [sinkByte, sinkRequest_refused _ h hc]

theorem sourceFetch_quiet {s : State} (h : s.host.slots = []) :
    sourceFetch s =
      (await .fetch (fun _ => s.ports.source.next.answer) { s with ports.source := s.ports.source.rest }).bind fun _ t =>
        match s.ports.source.next with
        | .data v => .ok v { t with regs.inBytes := t.regs.inBytes + 1 }
        | .eos => .raised .eos t
        | .error => .raised .ioError t
        | .silent => .ended (.next t) := by
  unfold sourceFetch
  rw [yieldHost_quiet h] <;> rfl

/-- A byte the source delivers: IN_BYTES goes up by 1 (R78). -/
theorem sourceFetch_data {v : Octet} {s : State} (h : s.host.slots = []) (hc : s.ports.source.next = .data v) :
    sourceFetch s = .ok v
      (answered .fetch (.octet v)
        { s with ports.source := s.ports.source.rest, regs.inBytes := s.regs.inBytes + 1 }) := by
  simp [sourceFetch_quiet h, hc, SourceChoice.answer, await_quiet_some, h, answered]

/-- The source is at its end (R78, R286). -/
theorem sourceFetch_eos {s : State} (h : s.host.slots = []) (hc : s.ports.source.next = .eos) :
    sourceFetch s = .raised .eos (answered .fetch .eos { s with ports.source := s.ports.source.rest }) := by
  simp [sourceFetch_quiet h, hc, SourceChoice.answer, await_quiet_some, h]

/-- The source answers ERROR (R78, R285). -/
theorem sourceFetch_error {s : State} (h : s.host.slots = []) (hc : s.ports.source.next = .error) :
    sourceFetch s = .raised .ioError (answered .fetch .error { s with ports.source := s.ports.source.rest }) := by
  simp [sourceFetch_quiet h, hc, SourceChoice.answer, await_quiet_some, h]

theorem memRead_quiet (a : Word) {s : State} (h : s.host.slots = []) :
    memRead a s =
      (await (.planeRead a) (fun t => s.ports.plane.next.readAnswer a t)
          { s with ports.plane := s.ports.plane.rest }).bind fun _ t =>
        match s.ports.plane.next.readValue a t with
        | some v => .ok v (countSeen t)
        | none => .raised .memError t := by
  unfold memRead
  rw [yieldHost_quiet h] <;> rfl

/-- A READ that is answered DATA (R72). -/
theorem memRead_data (a : Word) {v : Sample} {s : State} (h : s.host.slots = [])
    (hv : s.ports.plane.next.readValue a s = some v) :
    memRead a s = .ok v
      (countSeen (answered (.planeRead a) (.sample v) { s with ports.plane := s.ports.plane.rest })) := by
  rw [memRead_quiet a h]
  cases hc : s.ports.plane.next with
  | serve =>
    rw [hc] at hv
    cases hv
    rw [await_quiet_some _ (a := .sample (seen (Memory.read a.toNat s.ports.cells) s)) (by exact h) rfl]
    rfl
  | override w =>
    rw [hc] at hv
    cases hv
    rw [await_quiet_some _ (a := .sample (seen (overridden a w s) s)) (by exact h) rfl]
    rfl
  | refuse c => rw [hc] at hv; cases hv
  | silent c => rw [hc] at hv; cases hv

/-- A READ that is answered ERROR (R72). -/
theorem memRead_refused (a : Word) {c : Option Sample} {s : State} (h : s.host.slots = [])
    (hc : s.ports.plane.next = .refuse c) :
    memRead a s = .raised .memError (answered (.planeRead a) .error { s with ports.plane := s.ports.plane.rest }) := by
  rw [memRead_quiet a h, hc, await_quiet_some _ (a := .error) (by exact h) rfl]
  rfl

/-- A READ that is never answered (R70). -/
theorem memRead_silent (a : Word) {c : Option Sample} {s : State} (h : s.host.slots = [])
    (hc : s.ports.plane.next = .silent c) :
    memRead a s =
      .ended (.next { s with ports.plane := s.ports.plane.rest, ports.pending := some (.planeRead a) }) := by
  rw [memRead_quiet a h, hc, await_quiet_none _ (by exact h) rfl]
  rfl

/-- A READ that plane memory serves, in a run that is no race (R72). -/
theorem memRead_served (a : Word) {s : State} (h : s.host.slots = []) (hc : s.ports.plane.next = .serve)
    (hr : s.ports.raced = false) :
    memRead a s = .ok (Memory.read a.toNat s.ports.cells)
      (answered (.planeRead a) (.sample (Memory.read a.toNat s.ports.cells))
        { s with ports.plane := s.ports.plane.rest }) := by
  rw [memRead_data a (v := Memory.read a.toNat s.ports.cells) h (by rw [hc, PlaneChoice.readValue, seen_calm _ hr]),
    countSeen_calm (by exact hr)]

theorem memWrite_quiet (a : Word) (v : Sample) {s : State} (h : s.host.slots = []) :
    memWrite a v s =
      (await (.planeWrite a v) (fun _ => s.ports.plane.next.writeAnswer)
          { s with
            ports.plane := s.ports.plane.rest
            ports.cells := Memory.writeOpt a.toNat (s.ports.plane.next.writeEffect v) s.ports.cells
            ports.held := s.ports.plane.next.heldAfter a.toNat s.ports.held }).bind fun _ t =>
        if s.ports.plane.next.writeAnswer = some .ok then .ok () t else .raised .memError t := by
  unfold memWrite
  rw [yieldHost_quiet h]

/-- A WRITE that is answered OK (R73). -/
theorem memWrite_ok (a : Word) (v : Sample) {s : State} (h : s.host.slots = [])
    (hc : s.ports.plane.next.writeAnswer = some .ok) :
    memWrite a v s = .ok ()
      (answered (.planeWrite a v) .ok
        { s with
          ports.plane := s.ports.plane.rest
          ports.cells := Memory.writeOpt a.toNat (s.ports.plane.next.writeEffect v) s.ports.cells
          ports.held := s.ports.plane.next.heldAfter a.toNat s.ports.held }) := by
  rw [memWrite_quiet a v h, await_quiet_some _ (a := .ok) (by exact h) hc]
  simp [hc]

/-- A WRITE that is answered ERROR (R73, R287). -/
theorem memWrite_refused (a : Word) (v : Sample) {c : Option Sample} {s : State} (h : s.host.slots = [])
    (hc : s.ports.plane.next = .refuse c) :
    memWrite a v s = .raised .memError
      (answered (.planeWrite a v) .error
        { s with
          ports.plane := s.ports.plane.rest
          ports.cells := Memory.writeOpt a.toNat c s.ports.cells
          ports.held := releaseCell a.toNat s.ports.held }) := by
  rw [memWrite_quiet a v h, hc, await_quiet_some _ (a := .error) (by exact h) rfl]
  rfl

/-- A WRITE that is never answered (R70, R322). -/
theorem memWrite_silent (a : Word) (v : Sample) {c : Option Sample} {s : State} (h : s.host.slots = [])
    (hc : s.ports.plane.next = .silent c) :
    memWrite a v s = .ended (.next
      { s with
        ports.plane := s.ports.plane.rest
        ports.cells := Memory.writeOpt a.toNat c s.ports.cells
        ports.held := releaseCell a.toNat s.ports.held
        ports.pending := some (.planeWrite a v) }) := by
  rw [memWrite_quiet a v h, hc, await_quiet_none _ (by exact h) rfl]
  rfl

/-- A WRITE that plane memory serves (R73). -/
theorem memWrite_served (a : Word) (v : Sample) {s : State} (h : s.host.slots = []) (hc : s.ports.plane.next = .serve) :
    memWrite a v s = .ok ()
      (answered (.planeWrite a v) .ok
        { s with
          ports.plane := s.ports.plane.rest
          ports.cells := Memory.write a.toNat v s.ports.cells
          ports.held := holdCell a.toNat s.ports.held }) := by
  simp [memWrite_quiet a v h, hc, PlaneChoice.writeAnswer, PlaneChoice.writeEffect, PlaneChoice.heldAfter, Memory.writeOpt, await_quiet_some, h]

end Sys2Proof.Machine
end

