-- ==== Sys2Proof/Laws/BitStream.lean ====
section
/-! SUPPORT. The bit-level writer and reader: what they append to and take from the streams while no outside action lands. -/

namespace Sys2Proof.Machine

open Sys2Proof.Safety

/-! ### Lists of bits -/

@[simp] theorem valueBits_length {w : Nat} (v : BitVec w) (n : Nat) : (valueBits v n).length = n := by
  induction n with
  | zero => rfl
  | succ n ih => simp [valueBits, ih]

theorem valueBits_push (acc : Octet) (b : Bool) {n : Nat} (h : n < 8) :
    valueBits ((acc <<< 1) ||| (BitVec.ofBool b).setWidth 8) (n + 1) = valueBits acc n ++ [b] := by
  induction n with
  | zero => cases b <;> simp [valueBits]
  | succ n ih =>
    have : n < 8 := by omega
    rw [valueBits, ih this, valueBits]
    have h1 : ((acc <<< 1) ||| (BitVec.ofBool b).setWidth 8).getLsbD (n + 1) = acc.getLsbD n := by
      cases b <;> simp [h] <;> rfl
    simp [h1]

@[simp] theorem octetsBits_nil : octetsBits [] = [] := rfl

@[simp] theorem octetsBits_cons (v : Octet) (l : List Octet) : octetsBits (v :: l) = valueBits v 8 ++ octetsBits l := rfl

@[simp] theorem octetsBits_append (l m : List Octet) : octetsBits (l ++ m) = octetsBits l ++ octetsBits m := by
  simp [octetsBits]

@[simp] theorem octetsBits_length (l : List Octet) : (octetsBits l).length = 8 * l.length := by
  induction l with
  | nil => rfl
  | cons v l ih => simp [ih]; omega

theorem bitsNat_append_single (bits : List Bool) (b : Bool) : bitsNat (bits ++ [b]) = 2 * bitsNat bits + b.toNat := by
  simp [bitsNat]

theorem bitsNat_cons (b : Bool) (bits : List Bool) : bitsNat (b :: bits) = b.toNat * 2 ^ bits.length + bitsNat bits := by
  induction bits using List.reverseRecOn with
  | nil => simp [bitsNat]
  | append_singleton l x ih =>
    rw [← List.cons_append, bitsNat_append_single, ih, bitsNat_append_single]
    simp [pow_succ]
    ring

theorem bitsNat_lt (bits : List Bool) : bitsNat bits < 2 ^ bits.length := by
  induction bits with
  | nil => simp [bitsNat]
  | cons b bits ih =>
    rw [bitsNat_cons]
    cases b <;> simp [pow_succ] <;> omega

/-- The number that a value's low bits spell. -/
theorem bitsNat_valueBits {w : Nat} (v : BitVec w) (n : Nat) : bitsNat (valueBits v n) = v.toNat % 2 ^ n := by
  induction n with
  | zero => simp [valueBits, bitsNat, Nat.mod_one]
  | succ n ih =>
    rw [valueBits, bitsNat_cons, ih, valueBits_length, Nat.mod_pow_succ, ← BitVec.testBit_toNat,
      Nat.toNat_testBit]
    ring

/-! ### The record of the sink -/

@[simp] theorem sinkStream_append (l m : List PortEvent) : sinkStream (l ++ m) = sinkStream l ++ sinkStream m := by
  simp [sinkStream]

/-- The event of a byte the sink accepted. -/
def sentByte (v : Octet) : PortEvent := { request := .byte v, answer := .ok }

@[simp] theorem sinkStream_sentBytes (l : List Octet) : sinkStream (l.map sentByte) = l := by
  induction l with
  | nil => rfl
  | cons v l ih => simpa [sinkStream, sentByte] using ih

/-- The sink accepts, so its next choice is OK and it accepts after it. -/
theorem SinkAccepts.next {s : State} (h : SinkAccepts s) :
    s.ports.sink.next = .ok ∧ portAll (fun c => c == .ok) s.ports.sink.rest = true := by
  have := portAll_next h
  exact ⟨by simpa using this.1, this.2⟩

/-! ### The writer -/

/-- What writing `bits` has done (R130, R133): whole bytes went to the sink and were accepted, the rest is pending, OUT_BYTES
counts the bytes, and nothing else changed but what the port holds. -/
structure WriterGrew (s t : State) (bits : List Bool) : Prop where
  frame : t = { s with
    regs := { s.regs with outBytes := t.regs.outBytes }
    writer := t.writer
    ports := { s.ports with sink := t.ports.sink, pending := t.ports.pending, log := t.ports.log } }
  wbits : t.writer.wbits ≤ 7
  sink : SinkAccepts t
  sent : ∃ new : List Octet,
    t.ports.log = s.ports.log ++ new.map sentByte ∧
    octetsBits new ++ pendingBits t.writer = pendingBits s.writer ++ bits ∧
    t.regs.outBytes = s.regs.outBytes + BitVec.ofNat 32 new.length

theorem WriterGrew.host {s t : State} {bits : List Bool} (h : WriterGrew s t bits) : t.host = s.host := by rw [h.frame]

theorem WriterGrew.ctl {s t : State} {bits : List Bool} (h : WriterGrew s t bits) : t.ctl = s.ctl := by rw [h.frame]

theorem WriterGrew.reader {s t : State} {bits : List Bool} (h : WriterGrew s t bits) : t.reader = s.reader := by
  rw [h.frame]

theorem WriterGrew.scan {s t : State} {bits : List Bool} (h : WriterGrew s t bits) : t.scan = s.scan := by rw [h.frame]

theorem WriterGrew.word {s t : State} {bits : List Bool} (h : WriterGrew s t bits) : t.word = s.word := by rw [h.frame]

theorem WriterGrew.regs {s t : State} {bits : List Bool} (h : WriterGrew s t bits) :
    t.regs = { s.regs with outBytes := t.regs.outBytes } :=
  congrArg State.regs h.frame

theorem WriterGrew.ports {s t : State} {bits : List Bool} (h : WriterGrew s t bits) :
    t.ports = { s.ports with sink := t.ports.sink, pending := t.ports.pending, log := t.ports.log } :=
  congrArg State.ports h.frame

theorem WriterGrew.cells {s t : State} {bits : List Bool} (h : WriterGrew s t bits) : t.ports.cells = s.ports.cells :=
  (congrArg Ports.cells h.ports :)

theorem WriterGrew.source {s t : State} {bits : List Bool} (h : WriterGrew s t bits) : t.ports.source = s.ports.source :=
  (congrArg Ports.source h.ports :)

theorem WriterGrew.plane {s t : State} {bits : List Bool} (h : WriterGrew s t bits) : t.ports.plane = s.ports.plane :=
  (congrArg Ports.plane h.ports :)

theorem WriterGrew.refl {s : State} (hw : s.writer.wbits ≤ 7) (hs : SinkAccepts s) : WriterGrew s s [] :=
  ⟨rfl, hw, hs, [], by simp⟩

theorem WriterGrew.trans {s t u : State} {b c : List Bool} (h : WriterGrew s t b) (h' : WriterGrew t u c) :
    WriterGrew s u (b ++ c) := by
  obtain ⟨f, _, _, n, l, e, o⟩ := h
  obtain ⟨f', w', k', n', l', e', o'⟩ := h'
  refine ⟨by rw [f', f], w', k', n ++ n', ?_, ?_, ?_⟩
  · rw [l', l]; simp
  · rw [octetsBits_append, List.append_assoc, e', ← List.append_assoc, e, List.append_assoc]
  · rw [o', o]
    simp [BitVec.ofNat_add, BitVec.add_assoc]

/-- The bits written so far, after writing (R133). -/
theorem WriterGrew.writtenBits {s t : State} {bits : List Bool} (h : WriterGrew s t bits) :
    writtenBits t = writtenBits s ++ bits := by
  obtain ⟨_, _, _, n, l, e, _⟩ := h
  simp only [Safety.writtenBits, l, sinkStream_append, sinkStream_sentBytes, octetsBits_append]
  rw [List.append_assoc, e, List.append_assoc]

/-- The number of bytes and of pending bits after writing (R133). -/
theorem WriterGrew.counts {s t : State} {bits : List Bool} (h : WriterGrew s t bits) :
    t.writer.wbits = (s.writer.wbits + bits.length) % 8 ∧
      t.regs.outBytes = s.regs.outBytes + BitVec.ofNat 32 ((s.writer.wbits + bits.length) / 8) := by
  obtain ⟨_, w, _, n, _, e, o⟩ := h
  have := congrArg List.length e
  simp [pendingBits] at this
  refine ⟨by omega, ?_⟩
  rw [o]
  congr 2
  omega

/-- PutBit (R130) with an accepting sink. -/
theorem putBit_grew (b : Bool) {s : State} (hq : Quiet s) (hw : s.writer.wbits ≤ 7) (hs : SinkAccepts s) :
    ∃ t, putBit b s = .ok () t ∧ WriterGrew s t [b] := by
  unfold putBit
  by_cases h8 : s.writer.wbits + 1 = 8
  · have hn := SinkAccepts.next hs
    simp only [h8, if_true]
    rw [sinkByte_accepted _ (by exact hq) (by exact hn.1)]
    refine ⟨_, rfl, ?_, by simp [answered], hn.2, [(s.writer.wacc <<< 1) ||| (BitVec.ofBool b).setWidth 8], rfl, ?_, ?_⟩
    · rfl
    · have h7 : s.writer.wbits = 7 := by omega
      rw [octetsBits_cons, octetsBits_nil, valueBits_push _ _ (by omega : 7 < 8)]
      simp [pendingBits, h7, answered, valueBits]
    · simp [answered]
  · simp only [h8, if_false]
    refine ⟨_, rfl, rfl, by simp; omega, hs, [], by simp, ?_, by simp⟩
    simp only [octetsBits_nil, List.nil_append, pendingBits]
    exact valueBits_push _ _ (by omega)

/-- WriteBits (R131) with an accepting sink. -/
theorem writeBits_grew (v : DoubleWord) (n : Nat) {s : State} (hq : Quiet s) (hw : s.writer.wbits ≤ 7)
    (hs : SinkAccepts s) : ∃ t, writeBits v n s = .ok () t ∧ WriterGrew s t (valueBits v n) := by
  induction n generalizing s with
  | zero => exact ⟨s, rfl, WriterGrew.refl hw hs⟩
  | succ n ih =>
    obtain ⟨t, ht, g⟩ := putBit_grew (v.getLsbD n) hq hw hs
    obtain ⟨u, hu, g'⟩ := ih (s := t) (by rw [Quiet, g.host]; exact hq) g.wbits g.sink
    exact ⟨u, by simp [writeBits, ht, hu], g.trans g'⟩

/-- Writing a one after q zeros is writing the value 1 in q+1 bits (R174). -/
theorem valueBits_one (q : Nat) : valueBits (1 : DoubleWord) (q + 1) = List.replicate q false ++ [true] := by
  induction q with
  | zero => rfl
  | succ q ih =>
    rw [valueBits, ih, List.replicate_succ]
    simp [BitVec.getLsbD_one]

/-! ### The reader -/

/-- What taking `n` bits has done (R134, R136): they are gone from the readable bits, `k` bytes were fetched and counted, and
nothing else changed but what the port holds. -/
structure ReaderTook (s t : State) (n : Nat) : Prop where
  frame : t = { s with
    regs := { s.regs with inBytes := t.regs.inBytes }
    reader := t.reader
    ports := { s.ports with source := t.ports.source, pending := t.ports.pending, log := t.ports.log } }
  rbits : t.reader.rbits ≤ 7
  bits : readableBits t = (readableBits s).drop n
  fetched : ∃ k : Nat,
    s.reader.rbits + 8 * k = n + t.reader.rbits ∧
    t.regs.inBytes = s.regs.inBytes + BitVec.ofNat 32 k ∧
    t.ports.source.script = s.ports.source.script.drop k ∧
    t.ports.source.tail = s.ports.source.tail

theorem ReaderTook.host {s t : State} {n : Nat} (h : ReaderTook s t n) : t.host = s.host := by rw [h.frame]

theorem ReaderTook.ctl {s t : State} {n : Nat} (h : ReaderTook s t n) : t.ctl = s.ctl := by rw [h.frame]

theorem ReaderTook.writer {s t : State} {n : Nat} (h : ReaderTook s t n) : t.writer = s.writer := by rw [h.frame]

theorem ReaderTook.scan {s t : State} {n : Nat} (h : ReaderTook s t n) : t.scan = s.scan := by rw [h.frame]

theorem ReaderTook.word {s t : State} {n : Nat} (h : ReaderTook s t n) : t.word = s.word := by rw [h.frame]

theorem ReaderTook.regs {s t : State} {n : Nat} (h : ReaderTook s t n) :
    t.regs = { s.regs with inBytes := t.regs.inBytes } :=
  congrArg State.regs h.frame

theorem ReaderTook.ports {s t : State} {n : Nat} (h : ReaderTook s t n) :
    t.ports = { s.ports with source := t.ports.source, pending := t.ports.pending, log := t.ports.log } :=
  congrArg State.ports h.frame

theorem ReaderTook.cells {s t : State} {n : Nat} (h : ReaderTook s t n) : t.ports.cells = s.ports.cells :=
  (congrArg Ports.cells h.ports :)

theorem ReaderTook.sinkPort {s t : State} {n : Nat} (h : ReaderTook s t n) : t.ports.sink = s.ports.sink :=
  (congrArg Ports.sink h.ports :)

theorem ReaderTook.plane {s t : State} {n : Nat} (h : ReaderTook s t n) : t.ports.plane = s.ports.plane :=
  (congrArg Ports.plane h.ports :)

theorem ReaderTook.refl {s : State} (h : s.reader.rbits ≤ 7) : ReaderTook s s 0 :=
  ⟨rfl, h, by simp, 0, by simp⟩

theorem ReaderTook.trans {s t u : State} {m n : Nat} (h : ReaderTook s t m) (h' : ReaderTook t u n) :
    ReaderTook s u (m + n) := by
  obtain ⟨f, _, b, k, e, i, p, tl⟩ := h
  obtain ⟨f', r', b', k', e', i', p', tl'⟩ := h'
  refine ⟨by rw [f', f], r', by rw [b', b, List.drop_drop], k + k', by omega, ?_, ?_, by rw [tl', tl]⟩
  · rw [i', i]
    simp [BitVec.ofNat_add, BitVec.add_assoc]
  · rw [p', p, List.drop_drop]

/-- The number of bytes fetched for `n` bits: no more than they need (R136). -/
theorem ReaderTook.inBytes {s t : State} {n : Nat} (h : ReaderTook s t n) (hs : s.reader.rbits ≤ 7) :
    t.regs.inBytes = s.regs.inBytes + BitVec.ofNat 32 ((n - s.reader.rbits + 7) / 8) := by
  obtain ⟨_, r, _, k, e, i, _, _⟩ := h
  rw [i]
  congr 2
  omega

/-- The next readable bit is the next buffered bit, while one is held. -/
theorem readableBits_held {s : State} (h : s.reader.rbits ≠ 0) :
    readableBits s = s.reader.racc.getLsbD (s.reader.rbits - 1) ::
      (valueBits s.reader.racc (s.reader.rbits - 1) ++ octetsBits (comingBytes s.ports.source.script)) := by
  obtain ⟨m, hm⟩ := Nat.exists_eq_succ_of_ne_zero h
  simp [readableBits, hm, valueBits]

/-- With no bit held and a readable one, the source's next answer is a scripted byte. -/
theorem source_of_readable {s : State} (h0 : s.reader.rbits = 0) {b : Bool} {rest : List Bool}
    (h : readableBits s = b :: rest) :
    ∃ v more, s.ports.source.script = .data v :: more := by
  unfold readableBits at h
  rw [h0] at h
  cases hs : s.ports.source.script with
  | nil => simp [hs, valueBits, comingBytes] at h
  | cons c more =>
    rw [hs] at h
    cases c with
    | data v => exact ⟨v, more, rfl⟩
    | eos => simp [valueBits, comingBytes] at h
    | error => simp [valueBits, comingBytes] at h
    | silent => simp [valueBits, comingBytes] at h

/-- GetBit (R134) takes the next readable bit. -/
theorem getBit_took {s : State} (hq : Quiet s) (hr : s.reader.rbits ≤ 7) {b : Bool} {rest : List Bool}
    (h : readableBits s = b :: rest) : ∃ t, getBit s = .ok b t ∧ ReaderTook s t 1 := by
  unfold getBit
  by_cases h0 : s.reader.rbits = 0
  · obtain ⟨v, more, hsrc⟩ := source_of_readable h0 h
    have hn : s.ports.source.next = .data v := by rw [Port.next, hsrc]
    have hr : s.ports.source.rest = { script := more, tail := s.ports.source.tail } := by rw [Port.rest, hsrc]
    have hb : b :: rest = v.getLsbD 7 :: (valueBits v 7 ++ octetsBits (comingBytes more)) := by
      rw [← h, readableBits, h0, hsrc]
      simp [valueBits, comingBytes]
    simp only [h0, if_true]
    rw [sourceFetch_data hq hn]
    simp only [Res.bind_ok, takeBit]
    refine ⟨_, by rw [(List.cons.inj hb).1], ?_, by simp, ?_, 1, by simp; omega, by simp [answered], by simp [answered, hr, hsrc], ?_⟩
    · rfl
    · rw [h, hb]
      simp [readableBits, answered, hr]
    · simp [answered, hr]
  · simp only [h0, if_false, takeBit]
    have hb := (readableBits_held h0).symm.trans h
    refine ⟨{ s with reader.rbits := s.reader.rbits - 1 }, by rw [← (List.cons.inj hb).1], rfl, ?_, ?_, 0, ?_, by simp,
      by simp, rfl⟩
    · show s.reader.rbits - 1 ≤ 7
      omega
    · rw [readableBits_held h0]
      rfl
    · show s.reader.rbits + 8 * 0 = 1 + (s.reader.rbits - 1)
      omega

/-- ReadBits (R135) takes the next n readable bits, appended to the bits taken before. -/
theorem readBits_took (n : Nat) (v : DoubleWord) {s : State} (hq : Quiet s) (hr : s.reader.rbits ≤ 7)
    (h : n ≤ (readableBits s).length) :
    ∃ t, readBits n v s =
        .ok (BitVec.ofNat 64 (v.toNat * 2 ^ n + bitsNat ((readableBits s).take n))) t ∧ ReaderTook s t n := by
  induction n generalizing s v with
  | zero =>
    refine ⟨s, ?_, ReaderTook.refl hr⟩
    simp [readBits, bitsNat]
  | succ n ih =>
    cases hb : readableBits s with
    | nil => simp [hb] at h
    | cons b rest =>
      obtain ⟨t, ht, g⟩ := getBit_took hq hr hb
      have hrest : readableBits t = rest := by rw [g.bits, hb]; rfl
      obtain ⟨u, hu, g'⟩ := ih ((v <<< 1) ||| (BitVec.ofBool b).setWidth 64) (s := t)
        (by rw [Quiet, g.host]; exact hq) g.rbits (by rw [hrest]; simpa [hb] using h)
      refine ⟨u, ?_, by rw [Nat.add_comm n 1]; exact g.trans g'⟩
      simp only [readBits, ht, Res.bind_ok]
      rw [hu, hrest]
      congr 1
      have hor : ((v <<< 1) ||| (BitVec.ofBool b).setWidth 64) = BitVec.ofNat 64 (2 * v.toNat + b.toNat) := by
        apply BitVec.eq_of_toNat_eq
        rw [BitVec.toNat_or, BitVec.toNat_shiftLeft, BitVec.toNat_ofNat]
        cases b
        · simp [Nat.shiftLeft_eq, Nat.mul_comm]
        · simp only [BitVec.ofBool_true, Bool.toNat_true, Nat.shiftLeft_eq, pow_one]
          change v.toNat * 2 % 2 ^ 64 ||| 1 = _
          have : v.toNat * 2 % 2 ^ 64 = 2 * (v.toNat % 2 ^ 63) := by omega
          rw [this]
          have h2 : 2 * (v.toNat % 2 ^ 63) ||| 1 = 2 * (v.toNat % 2 ^ 63) + 1 := by
            have h3 := Nat.two_pow_add_eq_or_of_lt (i := 1) (b := 1) (by omega) (v.toNat % 2 ^ 63)
            rw [pow_one] at h3
            exact h3.symm
          rw [h2]
          omega
      apply BitVec.eq_of_toNat_eq
      rw [hor, List.take_succ_cons, bitsNat_cons]
      simp only [BitVec.toNat_ofNat, List.length_take, Nat.min_eq_left (by simpa [hb] using h : n ≤ rest.length)]
      rw [Nat.add_mod, Nat.mod_mul_mod, ← Nat.add_mod, pow_succ]
      congr 1
      ring

end Sys2Proof.Machine
end

