-- ==== Sys2Proof/Laws/Rice.lean ====
section
/-! SUPPORT. The exit flush and the Rice coder while no outside action lands: the bits they append to the sink's stream and
take from the source's. -/

namespace Sys2Proof.Machine

open Sys2Proof.Safety

/-! ### FlushWriter -/

theorem valueBits_padByte (w : Writer) (h0 : 0 < w.wbits) (h : w.wbits ≤ 7) :
    valueBits (padByte w) 8 = padded (pendingBits w) := by
  obtain ⟨acc, n⟩ := w
  simp only [padByte, pendingBits, padded, valueBits_length] at *
  interval_cases n <;> simp [valueBits, List.replicate]

/-- What FlushWriter (R132) has done with an accepting sink: the pad byte, if there was a pending bit, then FLUSH, and
nothing else changed but the writer, OUT_BYTES and what the port holds. -/
structure WriterFlushed (s t : State) : Prop where
  frame : t = { s with
    regs := { s.regs with outBytes := t.regs.outBytes }
    writer := t.writer
    ports := { s.ports with sink := t.ports.sink, pending := none, log := t.ports.log } }
  wbits : t.writer.wbits = 0
  sink : SinkAccepts t
  sent : ∃ pad : List Octet,
    t.ports.log = s.ports.log ++ pad.map sentByte ++ [{ request := .flush, answer := .ok }] ∧
    octetsBits pad = padded (pendingBits s.writer) ∧
    t.regs.outBytes = s.regs.outBytes + BitVec.ofNat 32 pad.length

/-- FlushWriter (R132) with an accepting sink. -/
theorem flushWriter_accepted (report : Bool) {s : State} (hq : Quiet s) (hw : s.writer.wbits ≤ 7) (hs : SinkAccepts s) :
    ∃ t, flushWriter report s = .ok () t ∧ WriterFlushed s t := by
  have hn := SinkAccepts.next hs
  unfold flushWriter flushPad
  by_cases h0 : 0 < s.writer.wbits
  · simp only [h0, if_true]
    rw [sinkByte_accepted _ (by exact hq) (by exact hn.1)]
    have hs' : portAll (fun c => c == .ok) s.ports.sink.rest = true := hn.2
    have hn' := portAll_next hs'
    simp only [Res.bind_ok, Bool.true_or, if_true, sinkFlush]
    rw [sinkRequest_accepted .flush (by exact hq) (by simpa [answered] using hn'.1)]
    simp only [Res.bind_ok, Bool.true_or, if_true]
    refine ⟨_, rfl, rfl, rfl, hn'.2, [padByte s.writer], ?_, ?_, ?_⟩
    · simp [answered, sentByte]
    · simpa using valueBits_padByte s.writer h0 hw
    · simp [answered]
  · have hz : s.writer.wbits = 0 := by omega
    simp only [h0, if_false, Res.bind_ok, sinkFlush]
    rw [sinkRequest_accepted .flush hq hn.1]
    simp only [Res.bind_ok, Bool.true_or, if_true]
    refine ⟨_, rfl, rfl, hz, hn.2, [], ?_, ?_, ?_⟩
    · simp [answered]
    · simp [padded, pendingBits, hz, valueBits]
    · simp [answered]

/-! ### The parameter -/

/-- The search stops at or before any k that is large enough (R171). -/
theorem kSearch_le {level : Nat} (fuel : Nat) {k m : Nat} (hk : k ≤ m) (hm : level ≤ 3 * 2 ^ m) :
    kSearch level fuel k ≤ m := by
  induction fuel generalizing k with
  | zero => exact hk
  | succ fuel ih =>
    rw [kSearch]
    split
    · exact hk
    · next h =>
      have : k ≠ m := by rintro rfl; exact h hm
      exact ih (by omega)

/-- The parameter of four samples fits in K (R46, R176). -/
theorem computeK_le (a b c d : Sample) : computeK a b c d ≤ 16 := by
  refine kSearch_le _ (by omega) ?_
  unfold activity
  omega

/-! ### RiceEncode -/

theorem valueBits_setWidth (v : Word) (n : Nat) : valueBits (v.setWidth 64) n = valueBits v n := by
  induction n with
  | zero => rfl
  | succ n ih =>
    simp only [valueBits, ih, BitVec.getLsbD_setWidth]
    congr 1
    by_cases h : n < 64
    · simp [h]
    · simp [h, BitVec.getLsbD_of_ge v n (by omega)]

/-- RiceEncode (R174) with an accepting sink appends the codeword. -/
theorem riceEncode_grew (k : Nat) (x : Word) {s : State} (hq : Quiet s) (hw : s.writer.wbits ≤ 7) (hs : SinkAccepts s) :
    ∃ t, riceEncode k x s = .ok () t ∧
      WriterGrew { s with word.prefixLen := (quotient k x).setWidth 33 + 1 } t (codeword k x) := by
  have hp : ((quotient k x).setWidth 33 + 1 : BitVec 33).toNat = (quotient k x).toNat + 1 := by
    have := (quotient k x).isLt
    simp
    omega
  obtain ⟨t, ht, g⟩ := writeBits_grew 1 ((quotient k x).toNat + 1)
    (s := { s with word.prefixLen := (quotient k x).setWidth 33 + 1 }) hq hw hs
  obtain ⟨u, hu, g'⟩ := writeBits_grew ((remainder k x).setWidth 64) k (s := t)
    (by rw [Quiet, g.host]; exact hq) g.wbits g.sink
  refine ⟨u, ?_, ?_⟩
  · simp only [riceEncode, hp]
    rw [ht]
    exact hu
  · have := g.trans g'
    rw [valueBits_one, valueBits_setWidth] at this
    simpa [codeword] using this

/-- The quotient and the remainder make up the folded residual (R174). -/
theorem quotient_remainder (k : Nat) (hk : k ≤ 31) (x : Word) :
    (quotient k x).toNat * 2 ^ k + (remainder k x).toNat = (fold x).toNat ∧ (remainder k x).toNat < 2 ^ k := by
  have hp : 2 ^ k < 2 ^ 32 := Nat.pow_lt_pow_right (by omega) (by omega)
  have h1 : 1 ≤ 2 ^ k := Nat.one_le_two_pow
  have hr : (remainder k x).toNat = (fold x).toNat % 2 ^ k := by
    rw [remainder, BitVec.toNat_and, BitVec.toNat_ofNat, Nat.mod_eq_of_lt (by omega), Nat.and_two_pow_sub_one_eq_mod]
  rw [hr, quotient, BitVec.toNat_ushiftRight, Nat.shiftRight_eq_div_pow]
  exact ⟨by rw [Nat.mul_comm]; exact Nat.div_add_mod _ _, Nat.mod_lt _ (by omega)⟩

theorem codeword_length (k : Nat) (x : Word) : (codeword k x).length = (quotient k x).toNat + 1 + k := by
  simp [codeword]
  omega

/-! ### RiceDecode -/

theorem comingBytes_length (l : List SourceChoice) : (comingBytes l).length ≤ l.length := by
  induction l with
  | nil => simp [comingBytes]
  | cons c l ih =>
    cases c with
    | data v => simpa [comingBytes] using ih
    | eos => simp [comingBytes]
    | error => simp [comingBytes]
    | silent => simp [comingBytes]

theorem readableBits_length (s : State) : (readableBits s).length < prefixFuel s := by
  have := comingBytes_length s.ports.source.script
  simp [readableBits, prefixFuel]
  omega

/-- The prefix loop (R175) counts the zeros before the next one bit and takes them and it. -/
theorem countPrefix_took (fuel q : Nat) {s : State} {rest : List Bool} (hq : Quiet s) (hr : s.reader.rbits ≤ 7)
    (h : readableBits s = List.replicate q false ++ true :: rest) (hf : q < fuel) :
    ∃ t, countPrefix fuel s = .ok () t ∧
      ReaderTook { s with word.q := s.word.q + BitVec.ofNat 32 q } t (q + 1) := by
  induction q generalizing s fuel with
  | zero =>
    obtain ⟨n, rfl⟩ := Nat.exists_eq_succ_of_ne_zero (by omega : fuel ≠ 0)
    obtain ⟨t, ht, g⟩ := getBit_took hq hr (by simpa using h)
    refine ⟨t, by simp [countPrefix, ht], ?_⟩
    simpa using g
  | succ q ih =>
    obtain ⟨n, rfl⟩ := Nat.exists_eq_succ_of_ne_zero (by omega : fuel ≠ 0)
    obtain ⟨t, ht, g⟩ := getBit_took (b := false) (rest := List.replicate q false ++ true :: rest) hq hr
      (by simpa [List.replicate_succ] using h)
    obtain ⟨u, hu, g'⟩ := ih n (s := { t with word.q := t.word.q + 1 }) (by rw [Quiet]; exact g.host ▸ hq) g.rbits
      (by show readableBits t = _; rw [g.bits, h]; simp [List.replicate_succ]) (by omega)
    refine ⟨u, by simpa [countPrefix, ht] using hu, ?_⟩
    have hw : t.word = s.word := g.word
    have g1 : ReaderTook { s with word.q := s.word.q + BitVec.ofNat 32 (q + 1) }
        { t with word.q := t.word.q + 1 + BitVec.ofNat 32 q } 1 := by
      refine ⟨?_, g.rbits, g.bits, g.fetched⟩
      have := g.frame
      have he : s.word.q + BitVec.ofNat 32 (q + 1) = t.word.q + 1 + BitVec.ofNat 32 q := by
        rw [hw, BitVec.ofNat_add]
        ac_rfl
      rw [he]
      generalize t.word.q + 1 + BitVec.ofNat 32 q = z
      conv_lhs => rw [this]
    rw [Nat.add_comm (q + 1) 1]
    exact g1.trans g'

/-- x' of RiceDecode (R175) as a number. -/
theorem assemble_ofNat {k : Nat} (hk : k ≤ 31) (q : Nat) {b : Nat} (hb : b < 2 ^ k) :
    assemble k (BitVec.ofNat 32 q) (BitVec.ofNat 64 b) = BitVec.ofNat 32 (q * 2 ^ k + b) := by
  have hp : 2 ^ k ≤ 2 ^ 31 := Nat.pow_le_pow_right (by omega) hk
  apply BitVec.eq_of_toNat_eq
  simp only [assemble, BitVec.toNat_or, BitVec.toNat_shiftLeft, BitVec.toNat_ofNat, BitVec.toNat_setWidth, Nat.shiftLeft_eq]
  rw [Nat.mod_eq_of_lt (by omega : b < 2 ^ 64), Nat.mod_eq_of_lt (by omega : b < 2 ^ 32), Nat.mod_mul_mod]
  have hsplit : q * 2 ^ k % 2 ^ 32 = 2 ^ k * (q % 2 ^ (32 - k)) := by
    have : (2 : Nat) ^ 32 = 2 ^ k * 2 ^ (32 - k) := by rw [← pow_add]; congr 1; omega
    rw [this, Nat.mul_comm q, Nat.mul_mod_mul_left]
  have hm : q % 2 ^ (32 - k) < 2 ^ (32 - k) := Nat.mod_lt _ (by positivity)
  have hlt : 2 ^ k * (q % 2 ^ (32 - k)) + b < 2 ^ 32 :=
    calc 2 ^ k * (q % 2 ^ (32 - k)) + b < 2 ^ k * (q % 2 ^ (32 - k)) + 2 ^ k := by omega
      _ = 2 ^ k * (q % 2 ^ (32 - k) + 1) := by ring
      _ ≤ 2 ^ k * 2 ^ (32 - k) := Nat.mul_le_mul_left _ hm
      _ = 2 ^ 32 := by rw [← pow_add]; congr 1; omega
  rw [hsplit, ← Nat.two_pow_add_eq_or_of_lt hb, Nat.add_mod, hsplit, Nat.mod_eq_of_lt (by omega : b < 2 ^ 32),
    Nat.mod_eq_of_lt hlt]

/-- RiceDecode (R175) takes one codeword and returns the unfolded ((q << k) OR r) mod 2^32. -/
theorem riceDecode_took (k q : Nat) {s : State} {r rest : List Bool} (hq : Quiet s) (hr : s.reader.rbits ≤ 7) (hk : k ≤ 31)
    (h : readableBits s = List.replicate q false ++ true :: (r ++ rest)) (hl : r.length = k) :
    ∃ t, riceDecode k s = .ok (Machine.unfold (BitVec.ofNat 32 (q * 2 ^ k + bitsNat r))) t ∧
      ReaderTook { s with word.q := BitVec.ofNat 32 q } t (q + 1 + k) ∧ readableBits t = rest := by
  have hf : q < prefixFuel s := by
    have := readableBits_length s
    rw [h] at this
    simp at this
    omega
  obtain ⟨t, ht, g⟩ := countPrefix_took (prefixFuel s) q (s := { s with word.q := 0 }) (rest := r ++ rest) hq hr h hf
  have hb : readableBits t = r ++ rest := by
    rw [g.bits]
    show (readableBits s).drop (q + 1) = _
    rw [h, List.drop_append]
    simp
  obtain ⟨u, hu, g'⟩ := readBits_took k 0 (s := t) (by rw [Quiet, g.host]; exact hq) g.rbits
    (by rw [hb]; simp; omega)
  have hqq : t.word.q = BitVec.ofNat 32 q := by rw [g.word]; simp
  refine ⟨u, ?_, by simpa using g.trans g', ?_⟩
  · simp only [riceDecode]
    rw [ht]
    simp only [Res.bind_ok]
    rw [hu]
    simp only [Res.bind_ok]
    congr 2
    rw [g'.word, hqq, hb]
    have hlt := bitsNat_lt r
    rw [hl] at hlt
    rw [List.take_left' hl, ← assemble_ofNat hk q hlt]
    congr 2
    show 0 * 2 ^ k + bitsNat r = bitsNat r
    omega
  · rw [g'.bits, hb, ← hl, List.drop_left]

end Sys2Proof.Machine
end

