-- ==== Sys2Proof/Laws/StreamErrors.lean ====
section
/-! SUPPORT. The writer and the reader when a port answers with an error, while no outside action lands: what was sent or
taken before it, and what is left. -/

namespace Sys2Proof.Machine

open Sys2Proof.Safety

/-! ### A byte the sink refuses (R130, R285) -/

/-- PutBit while the byte is not full yet. -/
theorem putBit_short (b : Bool) {s : State} (h : s.writer.wbits + 1 ≠ 8) :
    putBit b s = .ok ()
      { s with
        writer.wacc := (s.writer.wacc <<< 1) ||| (BitVec.ofBool b).setWidth 8
        writer.wbits := s.writer.wbits + 1 } := by
  simp [putBit, h]

/-- PutBit of the bit that fills a byte, which the sink refuses. -/
theorem putBit_refused (b : Bool) {s : State} (hq : Quiet s) (h : s.writer.wbits = 7) (hc : s.ports.sink.next = .error) :
    putBit b s = .raised .ioError
      (answered (.byte ((s.writer.wacc <<< 1) ||| (BitVec.ofBool b).setWidth 8)) .error
        { s with writer.wacc := 0, writer.wbits := 0, ports.sink := s.ports.sink.rest }) := by
  simp only [putBit, h, Nat.reduceAdd, if_true]
  rw [sinkByte_refused _ (by exact hq) (by exact hc)]
  rfl

/-- PutBit of the bit that fills a byte, which the sink accepts. -/
theorem putBit_accepted (b : Bool) {s : State} (hq : Quiet s) (h : s.writer.wbits = 7) (hc : s.ports.sink.next = .ok) :
    putBit b s = .ok ()
      (answered (.byte ((s.writer.wacc <<< 1) ||| (BitVec.ofBool b).setWidth 8)) .ok
        { s with
          writer.wacc := 0
          writer.wbits := 0
          ports.sink := s.ports.sink.rest
          regs.outBytes := s.regs.outBytes + 1 }) := by
  simp only [putBit, h, Nat.reduceAdd, if_true]
  rw [sinkByte_accepted _ (by exact hq) (by exact hc)]
  rfl

/-- What a write that the sink stopped has done: `sent` went out, `lost` was refused, nothing stays pending. -/
structure WriterStopped (s t : State) (sent : List Octet) (lost : Octet) (more : List SinkChoice) : Prop where
  frame : t = { s with
    regs := { s.regs with outBytes := s.regs.outBytes + BitVec.ofNat 32 sent.length }
    writer := { wacc := 0, wbits := 0 }
    ports := { s.ports with
      sink := { script := more, tail := s.ports.sink.tail }
      pending := none
      log := s.ports.log ++ sent.map sentByte ++ [{ request := .byte lost, answer := .error }] } }

/-- WriteBits (R131) into a sink that refuses byte number j. -/
theorem writeBits_refused (v : DoubleWord) (n j : Nat) {more : List SinkChoice} {s : State} (hq : Quiet s)
    (hw : s.writer.wbits ≤ 7) (hs : s.ports.sink.script = List.replicate j .ok ++ .error :: more)
    (hn : 8 * (j + 1) ≤ s.writer.wbits + n) :
    ∃ t sent lost, writeBits v n s = .raised .ioError t ∧ WriterStopped s t sent lost more ∧ sent.length = j ∧
      octetsBits (sent ++ [lost]) = (pendingBits s.writer ++ valueBits v n).take (8 * (j + 1)) := by
  induction n generalizing s j with
  | zero => omega
  | succ n ih =>
    by_cases h7 : s.writer.wbits = 7
    · have hpush : valueBits ((s.writer.wacc <<< 1) ||| (BitVec.ofBool (v.getLsbD n)).setWidth 8) 8 =
          pendingBits s.writer ++ [v.getLsbD n] := by
        rw [valueBits_push _ _ (by omega : 7 < 8), pendingBits, h7]
      cases j with
      | zero =>
        have hc : s.ports.sink.next = .error := by simp [Port.next, hs]
        have hr : s.ports.sink.rest = { script := more, tail := s.ports.sink.tail } := by simp [Port.rest, hs]
        refine ⟨_, [], (s.writer.wacc <<< 1) ||| (BitVec.ofBool (v.getLsbD n)).setWidth 8,
          by rw [writeBits, putBit_refused _ hq h7 hc]; rfl, ⟨?_⟩, rfl, ?_⟩
        · simp [answered, hr]
        · rw [List.nil_append, octetsBits_cons, hpush, valueBits]
          simp [pendingBits, h7, List.take_append]
      | succ j =>
        have hc : s.ports.sink.next = .ok := by simp [Port.next, hs, List.replicate_succ]
        have hr : s.ports.sink.rest = { script := List.replicate j .ok ++ .error :: more, tail := s.ports.sink.tail } := by
          simp [Port.rest, hs, List.replicate_succ]
        obtain ⟨t, sent, lost, ht, hf, hl, hb⟩ := ih j
          (s := answered (.byte ((s.writer.wacc <<< 1) ||| (BitVec.ofBool (v.getLsbD n)).setWidth 8)) .ok
            { s with
              writer.wacc := 0
              writer.wbits := 0
              ports.sink := s.ports.sink.rest
              regs.outBytes := s.regs.outBytes + 1 })
          hq (by simp [answered]) (by simp [answered, hr]) (by simp [answered]; omega)
        refine ⟨t, ((s.writer.wacc <<< 1) ||| (BitVec.ofBool (v.getLsbD n)).setWidth 8) :: sent, lost,
          by rw [writeBits, putBit_accepted _ hq h7 hc]; exact ht, ⟨?_⟩, by simp [hl], ?_⟩
        · rw [hf.frame]
          simp [answered, sentByte, hr, BitVec.ofNat_add]
          ac_rfl
        · rw [List.cons_append, octetsBits_cons, hpush, hb, valueBits]
          have hp : (pendingBits s.writer).length = 7 := by simp [pendingBits, h7]
          have : 8 * (j + 1 + 1) = 8 * (j + 1) + 8 := by ring
          simp only [answered, pendingBits, valueBits, List.nil_append] at *
          rw [this, ← List.singleton_append (l := valueBits v n), ← List.append_assoc, List.take_append]
          have hlen : (valueBits s.writer.wacc s.writer.wbits ++ [v.getLsbD n]).length = 8 := by simp [h7]
          rw [List.take_of_length_le (l := valueBits s.writer.wacc s.writer.wbits ++ [v.getLsbD n]) (by rw [hlen]; omega), hlen,
            Nat.add_sub_cancel]
    · obtain ⟨t, sent, lost, ht, hf, hl, hb⟩ := ih j
          (s := { s with
            writer.wacc := (s.writer.wacc <<< 1) ||| (BitVec.ofBool (v.getLsbD n)).setWidth 8
            writer.wbits := s.writer.wbits + 1 })
          hq (by show s.writer.wbits + 1 ≤ 7; omega) hs (by show _ ≤ s.writer.wbits + 1 + n; omega)
      refine ⟨t, sent, lost, by rw [writeBits, putBit_short _ (by omega)]; exact ht, ⟨hf.frame⟩, hl, ?_⟩
      rw [hb]
      simp only [pendingBits]
      rw [valueBits_push _ _ (by omega), valueBits]
      simp

/-- What writing `bits` into a sink that accepts every byte of it has done, whatever the sink does later: `sent` went out, the
rest is pending, and nothing else changed. -/
structure WriterSent (s t : State) (bits : List Bool) (sent : List Octet) : Prop where
  frame : t = { s with
    regs := { s.regs with outBytes := s.regs.outBytes + BitVec.ofNat 32 sent.length }
    writer := t.writer
    ports := { s.ports with
      sink := { script := s.ports.sink.script.drop sent.length, tail := s.ports.sink.tail }
      pending := t.ports.pending
      log := s.ports.log ++ sent.map sentByte } }
  wbits : t.writer.wbits ≤ 7
  stream : octetsBits sent ++ pendingBits t.writer = pendingBits s.writer ++ bits

theorem WriterSent.trans {s t u : State} {b c : List Bool} {l m : List Octet} (h : WriterSent s t b l)
    (h' : WriterSent t u c m) : WriterSent s u (b ++ c) (l ++ m) := by
  refine ⟨?_, h'.wbits, ?_⟩
  · have hf := h'.frame
    rw [h.frame] at hf
    simpa [BitVec.ofNat_add, BitVec.add_assoc, List.drop_drop, Nat.add_comm] using hf
  · rw [octetsBits_append, List.append_assoc, h'.stream, ← List.append_assoc, h.stream, List.append_assoc]

/-- A write that stops, after bits that were accepted. -/
theorem WriterStopped.after {s t u : State} {bits : List Bool} {l sent : List Octet} {lost : Octet}
    {more : List SinkChoice} (h : WriterSent s t bits l) (g : WriterStopped t u sent lost more) :
    WriterStopped s u (l ++ sent) lost more := by
  refine ⟨?_⟩
  have hf := g.frame
  rw [h.frame] at hf
  simpa [BitVec.ofNat_add, BitVec.add_assoc] using hf

/-- WriteBits (R131) into a sink that accepts the `j` bytes it could be asked for. -/
theorem writeBits_sent (v : DoubleWord) (n j : Nat) {rest : List SinkChoice} {s : State} (hq : Quiet s)
    (hw : s.writer.wbits ≤ 7) (hs : s.ports.sink.script = List.replicate j .ok ++ rest)
    (hn : s.writer.wbits + n < 8 * (j + 1)) :
    ∃ t sent, writeBits v n s = .ok () t ∧ WriterSent s t (valueBits v n) sent := by
  induction n generalizing s j with
  | zero => exact ⟨s, [], rfl, by simp, hw, by simp [valueBits]⟩
  | succ n ih =>
    by_cases h7 : s.writer.wbits = 7
    · obtain ⟨i, rfl⟩ := Nat.exists_eq_succ_of_ne_zero (by omega : j ≠ 0)
      have hc : s.ports.sink.next = .ok := by simp [Port.next, hs, List.replicate_succ]
      have hr : s.ports.sink.rest = { script := List.replicate i .ok ++ rest, tail := s.ports.sink.tail } := by
        simp [Port.rest, hs, List.replicate_succ]
      obtain ⟨t, sent, ht, g⟩ := ih i
        (s := answered (.byte ((s.writer.wacc <<< 1) ||| (BitVec.ofBool (v.getLsbD n)).setWidth 8)) .ok
          { s with
            writer.wacc := 0
            writer.wbits := 0
            ports.sink := s.ports.sink.rest
            regs.outBytes := s.regs.outBytes + 1 })
        hq (by simp [answered]) (by simp [answered, hr]) (by simp [answered]; omega)
      refine ⟨t, [(s.writer.wacc <<< 1) ||| (BitVec.ofBool (v.getLsbD n)).setWidth 8] ++ sent,
        by rw [writeBits, putBit_accepted _ hq h7 hc]; exact ht, ?_⟩
      refine WriterSent.trans (b := [v.getLsbD n]) ⟨?_, by simp [answered], ?_⟩ g
      · simp [answered, sentByte, hr, hs, List.replicate_succ]
      · rw [octetsBits_cons, valueBits_push _ _ (by omega : 7 < 8)]
        simp [answered, pendingBits, h7, valueBits]
    · obtain ⟨t, sent, ht, g⟩ := ih j
        (s := { s with
          writer.wacc := (s.writer.wacc <<< 1) ||| (BitVec.ofBool (v.getLsbD n)).setWidth 8
          writer.wbits := s.writer.wbits + 1 })
        hq (by show s.writer.wbits + 1 ≤ 7; omega) hs (by show s.writer.wbits + 1 + n < _; omega)
      refine ⟨t, sent, by rw [writeBits, putBit_short _ (by omega)]; exact ht, ?_⟩
      refine WriterSent.trans (b := [v.getLsbD n]) (l := []) ⟨by simp, by show s.writer.wbits + 1 ≤ 7; omega, ?_⟩ g
      simp only [octetsBits_nil, List.nil_append, pendingBits]
      exact valueBits_push _ _ (by omega)

/-- RiceEncode (R174) into a sink that refuses byte number j. -/
theorem riceEncode_refused (k : Nat) (x : Word) (j : Nat) {more : List SinkChoice} {s : State} (hq : Quiet s)
    (hw : s.writer.wbits ≤ 7) (hs : s.ports.sink.script = List.replicate j .ok ++ .error :: more)
    (hn : 8 * (j + 1) ≤ s.writer.wbits + (codeword k x).length) :
    ∃ t sent lost, riceEncode k x s = .raised .ioError t ∧
      WriterStopped { s with word.prefixLen := (quotient k x).setWidth 33 + 1 } t sent lost more ∧ sent.length = j ∧
      octetsBits (sent ++ [lost]) = (pendingBits s.writer ++ codeword k x).take (8 * (j + 1)) := by
  have hp : ((quotient k x).setWidth 33 + 1 : BitVec 33).toNat = (quotient k x).toNat + 1 := by
    have := (quotient k x).isLt
    simp
    omega
  have hc : codeword k x = valueBits (1 : DoubleWord) ((quotient k x).toNat + 1) ++ valueBits ((remainder k x).setWidth 64) k := by
    rw [valueBits_one, valueBits_setWidth]
    simp [codeword]
  have hlen : (pendingBits s.writer).length = s.writer.wbits := by simp [pendingBits]
  simp only [riceEncode, hp]
  by_cases h1 : 8 * (j + 1) ≤ s.writer.wbits + ((quotient k x).toNat + 1)
  · obtain ⟨t, sent, lost, ht, hf, hl, hb⟩ := writeBits_refused 1 ((quotient k x).toNat + 1) j
      (s := { s with word.prefixLen := (quotient k x).setWidth 33 + 1 }) hq hw hs h1
    refine ⟨t, sent, lost, by rw [ht]; rfl, hf, hl, ?_⟩
    rw [hb, hc, ← List.append_assoc, List.take_append_of_le_length (l₁ := _ ++ _) (by simp [hlen]; omega)]
  · obtain ⟨t, l, ht, g⟩ := writeBits_sent 1 ((quotient k x).toNat + 1) j
      (s := { s with word.prefixLen := (quotient k x).setWidth 33 + 1 }) hq hw hs (by show s.writer.wbits + _ < _; omega)
    have hcount := congrArg List.length g.stream
    simp [pendingBits] at hcount
    have hwb := g.wbits
    rw [codeword_length] at hn
    have hf := g.frame
    obtain ⟨u, sent, lost, hu, h, hl, hb⟩ := writeBits_refused ((remainder k x).setWidth 64) k (j - l.length) (more := more)
      (s := t) (by rw [Quiet, hf]; exact hq) hwb
      (by rw [hf]
          show s.ports.sink.script.drop l.length = _
          rw [hs, List.drop_append_of_le_length (by simp; omega), List.drop_replicate])
      (by omega)
    refine ⟨u, l ++ sent, lost, by rw [ht]; exact hu, WriterStopped.after g h, by simp; omega, ?_⟩
    rw [List.append_assoc, octetsBits_append, hb, hc, ← List.append_assoc]
    have hst := g.stream
    change _ = pendingBits s.writer ++ _ at hst
    have hsplit : 8 * (j + 1) = (octetsBits l).length + 8 * (j - l.length + 1) := by
      rw [octetsBits_length]
      omega
    rw [← hst, List.append_assoc, hsplit, List.take_length_add_append]

/-! ### A source that does not give the bits (R134, R285, R286) -/

/-- The code that a FETCH raises when it is answered with this instead of DATA (R78). -/
def sourceError (last : SourceChoice) : ErrCode := if last = .eos then .eos else .ioError

/-- What a read that the source stopped has done: the `count` bytes before it were fetched and their bits are gone. -/
structure ReaderStopped (s t : State) (count : Nat) (more : List SourceChoice) : Prop where
  frame : t = { s with
    regs := { s.regs with inBytes := s.regs.inBytes + BitVec.ofNat 32 count }
    reader := t.reader
    ports := { s.ports with
      source := { script := more, tail := s.ports.source.tail }
      pending := none
      log := t.ports.log } }
  rbits : t.reader.rbits = 0

theorem sourceFetch_stopped {last : SourceChoice} {s : State} (hq : Quiet s) (hl : last = .eos ∨ last = .error)
    (hc : s.ports.source.next = last) :
    ∃ a, sourceFetch s = .raised (sourceError last) (answered .fetch a { s with ports.source := s.ports.source.rest }) := by
  rcases hl with rfl | rfl
  · exact ⟨.eos, sourceFetch_eos hq hc⟩
  · exact ⟨.error, sourceFetch_error hq hc⟩

/-- GetBit with no bit in reach. -/
theorem getBit_stopped {last : SourceChoice} {more : List SourceChoice} {s : State} (hq : Quiet s)
    (hl : last = .eos ∨ last = .error) (h0 : s.reader.rbits = 0) (hs : s.ports.source.script = last :: more) :
    ∃ t, getBit s = .raised (sourceError last) t ∧ ReaderStopped s t 0 more := by
  obtain ⟨a, ha⟩ := sourceFetch_stopped hq hl (by simp [Port.next, hs])
  refine ⟨answered .fetch a { s with ports.source := s.ports.source.rest },
    by simp only [getBit, h0, if_true]; rw [ha]; rfl, ?_, h0⟩
  simp [answered, Port.rest, hs]

/-- GetBit before the source stops: the script keeps its form. -/
theorem getBit_before_stop {bytes : List Octet} {last : SourceChoice} {more : List SourceChoice} {s : State} (hq : Quiet s)
    (hr : s.reader.rbits ≤ 7) (hs : s.ports.source.script = bytes.map .data ++ last :: more)
    (h : 0 < s.reader.rbits + 8 * bytes.length) :
    ∃ (b : Bool) (t : State) (rest : List Octet), getBit s = .ok b t ∧ ReaderTook s t 1 ∧ t.ports.source.script = rest.map .data ++ last :: more ∧
      t.ports.source.tail = s.ports.source.tail ∧
      t.reader.rbits + 8 * rest.length + 1 = s.reader.rbits + 8 * bytes.length ∧
      t.regs.inBytes + BitVec.ofNat 32 rest.length = s.regs.inBytes + BitVec.ofNat 32 bytes.length := by
  have hlen : readableBits s ≠ [] := by
    intro he
    have := congrArg List.length he
    cases bytes with
    | nil => simp [readableBits] at this; simp at h; omega
    | cons v bytes => simp [readableBits, hs, comingBytes] at this
  obtain ⟨b, tl, hb⟩ := List.exists_cons_of_ne_nil hlen
  obtain ⟨t, ht, g⟩ := getBit_took hq hr hb
  obtain ⟨k, he, hi, hscr, htl⟩ := g.fetched
  have hk : k ≤ bytes.length := by have := g.rbits; omega
  refine ⟨b, t, bytes.drop k, ht, g, ?_, htl, ?_, ?_⟩
  · rw [hscr, hs, List.drop_append_of_le_length (by simpa using hk), List.map_drop]
  · simp; omega
  · rw [hi, BitVec.add_assoc, ← BitVec.ofNat_add]
    congr 2
    simp
    omega

/-- Stopping after bits that were taken. -/
theorem ReaderStopped.after {s t u : State} {m n k : Nat} {more : List SourceChoice} (g : ReaderTook s t k)
    (h : ReaderStopped t u m more) (htl : t.ports.source.tail = s.ports.source.tail)
    (hi : t.regs.inBytes + BitVec.ofNat 32 m = s.regs.inBytes + BitVec.ofNat 32 n) : ReaderStopped s u n more := by
  refine ⟨?_, h.rbits⟩
  have hf := h.frame
  rw [hi, htl] at hf
  rw [g.frame] at hf
  exact hf

/-- ReadBits (R135) of more bits than the source gives. -/
theorem readBits_stopped (n : Nat) (v : DoubleWord) {bytes : List Octet} {last : SourceChoice} {more : List SourceChoice}
    {s : State} (hq : Quiet s) (hr : s.reader.rbits ≤ 7) (hl : last = .eos ∨ last = .error)
    (hs : s.ports.source.script = bytes.map .data ++ last :: more) (hn : s.reader.rbits + 8 * bytes.length < n) :
    ∃ t, readBits n v s = .raised (sourceError last) t ∧ ReaderStopped s t bytes.length more := by
  induction n generalizing s v bytes with
  | zero => omega
  | succ n ih =>
    by_cases h : 0 < s.reader.rbits + 8 * bytes.length
    · obtain ⟨b, t, rest, ht, g, hs', htl, hc, hi⟩ := getBit_before_stop hq hr hs h
      obtain ⟨u, hu, hf⟩ := ih ((v <<< 1) ||| (BitVec.ofBool b).setWidth 64) (s := t) (by rw [Quiet, g.host]; exact hq)
        g.rbits hs' (by omega)
      exact ⟨u, by simpa [readBits, ht] using hu, ReaderStopped.after g hf htl hi⟩
    · have hb : bytes = [] := List.eq_nil_of_length_eq_zero (by omega)
      subst hb
      obtain ⟨t, ht, hf⟩ := getBit_stopped hq hl (by omega) (by simpa using hs)
      exact ⟨t, by simp [readBits, ht], hf⟩

/-- The bytes in reach of a source that stops. -/
theorem comingBytes_before_stop {last : SourceChoice} (hl : last = .eos ∨ last = .error) (bytes : List Octet)
    (more : List SourceChoice) : comingBytes (bytes.map .data ++ last :: more) = bytes := by
  induction bytes with
  | nil => rcases hl with rfl | rfl <;> rfl
  | cons v l ih => simp [comingBytes, ih]

/-- The prefix loop (R175) of a source that stops before a one bit. -/
theorem countPrefix_stopped (fuel : Nat) {bytes : List Octet} {last : SourceChoice} {more : List SourceChoice}
    {s : State} (hq : Quiet s) (hr : s.reader.rbits ≤ 7) (hl : last = .eos ∨ last = .error)
    (hs : s.ports.source.script = bytes.map .data ++ last :: more) (hz : ∀ b ∈ readableBits s, b = false)
    (hn : s.reader.rbits + 8 * bytes.length < fuel) :
    ∃ t q, countPrefix fuel s = .raised (sourceError last) t ∧
      ReaderStopped { s with word.q := q } t bytes.length more := by
  induction fuel generalizing s bytes with
  | zero => omega
  | succ n ih =>
    by_cases h : 0 < s.reader.rbits + 8 * bytes.length
    · obtain ⟨b, t, rest, ht, g, hs', htl, hc, hi⟩ := getBit_before_stop hq hr hs h
      have hb : b = false := by
        cases hrb : readableBits s with
        | nil =>
          have := congrArg List.length hrb
          simp [readableBits, hs, comingBytes_before_stop hl] at this
          simp [this] at h
        | cons c rest' =>
          obtain ⟨t', ht', _⟩ := getBit_took hq hr hrb
          rw [ht] at ht'
          cases ht'
          exact hz b (by rw [hrb]; simp)
      subst hb
      obtain ⟨u, q, hu, hf⟩ := ih (s := { t with word.q := t.word.q + 1 }) (by rw [Quiet]; exact g.host ▸ hq)
        g.rbits hs' (fun b hb => hz b (List.mem_of_mem_drop (by rw [← g.bits]; exact hb))) (by show t.reader.rbits + _ < n; omega)
      refine ⟨u, q, by simpa [countPrefix, ht] using hu, ?_⟩
      have g1 : ReaderTook { s with word.q := q } { t with word.q := q } 1 := by
        refine ⟨?_, g.rbits, g.bits, g.fetched⟩
        conv_lhs => rw [g.frame]
      exact ReaderStopped.after g1 hf htl hi
    · have hb : bytes = [] := List.eq_nil_of_length_eq_zero (by omega)
      subst hb
      obtain ⟨t, ht, hf⟩ := getBit_stopped hq hl (by omega) (by simpa using hs)
      exact ⟨t, s.word.q, by simp [countPrefix, ht], hf⟩

/-- RiceDecode (R175) of a codeword that the source cuts short. -/
theorem riceDecode_stopped (k : Nat) (x : Word) {cut gone : List Bool} {bytes : List Octet} {last : SourceChoice}
    {more : List SourceChoice} {s : State} (hq : Quiet s) (hr : s.reader.rbits ≤ 7) (hl : last = .eos ∨ last = .error)
    (hs : s.ports.source.script = bytes.map .data ++ last :: more) (hb : readableBits s = cut)
    (hc : codeword k x = cut ++ gone) (hg : gone ≠ []) :
    ∃ t q, riceDecode k s = .raised (sourceError last) t ∧ ReaderStopped { s with word.q := q } t bytes.length more := by
  have hlen : cut.length = s.reader.rbits + 8 * bytes.length := by
    rw [← hb]
    simp [readableBits, hs, comingBytes_before_stop hl]
  have hfuel : s.reader.rbits + 8 * bytes.length < prefixFuel s := by
    simp [prefixFuel, hs]
  by_cases hcut : cut.length ≤ (quotient k x).toNat
  · have hz : ∀ b ∈ readableBits { s with word.q := 0 }, b = false := by
      intro b hbm
      have hpre : cut = List.replicate cut.length false := by
        have := congrArg (List.take cut.length) hc
        rw [List.take_left, codeword, List.take_append_of_le_length (by simpa using hcut), List.take_replicate,
          Nat.min_eq_left hcut] at this
        exact this.symm
      have hbc : b ∈ cut := hb ▸ hbm
      rw [hpre] at hbc
      exact List.eq_of_mem_replicate hbc
    obtain ⟨t, q, ht, hf⟩ := countPrefix_stopped (prefixFuel s) (s := { s with word.q := 0 }) hq hr hl hs hz hfuel
    exact ⟨t, q, by rw [riceDecode, ht]; rfl, hf⟩
  · obtain ⟨r, hr', hcr⟩ : ∃ r : List Bool, r.length < k ∧ cut = List.replicate (quotient k x).toNat false ++ true :: r := by
      have htake := congrArg (List.take cut.length) hc
      rw [List.take_left, codeword, List.take_append, List.take_of_length_le (by simp; omega)] at htake
      have hpos : cut.length - (List.replicate (quotient k x).toNat false).length ≠ 0 := by simp; omega
      obtain ⟨m, hm⟩ := Nat.exists_eq_succ_of_ne_zero hpos
      rw [hm, List.take_succ_cons] at htake
      refine ⟨(valueBits (remainder k x) k).take m, ?_, htake.symm⟩
      have h1 := congrArg List.length hc
      rw [codeword_length, List.length_append] at h1
      have h2 := List.length_pos_iff.mpr hg
      simp at hm ⊢
      omega
    obtain ⟨t, ht, g⟩ := countPrefix_took (prefixFuel s) (quotient k x).toNat (s := { s with word.q := 0 }) (rest := r) hq hr
      (by show readableBits s = _; rw [hb, hcr]) (by omega)
    obtain ⟨n, he, hi, hscr, htl⟩ := g.fetched
    have he' : s.reader.rbits + 8 * n = (quotient k x).toNat + 1 + t.reader.rbits := he
    have htotal : s.reader.rbits + 8 * bytes.length = (quotient k x).toNat + 1 + r.length := by
      rw [← hlen, hcr]
      simp
      omega
    have hn : n ≤ bytes.length := by
      have := g.rbits
      omega
    have hs' : t.ports.source.script = (bytes.drop n).map .data ++ last :: more := by
      rw [hscr]
      show s.ports.source.script.drop n = _
      rw [hs, List.drop_append_of_le_length (by simpa using hn), List.map_drop]
    obtain ⟨u, hu, hf⟩ := readBits_stopped k 0 (s := t) (by rw [Quiet, g.host]; exact hq) g.rbits hl hs'
      (by simp; omega)
    refine ⟨u, BitVec.ofNat 32 (quotient k x).toNat, by rw [riceDecode, ht, Res.bind_ok, hu]; rfl, ?_⟩
    have g' : ReaderTook { s with word.q := BitVec.ofNat 32 (quotient k x).toNat } t ((quotient k x).toNat + 1) := by
      simpa using g
    refine ReaderStopped.after g' hf htl ?_
    rw [hi]
    show s.regs.inBytes + _ + _ = s.regs.inBytes + _
    rw [BitVec.add_assoc, ← BitVec.ofNat_add]
    congr 2
    simp
    omega

end Sys2Proof.Machine
end

