-- ==== Sys2Proof/Laws/Traffic.lean ====
section
/-! SUPPORT. What each shared operation can touch while no outside action lands, WHATEVER the ports answer: the writing side
(sink), the reading side (source), and the two pixel steps. One lemma per operation. -/

namespace Sys2Proof.Machine

open Sys2Proof.Safety

variable {α β : Type}

/-- However `r` ends, from `s`, the state it leaves is related to `s`; an outcome that ends the command is a next state. -/
abbrev Res.Within (R : State → State → Prop) (s : State) (r : Res α) : Prop :=
  r.Sat (fun _ t => R s t) (fun _ t => R s t) (fun o => ∃ t, o = .next t ∧ R s t)

theorem Res.Within.bind {R : State → State → Prop} (ht : ∀ a b c, R a b → R b c → R a c) {s : State} {r : Res α}
    {f : α → State → Res β} (hr : r.Within R s) (hf : ∀ a t, R s t → (f a t).Within R t) : (r.bind f).Within R s := by
  refine Res.Sat.bind hr fun a t h => Res.Sat.mono (hf a t h) ?_ ?_ ?_
  · exact fun _ u hu => ht _ _ _ h hu
  · exact fun _ u hu => ht _ _ _ h hu
  · rintro o ⟨u, rfl, hu⟩
    exact ⟨u, rfl, ht _ _ _ h hu⟩

theorem Res.Within.mono {R R' : State → State → Prop} {s s' : State} {r : Res α} (hr : r.Within R s)
    (h : ∀ t, R s t → R' s' t) : r.Within R' s' :=
  Res.Sat.mono hr (fun _ t => h t) (fun _ t => h t) fun _ ⟨t, e, ht⟩ => ⟨t, e, h t ht⟩

/-- The record grew, the byte counters with it (R40, R41). -/
structure Counted (s t : State) : Prop where
  grown : ∃ new : List PortEvent,
    t.ports.log = s.ports.log ++ new ∧
    t.regs.outBytes = s.regs.outBytes + BitVec.ofNat 32 (sinkStream new).length ∧
    t.regs.inBytes = s.regs.inBytes + BitVec.ofNat 32 (fetchedCount new)

theorem fetchedCount_append (l m : List PortEvent) : fetchedCount (l ++ m) = fetchedCount l + fetchedCount m := by
  simp [fetchedCount]

theorem Counted.of_eq {s t : State} (hl : t.ports.log = s.ports.log) (ho : t.regs.outBytes = s.regs.outBytes)
    (hi : t.regs.inBytes = s.regs.inBytes) : Counted s t :=
  ⟨[], by simp [hl], by simp [ho, sinkStream], by simp [hi, fetchedCount]⟩

theorem Counted.trans {s t u : State} (h : Counted s t) (h' : Counted t u) : Counted s u := by
  obtain ⟨m, l, o, i⟩ := h.grown
  obtain ⟨n, l', o', i'⟩ := h'.grown
  refine ⟨m ++ n, by rw [l', l, List.append_assoc], ?_, ?_⟩
  · rw [o', o, sinkStream_append, List.length_append, BitVec.ofNat_add, BitVec.add_assoc]
  · rw [i', i, fetchedCount_append, BitVec.ofNat_add, BitVec.add_assoc]

/-- The record grew by transactions that all satisfy `p` (R86). -/
def LogGrew (p : PortEvent → Prop) (s t : State) : Prop :=
  ∃ new : List PortEvent, t.ports.log = s.ports.log ++ new ∧ ∀ e ∈ new, p e

theorem LogGrew.of_eq {p : PortEvent → Prop} {s t : State} (h : t.ports.log = s.ports.log) : LogGrew p s t :=
  ⟨[], by simp [h], by simp⟩

theorem LogGrew.one {p : PortEvent → Prop} {s t : State} {e : PortEvent} (h : t.ports.log = s.ports.log ++ [e]) (he : p e) :
    LogGrew p s t :=
  ⟨[e], h, by simpa using he⟩

theorem LogGrew.trans {p : PortEvent → Prop} {s t u : State} (h : LogGrew p s t) (h' : LogGrew p t u) : LogGrew p s u := by
  obtain ⟨m, l, a⟩ := h
  obtain ⟨n, l', a'⟩ := h'
  refine ⟨m ++ n, by rw [l', l, List.append_assoc], fun e he => ?_⟩
  rcases List.mem_append.mp he with he | he
  · exact a e he
  · exact a' e he

/-! ### The writing side -/

/-- What an encoding operation may touch: POS, OUT_BYTES, the writer, the scan state, the codeword counters, ABORT_ERR, and
the sink's and the plane's ports. -/
structure EncSide (s t : State) : Prop where
  frame : t = { s with
    regs := { s.regs with posRow := t.regs.posRow, posCol := t.regs.posCol, outBytes := t.regs.outBytes }
    ctl := { s.ctl with abortErr := t.ctl.abortErr }
    writer := t.writer
    scan := t.scan
    word := t.word
    ports := { s.ports with
      sink := t.ports.sink
      plane := t.ports.plane
      pending := t.ports.pending
      log := t.ports.log
      raceDraws := t.ports.raceDraws } }
  counted : Counted s t

theorem EncSide.refl (s : State) : EncSide s s := ⟨rfl, Counted.of_eq rfl rfl rfl⟩

theorem EncSide.trans (s t u : State) (h : EncSide s t) (h' : EncSide t u) : EncSide s u := by
  refine ⟨?_, h.counted.trans h'.counted⟩
  have hf := h'.frame
  conv_lhs => rw [hf]
  have hg := h.frame
  conv_lhs => rw [hg]

theorem EncSide.host {s t : State} (h : EncSide s t) : t.host = s.host := (congrArg State.host h.frame :)

theorem EncSide.quiet {s t : State} (h : EncSide s t) (hq : Quiet s) : Quiet t := by rw [Quiet, h.host]; exact hq

/-- What an operation of the writer may touch: OUT_BYTES, the writer, the prefix counter and the sink's port. -/
structure SinkSide (s t : State) : Prop where
  frame : t = { s with
    regs := { s.regs with outBytes := t.regs.outBytes }
    writer := t.writer
    word := { s.word with prefixLen := t.word.prefixLen }
    ports := { s.ports with sink := t.ports.sink, pending := t.ports.pending, log := t.ports.log } }
  counted : Counted s t

theorem SinkSide.refl (s : State) : SinkSide s s := ⟨rfl, Counted.of_eq rfl rfl rfl⟩

theorem SinkSide.trans (s t u : State) (h : SinkSide s t) (h' : SinkSide t u) : SinkSide s u := by
  refine ⟨?_, h.counted.trans h'.counted⟩
  have hf := h'.frame
  conv_lhs => rw [hf]
  have hg := h.frame
  conv_lhs => rw [hg]

theorem SinkSide.host {s t : State} (h : SinkSide s t) : t.host = s.host := (congrArg State.host h.frame :)

theorem SinkSide.quiet {s t : State} (h : SinkSide s t) (hq : Quiet s) : Quiet t := by rw [Quiet, h.host]; exact hq

theorem SinkSide.enc {s t : State} (h : SinkSide s t) : EncSide s t := by
  refine ⟨?_, h.counted⟩
  have hf := h.frame
  generalize t.regs.outBytes = a at *
  generalize t.writer = b at *
  generalize t.word.prefixLen = c at *
  generalize t.ports.sink = d at *
  generalize t.ports.pending = e at *
  generalize t.ports.log = g at *
  subst hf
  rfl

/-- SinkByte (R75), whatever the sink answers. -/
theorem sinkByte_within (v : Octet) {s : State} (hq : Quiet s) : (sinkByte v s).Within SinkSide s := by
  cases hc : s.ports.sink.next with
  | ok =>
    rw [sinkByte_accepted v hq hc]
    exact ⟨rfl, ⟨_, rfl, by simp [answered, sinkStream], by simp [answered, fetchedCount]⟩⟩
  | error =>
    rw [sinkByte_refused v hq hc]
    exact ⟨rfl, ⟨_, rfl, by simp [answered, sinkStream], by simp [answered, fetchedCount]⟩⟩
  | silent =>
    rw [sinkByte, sinkRequest_silent _ hq hc]
    exact ⟨_, rfl, rfl, Counted.of_eq rfl rfl rfl⟩

/-- SinkFlush (R76), whatever the sink answers. -/
theorem sinkFlush_within {s : State} (hq : Quiet s) : (sinkFlush s).Within SinkSide s := by
  unfold sinkFlush
  cases hc : s.ports.sink.next with
  | ok =>
    rw [sinkRequest_accepted .flush hq hc]
    exact ⟨rfl, ⟨_, rfl, by simp [answered, sinkStream], by simp [answered, fetchedCount]⟩⟩
  | error =>
    rw [sinkRequest_refused .flush hq hc]
    exact ⟨rfl, ⟨_, rfl, by simp [answered, sinkStream], by simp [answered, fetchedCount]⟩⟩
  | silent =>
    rw [sinkRequest_silent _ hq hc]
    exact ⟨_, rfl, rfl, Counted.of_eq rfl rfl rfl⟩

theorem putBit_within (b : Bool) {s : State} (hq : Quiet s) : (putBit b s).Within SinkSide s := by
  unfold putBit
  dsimp only
  split
  · refine Res.Within.bind SinkSide.trans
      (Res.Within.mono (sinkByte_within _ (by exact hq)) fun t ht => SinkSide.trans _ _ _ ?_ ht) fun a t _ => ?_
    · exact ⟨rfl, Counted.of_eq rfl rfl rfl⟩
    · cases a <;> exact SinkSide.refl t
  · exact ⟨rfl, Counted.of_eq rfl rfl rfl⟩

theorem writeBits_within (v : DoubleWord) (n : Nat) {s : State} (hq : Quiet s) : (writeBits v n s).Within SinkSide s := by
  induction n generalizing s with
  | zero => exact SinkSide.refl s
  | succ n ih =>
    exact Res.Within.bind SinkSide.trans (putBit_within _ hq) fun _ t ht => ih (ht.quiet hq)

theorem flushWriter_within (report : Bool) {s : State} (hq : Quiet s) : (flushWriter report s).Within SinkSide s := by
  refine Res.Within.bind SinkSide.trans ?_ fun _ t ht =>
    Res.Within.bind SinkSide.trans (sinkFlush_within (ht.quiet hq)) fun a u _ => ?_
  · unfold flushPad
    split
    · refine Res.Within.bind SinkSide.trans
        (Res.Within.mono (sinkByte_within _ (by exact hq)) fun t ht => SinkSide.trans _ _ _ ?_ ht) fun a t _ => ?_
      · exact ⟨rfl, Counted.of_eq rfl rfl rfl⟩
      · split <;> exact SinkSide.refl t
    · exact SinkSide.refl s
  · split <;> exact SinkSide.refl u

theorem riceEncode_within (k : Nat) (x : Word) {s : State} (hq : Quiet s) : (riceEncode k x s).Within SinkSide s := by
  refine Res.Within.bind SinkSide.trans
    (Res.Within.mono (writeBits_within _ _ (by exact hq)) fun t ht => SinkSide.trans _ _ _ ?_ ht) fun _ t ht =>
      writeBits_within _ _ (ht.quiet hq)
  exact ⟨rfl, Counted.of_eq rfl rfl rfl⟩

/-! ### The reading side -/

/-- What a decoding operation may touch: POS, IN_BYTES, the reader, the scan state, the codeword counters, the source's and
the plane's ports, and the cells. -/
structure DecSide (s t : State) : Prop where
  frame : t = { s with
    regs := { s.regs with posRow := t.regs.posRow, posCol := t.regs.posCol, inBytes := t.regs.inBytes }
    reader := t.reader
    scan := t.scan
    word := t.word
    ports := { s.ports with
      source := t.ports.source
      plane := t.ports.plane
      cells := t.ports.cells
      held := t.ports.held
      pending := t.ports.pending
      log := t.ports.log
      raceDraws := t.ports.raceDraws } }
  counted : Counted s t

theorem DecSide.refl (s : State) : DecSide s s := ⟨rfl, Counted.of_eq rfl rfl rfl⟩

theorem DecSide.trans (s t u : State) (h : DecSide s t) (h' : DecSide t u) : DecSide s u := by
  refine ⟨?_, h.counted.trans h'.counted⟩
  have hf := h'.frame
  conv_lhs => rw [hf]
  have hg := h.frame
  conv_lhs => rw [hg]

theorem DecSide.host {s t : State} (h : DecSide s t) : t.host = s.host := (congrArg State.host h.frame :)

theorem DecSide.quiet {s t : State} (h : DecSide s t) (hq : Quiet s) : Quiet t := by rw [Quiet, h.host]; exact hq

/-- What an operation of the reader may touch: IN_BYTES, the reader, Q and the source's port, by FETCH
requests alone. -/
structure SourceSide (s t : State) : Prop where
  frame : t = { s with
    regs := { s.regs with inBytes := t.regs.inBytes }
    reader := t.reader
    word := { s.word with q := t.word.q }
    ports := { s.ports with source := t.ports.source, pending := t.ports.pending, log := t.ports.log } }
  counted : Counted s t
  fetches : LogGrew (fun e => e.request = .fetch) s t

theorem SourceSide.refl (s : State) : SourceSide s s := ⟨rfl, Counted.of_eq rfl rfl rfl, LogGrew.of_eq rfl⟩

theorem SourceSide.trans (s t u : State) (h : SourceSide s t) (h' : SourceSide t u) : SourceSide s u := by
  refine ⟨?_, h.counted.trans h'.counted, h.fetches.trans h'.fetches⟩
  have hf := h'.frame
  conv_lhs => rw [hf]
  have hg := h.frame
  conv_lhs => rw [hg]

theorem SourceSide.host {s t : State} (h : SourceSide s t) : t.host = s.host := (congrArg State.host h.frame :)

theorem SourceSide.quiet {s t : State} (h : SourceSide s t) (hq : Quiet s) : Quiet t := by
  rw [Quiet, h.host]
  exact hq

theorem SourceSide.dec {s t : State} (h : SourceSide s t) : DecSide s t := by
  refine ⟨?_, h.counted⟩
  have hf := h.frame
  generalize t.regs.inBytes = a at *
  generalize t.reader = b at *
  generalize t.word.q = c at *
  generalize t.ports.source = d at *
  generalize t.ports.pending = e at *
  generalize t.ports.log = g at *
  subst hf
  rfl

theorem sourceFetch_silent {s : State} (hq : Quiet s) (hc : s.ports.source.next = .silent) :
    sourceFetch s = .ended (.next { s with ports.source := s.ports.source.rest, ports.pending := some .fetch }) := by
  simp [sourceFetch_quiet hq, hc, SourceChoice.answer, await_quiet_none, hq]

/-- SourceFetch (R78), whatever the source answers. -/
theorem sourceFetch_within {s : State} (hq : Quiet s) : (sourceFetch s).Within SourceSide s := by
  cases hc : s.ports.source.next with
  | data v =>
    rw [sourceFetch_data hq hc]
    exact ⟨rfl, ⟨_, rfl, by simp [answered, sinkStream], by simp [answered, fetchedCount]⟩, LogGrew.one rfl rfl⟩
  | eos =>
    rw [sourceFetch_eos hq hc]
    exact ⟨rfl, ⟨_, rfl, by simp [answered, sinkStream], by simp [answered, fetchedCount]⟩, LogGrew.one rfl rfl⟩
  | error =>
    rw [sourceFetch_error hq hc]
    exact ⟨rfl, ⟨_, rfl, by simp [answered, sinkStream], by simp [answered, fetchedCount]⟩, LogGrew.one rfl rfl⟩
  | silent =>
    rw [sourceFetch_silent hq hc]
    exact ⟨_, rfl, rfl, Counted.of_eq rfl rfl rfl, LogGrew.of_eq rfl⟩

theorem getBit_within {s : State} (hq : Quiet s) : (getBit s).Within SourceSide s := by
  unfold getBit
  split
  · exact Res.Within.bind SourceSide.trans (sourceFetch_within hq) fun v t _ => ⟨rfl, Counted.of_eq rfl rfl rfl, LogGrew.of_eq rfl⟩
  · exact ⟨rfl, Counted.of_eq rfl rfl rfl, LogGrew.of_eq rfl⟩

theorem readBits_within (n : Nat) (v : DoubleWord) {s : State} (hq : Quiet s) : (readBits n v s).Within SourceSide s := by
  induction n generalizing s v with
  | zero => exact SourceSide.refl s
  | succ n ih => exact Res.Within.bind SourceSide.trans (getBit_within hq) fun _ t ht => ih _ (ht.quiet hq)

theorem countPrefix_within (fuel : Nat) {s : State} (hq : Quiet s) : (countPrefix fuel s).Within SourceSide s := by
  induction fuel generalizing s with
  | zero => exact ⟨s, rfl, SourceSide.refl s⟩
  | succ n ih =>
    refine Res.Within.bind SourceSide.trans (getBit_within hq) fun b t ht => ?_
    cases b
    · exact Res.Within.mono (ih (by exact ht.quiet hq)) fun u hu =>
        SourceSide.trans _ { t with word.q := t.word.q + 1 } _ ⟨rfl, Counted.of_eq rfl rfl rfl, LogGrew.of_eq rfl⟩ hu
    · exact SourceSide.refl t

theorem riceDecode_within (k : Nat) {s : State} (hq : Quiet s) : (riceDecode k s).Within SourceSide s := by
  refine Res.Within.bind SourceSide.trans
    (Res.Within.mono (countPrefix_within _ (by exact hq)) fun t ht => SourceSide.trans _ _ _ ?_ ht) fun _ t ht =>
      Res.Within.bind SourceSide.trans (readBits_within _ _ (ht.quiet hq)) fun _ u _ => SourceSide.refl u
  exact ⟨rfl, Counted.of_eq rfl rfl rfl, LogGrew.of_eq rfl⟩

/-! ### The plane port -/

/-- MemRead (R72), whatever plane memory answers: no cell changes. -/
theorem memRead_within (a : Word) {s : State} (hq : Quiet s) :
    (memRead a s).Within (fun s t =>
      t = { s with
        ports := { s.ports with
          plane := t.ports.plane
          pending := t.ports.pending
          log := t.ports.log
          raceDraws := t.ports.raceDraws } } ∧
      Counted s t) s := by
  cases hc : s.ports.plane.next with
  | serve =>
    rw [memRead_data a hq (by rw [hc]; rfl)]
    exact ⟨rfl, _, rfl, by simp [answered, countSeen, sinkStream], by simp [answered, countSeen, fetchedCount]⟩
  | override v =>
    rw [memRead_data a hq (by rw [hc]; rfl)]
    exact ⟨rfl, _, rfl, by simp [answered, countSeen, sinkStream], by simp [answered, countSeen, fetchedCount]⟩
  | refuse c =>
    rw [memRead_refused a hq hc]
    exact ⟨rfl, _, rfl, by simp [answered, sinkStream], by simp [answered, fetchedCount]⟩
  | silent c =>
    rw [memRead_silent a hq hc]
    exact ⟨_, rfl, rfl, Counted.of_eq rfl rfl rfl⟩

/-- MemWrite (R73), whatever plane memory answers: the cell written may change, and no other. -/
theorem memWrite_within (a : Word) (v : Sample) {s : State} (hq : Quiet s) :
    (memWrite a v s).Within (fun s t =>
      t = { s with
        ports := { s.ports with
          plane := t.ports.plane
          cells := t.ports.cells
          held := t.ports.held
          pending := t.ports.pending
          log := t.ports.log } } ∧
      (∃ w, t.ports.cells = Memory.writeOpt a.toNat w s.ports.cells) ∧
      Counted s t) s := by
  cases hc : s.ports.plane.next with
  | serve =>
    rw [memWrite_ok a v hq (by rw [hc]; rfl)]
    exact ⟨rfl, ⟨_, rfl⟩, _, rfl, by simp [answered, sinkStream], by simp [answered, fetchedCount]⟩
  | override w =>
    rw [memWrite_ok a v hq (by rw [hc]; rfl)]
    exact ⟨rfl, ⟨_, rfl⟩, _, rfl, by simp [answered, sinkStream], by simp [answered, fetchedCount]⟩
  | refuse c =>
    rw [memWrite_refused a v hq hc]
    exact ⟨rfl, ⟨_, rfl⟩, _, rfl, by simp [answered, sinkStream], by simp [answered, fetchedCount]⟩
  | silent c =>
    rw [memWrite_silent a v hq hc]
    exact ⟨_, rfl, rfl, ⟨_, rfl⟩, Counted.of_eq rfl rfl rfl⟩

/-- Addr (R220) sends nothing and changes nothing. -/
theorem addr_within {R : State → State → Prop} (hrefl : ∀ s, R s s) (row col : Nat) (s : State) :
    (addr row col s).Within R s := by
  unfold addr
  split <;> exact hrefl s

theorem loadAboveRight_encSide {s : State} (hq : Quiet s) : (loadAboveRight s).Within EncSide s := by
  unfold loadAboveRight
  split
  · refine Res.Within.bind EncSide.trans (addr_within EncSide.refl _ _ _) fun a t ht => ?_
    refine Res.Within.bind EncSide.trans
      (Res.Within.mono (memRead_within a (ht.quiet hq)) fun u hu => ⟨?_, hu.2⟩) fun _ u _ =>
        ⟨rfl, Counted.of_eq rfl rfl rfl⟩
    have hf := hu.1
    generalize u.ports.plane = d at *
    generalize u.ports.pending = e at *
    generalize u.ports.log = g at *
    generalize u.ports.raceDraws = k at *
    rw [hf]
  · exact ⟨rfl, Counted.of_eq rfl rfl rfl⟩

theorem loadAboveRight_decSide {s : State} (hq : Quiet s) : (loadAboveRight s).Within DecSide s := by
  unfold loadAboveRight
  split
  · refine Res.Within.bind DecSide.trans (addr_within DecSide.refl _ _ _) fun a t ht => ?_
    refine Res.Within.bind DecSide.trans
      (Res.Within.mono (memRead_within a (ht.quiet hq)) fun u hu => ⟨?_, hu.2⟩) fun _ u _ =>
        ⟨rfl, Counted.of_eq rfl rfl rfl⟩
    have hf := hu.1
    generalize u.ports.plane = d at *
    generalize u.ports.pending = e at *
    generalize u.ports.log = g at *
    generalize u.ports.raceDraws = k at *
    rw [hf]
  · exact ⟨rfl, Counted.of_eq rfl rfl rfl⟩

/-- The encode step (R227), whatever the ports answer. -/
theorem encodePixel_within {s : State} (hq : Quiet s) : (encodePixel s).Within EncSide s := by
  refine Res.Within.bind EncSide.trans (Res.Within.mono (loadAboveRight_encSide (s := markPosition s) hq) fun t ht =>
    EncSide.trans _ (markPosition s) _ ⟨rfl, Counted.of_eq rfl rfl rfl⟩ ht) fun _ t ht => ?_
  refine Res.Within.mono (R := EncSide) (s := predict t) ?_ fun u hu => EncSide.trans _ (predict t) _ ⟨rfl, Counted.of_eq rfl rfl rfl⟩ hu
  have hq' : Quiet (predict t) := ht.quiet hq
  refine Res.Within.bind EncSide.trans (addr_within EncSide.refl _ _ _) fun a v hv => ?_
  refine Res.Within.bind EncSide.trans
    (Res.Within.mono (memRead_within a (hv.quiet hq')) fun w hw => ⟨?_, hw.2⟩) fun x w hw => ?_
  · have hf := hw.1
    generalize w.ports.plane = d at *
    generalize w.ports.pending = e at *
    generalize w.ports.log = g at *
    generalize w.ports.raceDraws = k at *
    rw [hf]
  · exact Res.Within.bind EncSide.trans
      (Res.Within.mono (riceEncode_within _ _ (hw.quiet (hv.quiet hq'))) fun _ h => h.enc) fun _ z _ =>
        ⟨rfl, Counted.of_eq rfl rfl rfl⟩

/-- The decode step (R228), whatever the ports answer. -/
theorem decodePixel_within {s : State} (hq : Quiet s) : (decodePixel s).Within DecSide s := by
  refine Res.Within.bind DecSide.trans (Res.Within.mono (loadAboveRight_decSide (s := markPosition s) hq) fun t ht =>
    DecSide.trans _ (markPosition s) _ ⟨rfl, Counted.of_eq rfl rfl rfl⟩ ht) fun _ t ht => ?_
  refine Res.Within.mono (R := DecSide) (s := predict t) ?_ fun u hu => DecSide.trans _ (predict t) _ ⟨rfl, Counted.of_eq rfl rfl rfl⟩ hu
  have hq' : Quiet (predict t) := ht.quiet hq
  refine Res.Within.bind DecSide.trans (Res.Within.mono (riceDecode_within _ hq') fun _ h => h.dec) fun res u hu => ?_
  refine Res.Within.bind DecSide.trans (addr_within DecSide.refl _ _ _) fun a v hv => ?_
  refine Res.Within.bind DecSide.trans
    (Res.Within.mono (memWrite_within a _ (hv.quiet (hu.quiet hq'))) fun w hw => ⟨?_, hw.2.2⟩) fun _ w _ =>
      ⟨rfl, Counted.of_eq rfl rfl rfl⟩
  have hf := hw.1
  generalize w.ports.plane = d at *
  generalize w.ports.cells = c at *
  generalize w.ports.held = l at *
  generalize w.ports.pending = e at *
  generalize w.ports.log = g at *
  rw [hf]

/-- The scan, for any pixel step that stays within a relation that also allows POS, A, B, C, ROW and COL to change. -/
theorem scanPlane_within {R : State → State → Prop} (hrefl : ∀ s, R s s) (htrans : ∀ a b c, R a b → R b c → R a c)
    (hscan : ∀ (s : State) (row col : Word) (c : Scan), R s { s with regs.posRow := row, regs.posCol := col, scan := c })
    (hquiet : ∀ s t, R s t → Quiet s → Quiet t) {pixel : State → Res Unit}
    (hp : ∀ s, Quiet s → (pixel s).Within R s) {s : State} (hq : Quiet s) : (scanPlane pixel s).Within R s := by
  have hset : ∀ (s : State) (c : Scan), R s { s with scan := c } := fun s c => hscan s s.regs.posRow s.regs.posCol c
  have hrow : ∀ n s, Quiet s → (scanRow pixel n s).Within R s := by
    intro n
    induction n with
    | zero => exact fun s _ => hrefl s
    | succ n ih =>
      refine fun s hq => Res.Within.bind htrans (hp s hq) fun _ t ht => ?_
      exact Res.Within.mono (ih _ (show Quiet t from hquiet _ _ ht hq)) fun u hu => htrans _ _ _ (hset t _) hu
  have hrows : ∀ n s, Quiet s → (scanRows pixel n s).Within R s := by
    intro n
    induction n with
    | zero => exact fun s _ => hrefl s
    | succ n ih =>
      intro s hq
      refine Res.Within.bind htrans (Res.Within.mono (hrow _ (startRow s) hq) fun t ht => htrans _ _ _ (hset s _) ht)
        fun _ t ht => ?_
      exact Res.Within.mono (ih _ (show Quiet t from hquiet _ _ ht hq)) fun u hu => htrans _ _ _ (hset t _) hu
  refine Res.Within.bind htrans (Res.Within.mono (hrows _ _ (by exact hq)) fun t ht => htrans _ _ _ (hset s _) ht)
    fun _ t _ => ?_
  exact hscan t _ _ t.scan

theorem scanPlane_encSide {s : State} (hq : Quiet s) : (scanPlane encodePixel s).Within EncSide s :=
  scanPlane_within EncSide.refl EncSide.trans (fun _ _ _ _ => ⟨rfl, Counted.of_eq rfl rfl rfl⟩)
    (fun _ _ h => h.quiet) (fun _ => encodePixel_within) hq

theorem scanPlane_decSide {s : State} (hq : Quiet s) : (scanPlane decodePixel s).Within DecSide s :=
  scanPlane_within DecSide.refl DecSide.trans (fun _ _ _ _ => ⟨rfl, Counted.of_eq rfl rfl rfl⟩)
    (fun _ _ h => h.quiet) (fun _ => decodePixel_within) hq

end Sys2Proof.Machine
end

