-- ==== Sys2Proof/Laws/Ends.lean ====
section
/-! SUPPORT. Every shared operation ends when every port answers, the source is no endless run of zeros, and no outside
action lands (R332). One lemma per operation. -/

namespace Sys2Proof.Machine

open Sys2Proof.Safety

variable {α β : Type}

/-- Nothing lands, every port answers, and the source is no endless run of zeros. -/
structure Answering (s : State) : Prop where
  quiet : Quiet s
  ports : PortsAnswer s
  source : SourceNotEndlessZeros s

/-- The operation goes on with a value or raises an error, and the ports go on answering. -/
abbrev Res.Ends (r : Res α) : Prop := r.Sat (fun _ t => Answering t) (fun _ t => Answering t) fun _ => False

theorem Res.Ends.bind {r : Res α} {f : α → State → Res β} (hr : r.Ends) (hf : ∀ a t, Answering t → (f a t).Ends) :
    (r.bind f).Ends :=
  Res.Sat.bind hr hf

theorem sinkRequest_ends (req : Request) {s : State} (h : Answering s) : (sinkRequest req s).Ends := by
  have hn := portAll_next h.ports.1
  cases hc : s.ports.sink.next with
  | ok =>
    rw [sinkRequest_accepted req h.quiet hc]
    exact ⟨h.quiet, ⟨hn.2, h.ports.2⟩, h.source⟩
  | error =>
    rw [sinkRequest_refused req h.quiet hc]
    exact ⟨h.quiet, ⟨hn.2, h.ports.2⟩, h.source⟩
  | silent => rw [hc] at hn; exact absurd hn.1 (by decide)

theorem sinkByte_ends (v : Octet) {s : State} (h : Answering s) : (sinkByte v s).Ends := by
  refine Res.Ends.bind (sinkRequest_ends _ h) fun b t ht => ?_
  cases b
  · exact ht
  · exact ⟨ht.quiet, ht.ports, ht.source⟩

theorem putBit_ends (b : Bool) {s : State} (h : Answering s) : (putBit b s).Ends := by
  unfold putBit
  dsimp only
  split
  · refine Res.Ends.bind (sinkByte_ends _ ⟨h.quiet, h.ports, h.source⟩) fun a t ht => ?_
    cases a <;> exact ht
  · exact ⟨h.quiet, h.ports, h.source⟩

theorem writeBits_ends (v : DoubleWord) (n : Nat) {s : State} (h : Answering s) : (writeBits v n s).Ends := by
  induction n generalizing s with
  | zero => exact h
  | succ n ih => exact Res.Ends.bind (putBit_ends _ h) fun _ _ ht => ih ht

theorem flushWriter_ends (report : Bool) {s : State} (h : Answering s) : (flushWriter report s).Ends := by
  refine Res.Ends.bind ?_ fun _ t ht => Res.Ends.bind (sinkRequest_ends _ ht) fun a u hu => ?_
  · unfold flushPad
    split
    · refine Res.Ends.bind (sinkByte_ends _ ⟨h.quiet, h.ports, h.source⟩) fun a t ht => ?_
      split <;> exact ht
    · exact h
  · split <;> exact hu

theorem riceEncode_ends (k : Nat) (x : Word) {s : State} (h : Answering s) : (riceEncode k x s).Ends :=
  Res.Ends.bind (writeBits_ends _ _ ⟨h.quiet, h.ports, h.source⟩) fun _ _ ht => writeBits_ends _ _ ht

theorem Port.rest_tail {γ : Type} (p : Port γ) : p.rest.tail = p.tail := by
  unfold Port.rest
  split <;> rfl

theorem sourceFetch_ends {s : State} (h : Answering s) : (sourceFetch s).Ends := by
  have hn := portAll_next h.ports.2.1
  have hr : ∀ t : State, t.host = s.host → t.ports.sink = s.ports.sink → t.ports.plane = s.ports.plane →
      t.ports.source = s.ports.source.rest → Answering t := by
    intro t hh hs hp ho
    refine ⟨by rw [Quiet, hh]; exact h.quiet, ⟨by rw [hs]; exact h.ports.1, by rw [ho]; exact hn.2, by rw [hp]; exact h.ports.2.2⟩, ?_⟩
    rw [SourceNotEndlessZeros, ho, Port.rest_tail]
    exact h.source
  cases hc : s.ports.source.next with
  | data v =>
    rw [sourceFetch_data h.quiet hc]
    exact hr _ rfl rfl rfl rfl
  | eos =>
    rw [sourceFetch_eos h.quiet hc]
    exact hr _ rfl rfl rfl rfl
  | error =>
    rw [sourceFetch_error h.quiet hc]
    exact hr _ rfl rfl rfl rfl
  | silent => rw [hc] at hn; exact absurd hn.1 (by decide)

theorem getBit_ends {s : State} (h : Answering s) : (getBit s).Ends := by
  unfold getBit
  split
  · exact Res.Ends.bind (sourceFetch_ends h) fun _ _ ht => ⟨ht.quiet, ht.ports, ht.source⟩
  · exact ⟨h.quiet, h.ports, h.source⟩

theorem readBits_ends (n : Nat) (v : DoubleWord) {s : State} (h : Answering s) : (readBits n v s).Ends := by
  induction n generalizing s v with
  | zero => exact h
  | succ n ih => exact Res.Ends.bind (getBit_ends h) fun _ _ ht => ih _ ht

/-- A prefix loop whose bits are the tail's: `fuel` bits are enough when a one is among the bits held. -/
theorem countPrefix_ends_held (n : Nat) {s : State} (h : Answering s) (hr : s.reader.rbits ≤ n)
    (ho : ∃ i < s.reader.rbits, s.reader.racc.getLsbD i = true) : (countPrefix n s).Ends := by
  induction n generalizing s with
  | zero =>
    obtain ⟨i, hi, _⟩ := ho
    omega
  | succ n ih =>
    obtain ⟨i, hi, hb⟩ := ho
    have h0 : s.reader.rbits ≠ 0 := by omega
    simp only [countPrefix, getBit, h0, if_false, takeBit, Res.bind_ok]
    cases hv : s.reader.racc.getLsbD (s.reader.rbits - 1) with
    | true => exact ⟨h.quiet, h.ports, h.source⟩
    | false =>
      have hne : i ≠ s.reader.rbits - 1 := by
        rintro rfl
        rw [hv] at hb
        cases hb
      refine ih ⟨h.quiet, h.ports, h.source⟩ ?_ ⟨i, ?_, hb⟩
      · show s.reader.rbits - 1 ≤ n
        omega
      · show i < s.reader.rbits - 1
        omega

/-- A byte that is not 0 has a one. -/
theorem exists_one_of_ne_zero {v : Octet} (h : v ≠ 0) : ∃ i < 8, v.getLsbD i = true := by
  by_contra hc
  push Not at hc
  refine h (BitVec.eq_of_getLsbD_eq fun i hi => ?_)
  have := hc i hi
  simpa using this

/-- The prefix loop (R175) ends within the bits held, those of the script, and one byte more. -/
theorem countPrefix_ends (n : Nat) {s : State} (h : Answering s)
    (hn : s.reader.rbits + 8 * (s.ports.source.script.length + 1) ≤ n) : (countPrefix n s).Ends := by
  induction n generalizing s with
  | zero => omega
  | succ n ih =>
    by_cases h0 : s.reader.rbits = 0
    · cases hscr : s.ports.source.script with
      | cons c more =>
        have hlen : s.ports.source.script.length = more.length + 1 := by rw [hscr]; rfl
        have hrest : s.ports.source.rest = { script := more, tail := s.ports.source.tail } := by rw [Port.rest, hscr]
        have hends := getBit_ends h
        cases hc : s.ports.source.next with
        | data v =>
          simp only [countPrefix, getBit, h0, if_true] at hends ⊢
          rw [sourceFetch_data h.quiet hc] at hends ⊢
          simp only [Res.bind_ok, takeBit] at hends ⊢
          cases hv : v.getLsbD (8 - 1) with
          | true => exact hends
          | false =>
            refine ih ⟨hends.quiet, hends.ports, hends.source⟩ ?_
            simp [answered, hrest]
            omega
        | eos =>
          simp only [countPrefix, getBit, h0, if_true] at hends ⊢
          rw [sourceFetch_eos h.quiet hc] at hends ⊢
          exact hends
        | error =>
          simp only [countPrefix, getBit, h0, if_true] at hends ⊢
          rw [sourceFetch_error h.quiet hc] at hends ⊢
          exact hends
        | silent =>
          have := portAll_next h.ports.2.1
          rw [hc] at this
          exact absurd this.1 (by decide)
      | nil =>
        have htail : s.ports.source.next = s.ports.source.tail := by rw [Port.next, hscr]
        have hends := getBit_ends h
        cases hc : s.ports.source.next with
        | data v =>
          have hv0 : v ≠ 0 := by
            rintro rfl
            exact h.source (htail ▸ hc)
          obtain ⟨i, hi, hb⟩ := exists_one_of_ne_zero hv0
          have hfetch := sourceFetch_ends h
          simp only [countPrefix, getBit, h0, if_true]
          rw [sourceFetch_data h.quiet hc] at hfetch ⊢
          have hheld := countPrefix_ends_held (n + 1)
            (s := { answered .fetch (.octet v)
                { s with ports.source := s.ports.source.rest, regs.inBytes := s.regs.inBytes + 1 } with
              reader.racc := v, reader.rbits := 8 })
            ⟨hfetch.quiet, hfetch.ports, hfetch.source⟩ (by show 8 ≤ n + 1; omega) ⟨i, hi, hb⟩
          simpa [countPrefix, getBit, takeBit] using hheld
        | eos =>
          simp only [countPrefix, getBit, h0, if_true] at hends ⊢
          rw [sourceFetch_eos h.quiet hc] at hends ⊢
          exact hends
        | error =>
          simp only [countPrefix, getBit, h0, if_true] at hends ⊢
          rw [sourceFetch_error h.quiet hc] at hends ⊢
          exact hends
        | silent =>
          have := portAll_next h.ports.2.1
          rw [hc] at this
          exact absurd this.1 (by decide)
    · simp only [countPrefix, getBit, h0, if_false, takeBit, Res.bind_ok]
      split
      · exact ⟨h.quiet, h.ports, h.source⟩
      · refine ih ⟨h.quiet, h.ports, h.source⟩ ?_
        show s.reader.rbits - 1 + 8 * (s.ports.source.script.length + 1) ≤ n
        omega

theorem riceDecode_ends (k : Nat) {s : State} (h : Answering s) : (riceDecode k s).Ends :=
  Res.Ends.bind (countPrefix_ends _ ⟨h.quiet, h.ports, h.source⟩ (le_refl _)) fun _ _ ht =>
    Res.Ends.bind (readBits_ends _ _ ht) fun _ _ hu => hu

theorem memRead_ends (a : Word) {s : State} (h : Answering s) : (memRead a s).Ends := by
  have hn := portAll_next h.ports.2.2
  cases hc : s.ports.plane.next with
  | serve =>
    rw [memRead_data a h.quiet (by rw [hc]; rfl)]
    exact ⟨h.quiet, ⟨h.ports.1, h.ports.2.1, hn.2⟩, h.source⟩
  | override v =>
    rw [memRead_data a h.quiet (by rw [hc]; rfl)]
    exact ⟨h.quiet, ⟨h.ports.1, h.ports.2.1, hn.2⟩, h.source⟩
  | refuse c =>
    rw [memRead_refused a h.quiet hc]
    exact ⟨h.quiet, ⟨h.ports.1, h.ports.2.1, hn.2⟩, h.source⟩
  | silent c => rw [hc] at hn; exact absurd hn.1 (by simp [planeAnswers])

theorem memWrite_ends (a : Word) (v : Sample) {s : State} (h : Answering s) : (memWrite a v s).Ends := by
  have hn := portAll_next h.ports.2.2
  cases hc : s.ports.plane.next with
  | serve =>
    rw [memWrite_ok a v h.quiet (by rw [hc]; rfl)]
    exact ⟨h.quiet, ⟨h.ports.1, h.ports.2.1, hn.2⟩, h.source⟩
  | override w =>
    rw [memWrite_ok a v h.quiet (by rw [hc]; rfl)]
    exact ⟨h.quiet, ⟨h.ports.1, h.ports.2.1, hn.2⟩, h.source⟩
  | refuse c =>
    rw [memWrite_refused a v h.quiet hc]
    exact ⟨h.quiet, ⟨h.ports.1, h.ports.2.1, hn.2⟩, h.source⟩
  | silent c => rw [hc] at hn; exact absurd hn.1 (by simp [planeAnswers])

theorem addr_ends (row col : Nat) {s : State} (h : Answering s) : (addr row col s).Ends := by
  unfold addr
  split <;> exact h

theorem loadAboveRight_ends {s : State} (h : Answering s) : (loadAboveRight s).Ends := by
  unfold loadAboveRight
  split
  · exact Res.Ends.bind (addr_ends _ _ h) fun a t ht =>
      Res.Ends.bind (memRead_ends a ht) fun _ _ hu => ⟨hu.quiet, hu.ports, hu.source⟩
  · exact ⟨h.quiet, h.ports, h.source⟩

theorem encodePixel_ends {s : State} (h : Answering s) : (encodePixel s).Ends := by
  refine Res.Ends.bind (loadAboveRight_ends ⟨h.quiet, h.ports, h.source⟩) fun _ t ht => ?_
  refine Res.Ends.bind (addr_ends _ _ ⟨ht.quiet, ht.ports, ht.source⟩) fun a u hu => ?_
  refine Res.Ends.bind (memRead_ends a hu) fun x v hv => ?_
  exact Res.Ends.bind (riceEncode_ends _ _ hv) fun _ _ hw => ⟨hw.quiet, hw.ports, hw.source⟩

theorem decodePixel_ends {s : State} (h : Answering s) : (decodePixel s).Ends := by
  refine Res.Ends.bind (loadAboveRight_ends ⟨h.quiet, h.ports, h.source⟩) fun _ t ht => ?_
  refine Res.Ends.bind (riceDecode_ends _ ⟨ht.quiet, ht.ports, ht.source⟩) fun res u hu => ?_
  refine Res.Ends.bind (addr_ends _ _ hu) fun a v hv => ?_
  exact Res.Ends.bind (memWrite_ends a _ hv) fun _ _ hw => ⟨hw.quiet, hw.ports, hw.source⟩

theorem scanPlane_ends {pixel : State → Res Unit} (hp : ∀ s, Answering s → (pixel s).Ends) {s : State} (h : Answering s) :
    (scanPlane pixel s).Ends := by
  have hrow : ∀ n s, Answering s → (scanRow pixel n s).Ends := by
    intro n
    induction n with
    | zero => exact fun _ h => h
    | succ n ih => exact fun s h => Res.Ends.bind (hp s h) fun _ _ ht => ih _ ⟨ht.quiet, ht.ports, ht.source⟩
  have hrows : ∀ n s, Answering s → (scanRows pixel n s).Ends := by
    intro n
    induction n with
    | zero => exact fun _ h => h
    | succ n ih =>
      exact fun s h => Res.Ends.bind (hrow _ _ ⟨h.quiet, h.ports, h.source⟩) fun _ _ ht => ih _ ⟨ht.quiet, ht.ports, ht.source⟩
  exact Res.Ends.bind (hrows _ _ ⟨h.quiet, h.ports, h.source⟩) fun _ _ ht => ⟨ht.quiet, ht.ports, ht.source⟩

end Sys2Proof.Machine
end

