-- ==== Sys2Proof/Laws/HostSim.lean ====
section
/-! SUPPORT. Host reads, writes and polls that land while a command runs do not touch it (R27, R42): every shared operation
does the same to the rest of the state whatever the host's side holds, as long as all of it is harmless. -/

namespace Sys2Proof.Machine

open Sys2Proof.Safety

variable {α β : Type}

/-- Nothing lands in `s`, only harmless actions land in `t`, and the two agree but for the host's side. -/
structure SameButHost (s t : State) : Prop where
  quiet : s.host.slots = []
  same : t = { s with host := t.host }
  harmless : t.host.queue.all harmless = true

/-- The two results agree but for the host's side, and an outcome that ends the command is a next state. -/
def Res.Same : Res α → Res α → Prop
  | .ok a s, .ok b t => a = b ∧ SameButHost s t
  | .raised e s, .raised f t => e = f ∧ SameButHost s t
  | .ended o, .ended p => ∃ s t, o = .next s ∧ p = .next t ∧ t = { s with host := t.host }
  | .ok _ _, .raised _ _ => False
  | .ok _ _, .ended _ => False
  | .raised _ _, .ok _ _ => False
  | .raised _ _, .ended _ => False
  | .ended _, .ok _ _ => False
  | .ended _, .raised _ _ => False

theorem Res.Same.bind {r r' : Res α} {f f' : α → State → Res β} (h : r.Same r')
    (hf : ∀ a s t, SameButHost s t → (f a s).Same (f' a t)) : (r.bind f).Same (r'.bind f') := by
  cases r <;> cases r' <;> first | exact h.elim | skip
  · obtain ⟨rfl, hs⟩ := h
    exact hf _ _ _ hs
  · exact h
  · exact h

/-- One harmless action. -/
theorem serveBusy_harmless {uses : Bool} {s : State} (h : s.host.queue.all harmless = true) :
    ∃ t, serveBusy uses s = .ok t ∧ t = { s with host := t.host } ∧ t.host.queue.all harmless = true := by
  unfold serveBusy
  split
  · exact ⟨s, rfl, rfl, h⟩
  · next act rest hq =>
    rw [hq, List.all_cons, Bool.and_eq_true] at h
    have hread : ∀ (offset : Nat) (q : List HostAct), q.all harmless = true →
        (busyRead offset { s with host.queue := q }) = { s with host := (busyRead offset { s with host.queue := q }).host } ∧
          (busyRead offset { s with host.queue := q }).host.queue.all harmless = true := by
      intro offset q hq
      unfold busyRead
      split
      · exact ⟨rfl, hq⟩
      · dsimp only
        split <;> exact ⟨rfl, hq⟩
    cases act with
    | read width offset =>
      have hw : (HostAct.read width offset).wellFormed = true := h.1
      rw [if_pos hw]
      exact ⟨_, rfl, hread offset rest h.2⟩
    | write width offset v =>
      have hw : (HostAct.write width offset v).wellFormed = true := h.1
      rw [if_pos hw]
      exact ⟨_, rfl, rfl, h.2⟩
    | wait =>
      refine ⟨_, rfl, ?_⟩
      have := hread (regOffset .status) s.host.queue (by rw [hq, List.all_cons, Bool.and_eq_true]; exact h)
      exact this
    | reset => exact absurd h.1 (by simp [Safety.harmless])
    | poke a v => exact absurd h.1 (by simp [Safety.harmless])
    | peek a => exact absurd h.1 (by simp [Safety.harmless])

theorem serveMany_harmless {uses : Bool} (n : Nat) {s : State} (h : s.host.queue.all harmless = true) :
    ∃ t, serveMany uses n s = .ok t ∧ t = { s with host := t.host } ∧ t.host.queue.all harmless = true := by
  induction n generalizing s with
  | zero => exact ⟨s, rfl, rfl, h⟩
  | succ n ih =>
    obtain ⟨t, ht, he, hh⟩ := serveBusy_harmless h
    obtain ⟨u, hu, he', hh'⟩ := ih hh
    refine ⟨u, by rw [serveMany, ht]; exact hu, ?_, hh'⟩
    rw [he']
    rw [he]

/-- A point where harmless actions land is passed, with a harmless rest. -/
theorem yieldHost_harmless {uses : Bool} {s : State} (h : s.host.queue.all harmless = true) :
    ∃ t, yieldHost uses s = .ok t ∧ t = { s with host := t.host } ∧ t.host.queue.all harmless = true := by
  unfold yieldHost
  split
  · exact ⟨s, rfl, rfl, h⟩
  · next n rest _ =>
    obtain ⟨t, ht, he, hh⟩ := serveMany_harmless n (s := { s with host.slots := rest }) h
    exact ⟨t, ht, he, hh⟩

/-- Both sides pass a point where actions may land. -/
theorem SameButHost.yield {uses : Bool} {s t : State} (h : SameButHost s t) :
    yieldHost uses s = .ok s ∧ ∃ u, yieldHost uses t = .ok u ∧ SameButHost s u := by
  obtain ⟨u, hu, he, hh⟩ := yieldHost_harmless h.harmless
  refine ⟨yieldHost_quiet h.quiet, u, hu, h.quiet, ?_, hh⟩
  rw [he]
  conv_lhs => rw [h.same]

theorem await_same (req : Request) {f : State → Option Answer}
    (hf : ∀ (u : State) (z : HostSide), f { u with host := z } = f u) {s t : State} (h : SameButHost s t) :
    (await req f s).Same (await req f t) := by
  have h' : SameButHost { s with ports.pending := some req } { t with ports.pending := some req } := by
    refine ⟨h.quiet, ?_, h.harmless⟩
    have := h.same
    generalize t.host = z at *
    rw [this]
  obtain ⟨h1, u, h2, hu⟩ := h'.yield
  unfold await
  rw [h1, h2]
  have hs := hu.same
  generalize u.host = z at *
  subst hs
  dsimp only
  rw [hf { s with ports.pending := some req } z]
  cases f { s with ports.pending := some req } with
  | none => exact ⟨_, _, rfl, rfl, rfl⟩
  | some a => exact ⟨rfl, h.quiet, rfl, hu.harmless⟩

/-- A request on a port: `f` is the rest of the operation after the point before it. -/
theorem SameButHost.request {s t : State} (h : SameButHost s t) {f : State → Res α}
    (hf : ∀ u, SameButHost s u → (f s).Same (f u)) :
    (match yieldHost true s with
      | .error o => Res.ended o
      | .ok s' => f s').Same
    (match yieldHost true t with
      | .error o => Res.ended o
      | .ok t' => f t') := by
  obtain ⟨h1, u, h2, hu⟩ := h.yield
  rw [h1, h2]
  exact hf u hu

theorem sinkRequest_same (req : Request) {s t : State} (h : SameButHost s t) :
    (sinkRequest req s).Same (sinkRequest req t) := by
  refine h.request fun u hu => ?_
  have hs := hu.same
  have hh := hu.harmless
  generalize u.host = z at *
  subst hs
  exact Res.Same.bind (await_same _ (fun _ _ => rfl) ⟨h.quiet, rfl, hh⟩) fun _ a b hab => ⟨rfl, hab⟩

theorem sinkByte_same (v : Octet) {s t : State} (h : SameButHost s t) : (sinkByte v s).Same (sinkByte v t) := by
  refine Res.Same.bind (sinkRequest_same _ h) fun b s' t' h' => ⟨rfl, ?_⟩
  cases b
  · exact h'
  · refine ⟨h'.quiet, ?_, h'.harmless⟩
    have := h'.same
    generalize t'.host = z at *
    subst this
    rfl

theorem sourceFetch_same {s t : State} (h : SameButHost s t) : (sourceFetch s).Same (sourceFetch t) := by
  refine h.request fun u hu => ?_
  have hs := hu.same
  have hh := hu.harmless
  generalize u.host = z at *
  subst hs
  refine Res.Same.bind (await_same _ (fun _ _ => rfl) ⟨h.quiet, rfl, hh⟩) fun _ a b hab => ?_
  dsimp only
  cases s.ports.source.next with
  | data v =>
    refine ⟨rfl, hab.quiet, ?_, hab.harmless⟩
    have := hab.same
    generalize b.host = z at *
    subst this
    rfl
  | eos => exact ⟨rfl, hab⟩
  | error => exact ⟨rfl, hab⟩
  | silent => exact ⟨_, _, rfl, rfl, hab.same⟩

theorem memRead_same (a : Word) {s t : State} (h : SameButHost s t) : (memRead a s).Same (memRead a t) := by
  refine h.request fun u hu => ?_
  have hs := hu.same
  have hh := hu.harmless
  generalize u.host = z at *
  subst hs
  refine Res.Same.bind (await_same _ ?_ ⟨h.quiet, rfl, hh⟩) fun _ b c hbc => ?_
  · intro u z
    cases s.ports.plane.next <;> rfl
  · have hv := hbc.same
    have hk := hbc.harmless
    generalize c.host = y at *
    subst hv
    have hr : s.ports.plane.next.readValue a { b with host := y } = s.ports.plane.next.readValue a b := by
      cases s.ports.plane.next <;> rfl
    dsimp only
    rw [hr]
    split <;> exact ⟨rfl, hbc.quiet, rfl, hk⟩

theorem memWrite_same (a : Word) (v : Sample) {s t : State} (h : SameButHost s t) :
    (memWrite a v s).Same (memWrite a v t) := by
  refine h.request fun u hu => ?_
  have hs := hu.same
  have hh := hu.harmless
  generalize u.host = z at *
  subst hs
  refine Res.Same.bind (await_same _ (fun _ _ => rfl) ⟨h.quiet, rfl, hh⟩) fun _ a b hab => ?_
  dsimp only
  split <;> exact ⟨rfl, hab⟩

/-- A change of both states that does not read or write the host's side. -/
theorem SameButHost.map {s t : State} (h : SameButHost s t) (g : State → State)
    (hg : ∀ (u : State) (z : HostSide), g { u with host := z } = { g u with host := z }) (hk : ∀ u, (g u).host = u.host) :
    SameButHost (g s) (g t) := by
  have hs := h.same
  have hh := h.harmless
  generalize t.host = z at *
  subst hs
  refine ⟨by rw [hk]; exact h.quiet, by rw [hg], by rw [hk]; exact hh⟩

theorem putBit_same (b : Bool) {s t : State} (h : SameButHost s t) : (putBit b s).Same (putBit b t) := by
  have hw : t.writer = s.writer := (congrArg State.writer h.same :)
  unfold putBit
  rw [hw]
  dsimp only
  split
  · refine Res.Same.bind (sinkByte_same _ ?_) fun a s' t' h' => ?_
    · exact h.map (fun u => { u with writer.wacc := 0, writer.wbits := 0 }) (fun _ _ => rfl) fun _ => rfl
    · cases a <;> exact ⟨rfl, h'⟩
  · refine ⟨rfl, ?_⟩
    exact h.map (fun u => { u with
      writer := { wacc := (s.writer.wacc <<< 1) ||| (BitVec.ofBool b).setWidth 8, wbits := s.writer.wbits + 1 } })
      (fun _ _ => rfl) fun _ => rfl

theorem writeBits_same (v : DoubleWord) (n : Nat) {s t : State} (h : SameButHost s t) :
    (writeBits v n s).Same (writeBits v n t) := by
  induction n generalizing s t with
  | zero => exact ⟨rfl, h⟩
  | succ n ih => exact Res.Same.bind (putBit_same _ h) fun _ _ _ h' => ih h'

theorem flushWriter_same (report : Bool) {s t : State} (h : SameButHost s t) :
    (flushWriter report s).Same (flushWriter report t) := by
  have hw : t.writer = s.writer := (congrArg State.writer h.same :)
  refine Res.Same.bind ?_ fun _ s' t' h' => Res.Same.bind (sinkRequest_same _ h') fun a s'' t'' h'' => ?_
  · unfold flushPad
    rw [hw]
    split
    · refine Res.Same.bind (sinkByte_same _ ?_) fun a s' t' h' => ?_
      · exact h.map (fun u => { u with writer.wacc := 0, writer.wbits := 0 }) (fun _ _ => rfl) fun _ => rfl
      · split <;> exact ⟨rfl, h'⟩
    · exact ⟨rfl, h⟩
  · split <;> exact ⟨rfl, h''⟩

theorem takeBit_same {s t : State} (h : SameButHost s t) : (takeBit s).Same (takeBit t) := by
  have hr : t.reader = s.reader := (congrArg State.reader h.same :)
  unfold takeBit
  rw [hr]
  refine ⟨rfl, ?_⟩
  exact h.map (fun u => { u with reader := { racc := s.reader.racc, rbits := s.reader.rbits - 1 } }) (fun _ _ => rfl)
    fun _ => rfl

theorem getBit_same {s t : State} (h : SameButHost s t) : (getBit s).Same (getBit t) := by
  have hr : t.reader = s.reader := (congrArg State.reader h.same :)
  unfold getBit
  rw [hr]
  split
  · refine Res.Same.bind (sourceFetch_same h) fun v s' t' h' => takeBit_same ?_
    exact h'.map (fun u => { u with reader.racc := v, reader.rbits := 8 }) (fun _ _ => rfl) fun _ => rfl
  · exact takeBit_same h

theorem readBits_same (n : Nat) (v : DoubleWord) {s t : State} (h : SameButHost s t) :
    (readBits n v s).Same (readBits n v t) := by
  induction n generalizing s t v with
  | zero => exact ⟨rfl, h⟩
  | succ n ih => exact Res.Same.bind (getBit_same h) fun _ _ _ h' => ih _ h'

theorem riceEncode_same (k : Nat) (x : Word) {s t : State} (h : SameButHost s t) :
    (riceEncode k x s).Same (riceEncode k x t) := by
  refine Res.Same.bind (writeBits_same _ _ ?_) fun _ _ _ h' => writeBits_same _ _ h'
  exact h.map (fun u => { u with word.prefixLen := (quotient k x).setWidth 33 + 1 }) (fun _ _ => rfl) fun _ => rfl

theorem countPrefix_same (fuel : Nat) {s t : State} (h : SameButHost s t) :
    (countPrefix fuel s).Same (countPrefix fuel t) := by
  induction fuel generalizing s t with
  | zero => exact ⟨s, t, rfl, rfl, h.same⟩
  | succ n ih =>
    refine Res.Same.bind (getBit_same h) fun b s' t' h' => ?_
    cases b
    · exact ih (h'.map (fun u => { u with word.q := u.word.q + 1 }) (fun _ _ => rfl) fun _ => rfl)
    · exact ⟨rfl, h'⟩

theorem riceDecode_same (k : Nat) {s t : State} (h : SameButHost s t) : (riceDecode k s).Same (riceDecode k t) := by
  have hf : prefixFuel t = prefixFuel s := (congrArg prefixFuel h.same :)
  unfold riceDecode
  rw [hf]
  refine Res.Same.bind (countPrefix_same _ ?_) fun _ s' t' h' => Res.Same.bind (readBits_same _ _ h') fun r s'' t'' h'' => ?_
  · exact h.map (fun u => { u with word.q := 0 }) (fun _ _ => rfl) fun _ => rfl
  · exact ⟨by rw [show t''.word = s''.word from (congrArg State.word h''.same :)], h''⟩

theorem addr_same (row col : Nat) {s t : State} (h : SameButHost s t) : (addr row col s).Same (addr row col t) := by
  have ha : addrNat row col t = addrNat row col s := (congrArg (addrNat row col) h.same :)
  unfold addr
  rw [ha]
  split <;> exact ⟨rfl, h⟩

theorem loadAboveRight_same {s t : State} (h : SameButHost s t) : (loadAboveRight s).Same (loadAboveRight t) := by
  have hs : t.scan = s.scan := (congrArg State.scan h.same :)
  have ha : hasAboveRight t = hasAboveRight s := (congrArg hasAboveRight h.same :)
  unfold loadAboveRight
  rw [ha, hs]
  split
  · refine Res.Same.bind (addr_same _ _ h) fun a s' t' h' => Res.Same.bind (memRead_same a h') fun v s'' t'' h'' => ⟨rfl, ?_⟩
    exact h''.map (fun u => { u with scan.d := v }) (fun _ _ => rfl) fun _ => rfl
  · exact ⟨rfl, h.map (fun u => { u with scan := { s.scan with d := 0 } }) (fun _ _ => rfl) fun _ => rfl⟩

theorem encodePixel_same {s t : State} (h : SameButHost s t) : (encodePixel s).Same (encodePixel t) := by
  refine Res.Same.bind (loadAboveRight_same (h.map markPosition (fun _ _ => rfl) fun _ => rfl)) fun _ s1 t1 h1 => ?_
  have h2 := h1.map predict (fun _ _ => rfl) fun _ => rfl
  dsimp only
  rw [show (predict t1).scan = (predict s1).scan from (congrArg State.scan h2.same :)]
  refine Res.Same.bind (addr_same _ _ h2) fun a s3 t3 h3 => Res.Same.bind (memRead_same a h3) fun x s4 t4 h4 => ?_
  rw [show t4.scan = s4.scan from (congrArg State.scan h4.same :)]
  refine Res.Same.bind (riceEncode_same _ _ h4) fun _ s5 t5 h5 => ⟨rfl, ?_⟩
  exact h5.map (roll x) (fun _ _ => rfl) fun _ => rfl

theorem decodePixel_same {s t : State} (h : SameButHost s t) : (decodePixel s).Same (decodePixel t) := by
  refine Res.Same.bind (loadAboveRight_same (h.map markPosition (fun _ _ => rfl) fun _ => rfl)) fun _ s1 t1 h1 => ?_
  have h2 := h1.map predict (fun _ _ => rfl) fun _ => rfl
  dsimp only
  rw [show (predict t1).scan = (predict s1).scan from (congrArg State.scan h2.same :)]
  refine Res.Same.bind (riceDecode_same _ h2) fun x s3 t3 h3 => ?_
  rw [show t3.scan = s3.scan from (congrArg State.scan h3.same :)]
  refine Res.Same.bind (addr_same _ _ h3) fun a s4 t4 h4 => Res.Same.bind (memWrite_same a _ h4) fun _ s5 t5 h5 => ⟨rfl, ?_⟩
  exact h5.map (roll _) (fun _ _ => rfl) fun _ => rfl

theorem scanPlane_same {pixel : State → Res Unit} (hp : ∀ s t, SameButHost s t → (pixel s).Same (pixel t)) {s t : State}
    (h : SameButHost s t) : (scanPlane pixel s).Same (scanPlane pixel t) := by
  have hrow : ∀ n s t, SameButHost s t → (scanRow pixel n s).Same (scanRow pixel n t) := by
    intro n
    induction n with
    | zero => exact fun _ _ h => ⟨rfl, h⟩
    | succ n ih =>
      refine fun s t h => Res.Same.bind (hp s t h) fun _ s' t' h' => ih _ _ ?_
      exact h'.map (fun u => { u with scan.col := u.scan.col + 1 }) (fun _ _ => rfl) fun _ => rfl
  have hrows : ∀ n s t, SameButHost s t → (scanRows pixel n s).Same (scanRows pixel n t) := by
    intro n
    induction n with
    | zero => exact fun _ _ h => ⟨rfl, h⟩
    | succ n ih =>
      intro s t h
      unfold scanRows
      rw [show t.regs = s.regs from (congrArg State.regs h.same :)]
      refine Res.Same.bind (hrow _ _ _ (h.map startRow (fun _ _ => rfl) fun _ => rfl)) fun _ s' t' h' => ih _ _ ?_
      exact h'.map (fun u => { u with scan.row := u.scan.row + 1 }) (fun _ _ => rfl) fun _ => rfl
  unfold scanPlane
  rw [show t.regs.pheight = s.regs.pheight from (congrArg (fun u => u.regs.pheight) h.same :)]
  refine Res.Same.bind (hrows _ _ _ (h.map (fun u => { u with scan.b := 0, scan.row := 0 }) (fun _ _ => rfl) fun _ => rfl))
    fun _ s' t' h' => ⟨rfl, ?_⟩
  exact h'.map (fun u => { u with regs.posRow := u.regs.pheight, regs.posCol := 0 }) (fun _ _ => rfl) fun _ => rfl

end Sys2Proof.Machine
end

