-- ==== Sys2Proof/Laws/PerInstr.lean ====
section
/-! SUPPORT. What holds of every command as syntax (R100 to R103), one lemma per command. -/

namespace Sys2Proof.Laws.Cmd32

/-- The command is well formed, its word has a zero reserved field and its own OPCODE, the OPCODE is inside the map, and the
word is legal (R100 to R103). -/
def Statement (i : Instr) : Prop :=
  i.wellFormed = true ∧ reservedField (encode i) = 0#28 ∧ opcodeField (encode i) = opcodeOf i ∧
    (opcodeOf i).toNat ≤ 0xA ∧ commandWordLegal (encode i) = true

theorem nop : Statement .nop := by simp only [Statement]; decide

theorem bsWrite : Statement .bsWrite := by simp only [Statement]; decide

theorem bsFlush : Statement .bsFlush := by simp only [Statement]; decide

theorem bsRead : Statement .bsRead := by simp only [Statement]; decide

theorem bsRalign : Statement .bsRalign := by simp only [Statement]; decide

theorem riceK : Statement .riceK := by simp only [Statement]; decide

theorem riceEnc : Statement .riceEnc := by simp only [Statement]; decide

theorem riceDec : Statement .riceDec := by simp only [Statement]; decide

theorem medPred : Statement .medPred := by simp only [Statement]; decide

theorem planeEnc : Statement .planeEnc := by simp only [Statement]; decide

theorem planeDec : Statement .planeDec := by simp only [Statement]; decide

end Sys2Proof.Laws.Cmd32
end

