-- ==== Sys2Proof/Laws/Plane.lean ====
section
/-! SUPPORT. The plane codec while no outside action lands and plane memory serves: the scan state that one pixel leaves for
the next, and what an encode and a decode pixel step do. -/

namespace Sys2Proof.Machine

open Sys2Proof.Safety

/-! ### The unfold undoes the fold on its domain (R173) -/


theorem msb_of_domain {x : Word} (h : InFoldDomain x) : x.getLsbD 30 = x.msb := by
  obtain ⟨h1, h2⟩ := h
  rw [BitVec.toInt_eq_toNat_cond] at h1 h2
  have := x.isLt
  rw [← BitVec.testBit_toNat, BitVec.msb_eq_decide, Nat.testBit_eq_decide_div_mod_eq]
  congr 1
  simp only [eq_iff_iff]
  split at h1 <;> omega

theorem getLsbD_fold {x : Word} (h : InFoldDomain x) {i : Nat} (hi : i < 32) :
    (fold x).getLsbD i = (x.msb ^^ (decide (0 < i) && x.getLsbD (i - 1))) := by
  have hs : (x.sshiftRight 30).getLsbD i = x.msb := by
    rw [BitVec.getLsbD_sshiftRight]
    by_cases h0 : i = 0
    · subst h0; simpa [BitVec.getLsbD_eq_getElem] using msb_of_domain h
    · by_cases h1 : i = 1
      · subst h1; simp [BitVec.msb_eq_getLsbD_last]
      · simp [show ¬ 30 + i < 32 by omega, show ¬ 32 ≤ i by omega]
  rw [fold, BitVec.getLsbD_xor, hs, BitVec.getLsbD_shiftLeft]
  simp [hi, Nat.pos_iff_ne_zero]

theorem unfold_fold {x : Word} (h : InFoldDomain x) : Machine.unfold (fold x) = x := by
  have h0 : (fold x).getLsbD 0 = x.msb := by rw [getLsbD_fold h (by omega)]; simp
  apply BitVec.eq_of_getLsbD_eq
  intro i hi
  have hones : (if (fold x).getLsbD 0 then 0xFFFFFFFF#32 else 0#32).getLsbD i = x.msb := by
    rw [h0]
    have : (0xFFFFFFFF#32) = BitVec.allOnes 32 := rfl
    rw [this]
    cases x.msb
    · simp
    · rw [if_pos rfl, BitVec.getLsbD_allOnes]; simp [hi]
  rw [Machine.unfold, BitVec.getLsbD_xor, BitVec.getLsbD_ushiftRight, hones, Nat.add_comm]
  by_cases h' : i + 1 < 32
  · rw [getLsbD_fold h h']; cases x.msb <;> simp
  · have : i = 31 := by omega
    subst this
    rw [BitVec.getLsbD_of_ge _ _ (by omega), BitVec.msb_eq_getLsbD_last]; simp

/-- A residual of two samples (R227) is in the fold's domain (R246). -/
theorem residual_toInt (x p : Sample) : (residual x p).toInt = (x.toNat : Int) - p.toNat := by
  have := x.isLt
  have := p.isLt
  rw [residual, BitVec.toInt_ofInt, Int.bmod_eq_of_le (by omega) (by omega)]

theorem residual_domain (x p : Sample) : InFoldDomain (residual x p) := by
  have := x.isLt
  have := p.isLt
  rw [InFoldDomain, residual_toInt]
  omega

/-- Adding the residual to the prediction gives the sample back (R228). -/
theorem reconstruct_residual (x p : Sample) : reconstruct p (residual x p) = x := by
  rw [reconstruct, residual_toInt]
  have : (p.toNat : Int) + ((x.toNat : Int) - p.toNat) = (x.toNat : Int) := by omega
  rw [this, BitVec.ofInt_natCast, BitVec.ofNat_toNat]
  simp

/-! ### The scan state (R224 to R226, R245) -/

/-- The scan state before the pixel at (row, col) of a plane of width `w`, or at the end of a row: A, B, C and FIRST are
those of R245, or B is the seed of the next row. -/
structure ScanAt (f : Nat → Nat → Sample) (w row col : Nat) (c : Scan) : Prop where
  rowAt : c.row.toNat = row
  colAt : c.col.toNat = col
  inRow : col < w → c.a = contextA f row col ∧ c.b = contextB f row col ∧ c.c = contextC f row col ∧
    (0 < col → c.first = f row 0)
  atEnd : col = w → 0 < w → c.b = f row 0

/-- The scan state before a row: B is the row's seed (R224). -/
structure RowSeed (f : Nat → Nat → Sample) (w row : Nat) (c : Scan) : Prop where
  rowAt : c.row.toNat = row
  seed : 0 < w → c.b = contextB f row 0

/-- The start of a row (R224). -/
theorem RowSeed.start {f : Nat → Nat → Sample} {w row : Nat} {s : State} (h : RowSeed f w row s.scan) :
    ScanAt f w row 0 (startRow s).scan where
  rowAt := h.rowAt
  colAt := rfl
  inRow hw := ⟨by simp [startRow, contextA], h.seed hw, by simp [startRow, contextC], by simp⟩
  atEnd h0 hw := by omega

/-- The end of a row leaves the seed of the next (R226). -/
theorem ScanAt.next_row {f : Nat → Nat → Sample} {w row : Nat} {s : State} (h : ScanAt f w row w s.scan)
    (hr : row + 1 < 2 ^ 32) : RowSeed f w (row + 1) { s.scan with row := s.scan.row + 1 } where
  rowAt := by
    have := h.rowAt
    simp
    omega
  seed hw := by simpa [contextB] using h.atEnd rfl hw

/-- Roll and seed (R226) after the pixel's sample, and the next column (R223). -/
theorem ScanAt.roll {f : Nat → Nat → Sample} {w row col : Nat} {s : State} (h : ScanAt f w row col s.scan) (hc : col < w)
    (hw : s.regs.pwidth.toNat = w) (hd : s.scan.d = contextD f w row col) :
    ScanAt f w row (col + 1) { (roll (f row col) s).scan with col := (roll (f row col) s).scan.col + 1 } := by
  obtain ⟨ha, hb, hcc, hf⟩ := h.inRow hc
  have hlt := s.regs.pwidth.isLt
  have hcol := h.colAt
  have hfirst : (if s.scan.col = 0 then f row col else s.scan.first) = f row 0 := by
    split
    · next h0 =>
      have : col = 0 := by rw [← hcol, h0]; rfl
      rw [this]
    · next h0 =>
      refine hf (Nat.pos_of_ne_zero fun hz => h0 (BitVec.eq_of_toNat_eq ?_))
      rw [hcol, hz]
      rfl
  refine ⟨h.rowAt, ?_, ?_, ?_⟩
  · simp [Machine.roll]
    omega
  · intro hc1
    have hne : ¬ s.scan.col.toNat + 1 = s.regs.pwidth.toNat := by omega
    refine ⟨by simp [Machine.roll, contextA], ?_, ?_, fun _ => by simpa [Machine.roll] using hfirst⟩
    · simp only [Machine.roll, hne, if_false]
      rw [hd]
      by_cases hr : 0 < row <;> simp [contextD, contextB, hr, hc1]
    · simp only [Machine.roll]
      rw [hb]
      by_cases hr : 0 < row <;> simp [contextB, contextC, hr]
  · intro he _
    have heq : s.scan.col.toNat + 1 = s.regs.pwidth.toNat := by omega
    simp only [Machine.roll, heq, if_true]
    exact hfirst

/-! ### The above-right sample (R225) -/

/-- What reading plane memory has done: only the plane port moved, and memory still serves. -/
structure PlaneRead (s t : State) : Prop where
  frame : t = { s with ports := { s.ports with plane := t.ports.plane, pending := t.ports.pending, log := t.ports.log } }
  plane : PlaneServes t
  log : ∃ new : List PortEvent, t.ports.log = s.ports.log ++ new ∧ ∀ e ∈ new, onPlane e.request = true

theorem PlaneServes.next {s : State} (h : PlaneServes s) :
    s.ports.plane.next = .serve ∧ portAll (fun c => c == .serve) s.ports.plane.rest = true := by
  have := portAll_next h.1
  exact ⟨by simpa using this.1, this.2⟩

theorem memRead_read (a : Word) {s : State} (hq : Quiet s) (hp : PlaneServes s) :
    ∃ t, memRead a s = .ok (Memory.read a.toNat s.ports.cells) t ∧ PlaneRead s t := by
  have hn := PlaneServes.next hp
  exact ⟨_, memRead_served a hq hn.1 hp.2, rfl, ⟨hn.2, hp.2⟩, _, rfl, by simp [onPlane]⟩

theorem addr_fits {row col : Nat} {s : State} (h : addrNat row col s < 2 ^ 32) :
    addr row col s = .ok (BitVec.ofNat 32 (addrNat row col s)) s := by
  rw [addr, if_neg (by omega)]

/-- D of the pixel (R225): the sample above right, or 0. -/
theorem loadAboveRight_read {f : Nat → Nat → Sample} {w row col : Nat} {s : State} (hq : Quiet s) (hp : PlaneServes s)
    (hr : s.scan.row.toNat = row) (hc : s.scan.col.toNat = col) (hw : s.regs.pwidth.toNat = w)
    (hm : 0 < row → col + 1 < w →
      addrNat (row - 1) (col + 1) s < 2 ^ 32 ∧
        Memory.read (addrNat (row - 1) (col + 1) s) s.ports.cells = f (row - 1) (col + 1)) :
    ∃ t, loadAboveRight s = .ok () t ∧ PlaneRead { s with scan.d := contextD f w row col } t := by
  by_cases h : 0 < row ∧ col + 1 < w
  · obtain ⟨hfit, hread⟩ := hm h.1 h.2
    have hb : hasAboveRight s = true := by simp [hasAboveRight, hr, hc, hw, h]
    obtain ⟨t, ht, g⟩ := memRead_read (BitVec.ofNat 32 (addrNat (row - 1) (col + 1) s)) hq hp
    refine ⟨{ t with scan.d := f (row - 1) (col + 1) }, ?_, ?_⟩
    · simp only [loadAboveRight, hb, if_true, hr, hc]
      rw [addr_fits hfit]
      simp only [Res.bind_ok]
      rw [ht]
      simp only [Res.bind_ok]
      rw [show (BitVec.ofNat 32 (addrNat (row - 1) (col + 1) s)).toNat = addrNat (row - 1) (col + 1) s by
        rw [BitVec.toNat_ofNat, Nat.mod_eq_of_lt hfit], hread]
    · refine ⟨?_, g.plane, g.log⟩
      have hf := g.frame
      rw [show contextD f w row col = f (row - 1) (col + 1) by simp [contextD, h]]
      conv_lhs => rw [hf]
  · have hb : hasAboveRight s = false := by
      simp only [hasAboveRight, hr, hc, hw, Bool.and_eq_false_iff, decide_eq_false_iff_not]
      omega
    refine ⟨{ s with scan.d := 0 }, by simp [loadAboveRight, hb], ?_⟩
    rw [show contextD f w row col = 0 by simp [contextD, h]]
    exact ⟨rfl, hp, [], by simp, by simp⟩

end Sys2Proof.Machine
end

