-- ==== Sys2Proof/Laws/PlaneDec.lean ====
section
/-! SUPPORT. PLANE_DEC while no outside action lands and plane memory serves: the samples that its pixel steps, rows and scan
write for the codewords they read. -/

namespace Sys2Proof.Machine

open Sys2Proof.Safety

/-- Is pixel (i, j) before (row, col) in raster order (R223)? -/
abbrev Before (row col i j : Nat) : Prop := i < row ∨ i = row ∧ j < col

/-- The cells once the pixels before (row, col) are written with the samples `f`. -/
structure CellsBefore (s : State) (f : Nat → Nat → Sample) (row col : Nat) (cells : Memory) : Prop where
  inside : ∀ i j, InPlane s i j →
    Memory.lookup (addrNat i j s) cells =
      if Before row col i j then some (f i j) else Memory.lookup (addrNat i j s) s.ports.cells
  outside : ∀ a, (∀ i j, InPlane s i j → addrNat i j s ≠ a) → Memory.lookup a cells = Memory.lookup a s.ports.cells

/-- What part of a decoding scan has done since `s`: it took `n` bits, and beside the source's side and the cells only POS,
the scan state, Q and the plane port moved. -/
structure Decoded (s t : State) (n : Nat) : Prop where
  host : t.host = s.host
  ctl : t.ctl = s.ctl
  writer : t.writer = s.writer
  regs : t.regs = { s.regs with posRow := t.regs.posRow, posCol := t.regs.posCol, inBytes := t.regs.inBytes }
  word : t.word = { s.word with q := t.word.q }
  sink : t.ports.sink = s.ports.sink
  plane : PlaneServes t
  rbits : t.reader.rbits ≤ 7
  bits : readableBits t = (readableBits s).drop n
  fetched : ∃ k : Nat,
    s.reader.rbits + 8 * k = n + t.reader.rbits ∧
    t.regs.inBytes = s.regs.inBytes + BitVec.ofNat 32 k ∧
    t.ports.source.script = s.ports.source.script.drop k ∧
    t.ports.source.tail = s.ports.source.tail

theorem Decoded.refl {s : State} (hr : s.reader.rbits ≤ 7) (hp : PlaneServes s) : Decoded s s 0 :=
  ⟨rfl, rfl, rfl, rfl, rfl, rfl, hp, hr, by simp, 0, by simp⟩

theorem Decoded.rescan {s t : State} {n : Nat} (h : Decoded s t n) (row col : Word) (c : Scan) :
    Decoded s { t with regs.posRow := row, regs.posCol := col, scan := c } n := by
  refine ⟨h.host, h.ctl, h.writer, ?_, h.word, h.sink, h.plane, h.rbits, h.bits, h.fetched⟩
  have := h.regs
  conv_lhs => rw [this]

theorem Decoded.setScan {s t : State} {n : Nat} (h : Decoded s t n) (c : Scan) : Decoded s { t with scan := c } n :=
  h.rescan t.regs.posRow t.regs.posCol c

/-- A transaction of the plane port, and any cells. -/
theorem Decoded.touch {s t : State} {n : Nat} (h : Decoded s t n) (plane : Port PlaneChoice)
    (hp : portAll (fun c => c == .serve) plane = true) (cells : Memory) (held : List Nat) (pending : Option Request)
    (log : List PortEvent) :
    Decoded s
      { t with
        ports.plane := plane
        ports.cells := cells
        ports.held := held
        ports.pending := pending
        ports.log := log } n :=
  ⟨h.host, h.ctl, h.writer, h.regs, h.word, h.sink, ⟨hp, h.plane.2⟩, h.rbits, h.bits, h.fetched⟩

theorem Decoded.read {s t u : State} {n : Nat} (h : Decoded s t n) (g : PlaneRead t u) : Decoded s u n := by
  rw [g.frame]
  exact h.touch u.ports.plane g.plane.1 t.ports.cells t.ports.held u.ports.pending u.ports.log

/-- A codeword. -/
theorem Decoded.take {s t u : State} {q : Word} {m n : Nat} (h : Decoded s t m)
    (g : ReaderTook { t with word.q := q } u n) : Decoded s u (m + n) := by
  obtain ⟨k, e, i, p, tl⟩ := h.fetched
  obtain ⟨k', e', i', p', tl'⟩ := g.fetched
  refine ⟨g.host.trans h.host, g.ctl.trans h.ctl, g.writer.trans h.writer, ?_, ?_, g.sinkPort.trans h.sink, ?_, g.rbits, ?_,
    k + k', ?_, ?_, ?_, tl'.trans tl⟩
  · have hr := g.regs
    have := h.regs
    conv_lhs => rw [hr]
    conv_lhs => rw [this]
    rw [hr]
  · have hw := g.word
    rw [hw]
    have := h.word
    conv_lhs => rw [this]
  · exact ⟨by rw [g.plane]; exact h.plane.1, by rw [(congrArg Ports.raced g.ports :)]; exact h.plane.2⟩
  · rw [g.bits]
    show (readableBits t).drop n = _
    rw [h.bits, List.drop_drop]
  · have : t.reader.rbits + 8 * k' = n + u.reader.rbits := e'
    omega
  · rw [i']
    show t.regs.inBytes + _ = _
    rw [i]
    simp [BitVec.ofNat_add, BitVec.add_assoc]
  · rw [p']
    show t.ports.source.script.drop k' = _
    rw [p, List.drop_drop]

theorem Decoded.addrNat {s t : State} {n : Nat} (h : Decoded s t n) (row col : Nat) :
    Machine.addrNat row col t = Machine.addrNat row col s := by
  have hb : t.regs.pbase = s.regs.pbase := (congrArg Regs.pbase h.regs :)
  have hr : t.regs.prstride = s.regs.prstride := (congrArg Regs.prstride h.regs :)
  have hs : t.regs.psstride = s.regs.psstride := (congrArg Regs.psstride h.regs :)
  rw [Machine.addrNat, hb, hr, hs, Machine.addrNat]

theorem Decoded.pwidth {s t : State} {n : Nat} (h : Decoded s t n) : t.regs.pwidth = s.regs.pwidth :=
  (congrArg Regs.pwidth h.regs :)

theorem CellsBefore.refl (s : State) (f : Nat → Nat → Sample) : CellsBefore s f 0 0 s.ports.cells :=
  ⟨fun i j _ => by simp [Before], fun _ _ => rfl⟩

/-- Writing the pixel (row, col). -/
theorem CellsBefore.write {s : State} {f : Nat → Nat → Sample} {row col : Nat} {cells : Memory}
    (h : CellsBefore s f row col cells) (hd : AddressesDistinct s) (hin : InPlane s row col) :
    CellsBefore s f row (col + 1) (Memory.write (addrNat row col s) (f row col) cells) := by
  constructor
  · intro i j hij
    by_cases he : addrNat i j s = addrNat row col s
    · obtain ⟨rfl, rfl⟩ := hd _ _ _ _ hij hin he
      rw [Memory.lookup_write_same, if_pos (Or.inr ⟨rfl, by omega⟩)]
    · rw [Memory.lookup_write_other he, h.inside i j hij]
      have : Before row (col + 1) i j ↔ Before row col i j := by
        constructor
        · rintro (hlt | ⟨rfl, hj⟩)
          · exact Or.inl hlt
          · refine Or.inr ⟨rfl, ?_⟩
            have : j ≠ col := by rintro rfl; exact he rfl
            omega
        · rintro (hlt | ⟨rfl, hj⟩)
          · exact Or.inl hlt
          · exact Or.inr ⟨rfl, by omega⟩
      rw [if_congr this rfl rfl]
  · intro a hna
    rw [Memory.lookup_write_other (Ne.symm (hna row col hin)), h.outside a hna]

/-- The end of a row is the start of the next. -/
theorem CellsBefore.next_row {s : State} {f : Nat → Nat → Sample} {row : Nat} {cells : Memory}
    (h : CellsBefore s f row s.regs.pwidth.toNat cells) : CellsBefore s f (row + 1) 0 cells := by
  refine ⟨fun i j hij => ?_, h.outside⟩
  rw [h.inside i j hij]
  have : Before row s.regs.pwidth.toNat i j ↔ Before (row + 1) 0 i j := by
    have := hij.2
    simp only [Before]
    omega
  rw [if_congr this rfl rfl]

/-- The context load of a pixel step, from the cells written so far (R225). -/
theorem loadAboveRight_decoded {s t : State} {f : Nat → Nat → Sample} {row col n : Nat} (hq : Quiet s)
    (ha : AddressesFit s) (hin : InPlane s row col) (h : Decoded s t n) (hc : CellsBefore s f row col t.ports.cells)
    (hs : ScanAt f s.regs.pwidth.toNat row col t.scan) :
    ∃ u, loadAboveRight (markPosition t) = .ok () u ∧ Decoded s (predict u) n ∧
      (predict u).ports.cells = t.ports.cells ∧ (predict u).reader = t.reader ∧
      (predict u).ports.source = t.ports.source ∧
      (predict u).regs = { t.regs with posRow := t.scan.row, posCol := t.scan.col } ∧
      ScanAt f s.regs.pwidth.toNat row col (predict u).scan ∧
      (predict u).scan.d = contextD f s.regs.pwidth.toNat row col ∧
      (predict u).scan.k = pixelK f s.regs.pwidth.toNat row col ∧
      (predict u).scan.pred = pixelPrediction f row col := by
  have h1 : Decoded s (markPosition t) n := h.rescan t.scan.row t.scan.col t.scan
  obtain ⟨u, hu, g⟩ := loadAboveRight_read (f := f) (w := s.regs.pwidth.toNat) (row := row) (col := col)
    (s := markPosition t) (by rw [Quiet, h1.host]; exact hq) h1.plane hs.rowAt hs.colAt
    (by exact congrArg BitVec.toNat h.pwidth)
    (fun hr hc' => by
      have hin' : InPlane s (row - 1) (col + 1) := ⟨by have := hin.1; omega, hc'⟩
      refine ⟨by rw [h1.addrNat]; exact ha _ _ hin', ?_⟩
      rw [h1.addrNat]
      refine Memory.read_of_lookup ((hc.inside _ _ hin').trans ?_)
      rw [if_pos (Or.inl (by omega))])
  have e : Decoded s u n := (h1.setScan _).read g
  have hscan : u.scan = { t.scan with d := contextD f s.regs.pwidth.toNat row col } := (congrArg State.scan g.frame :)
  obtain ⟨hA, hB, hC, _⟩ := hs.inRow hin.2
  refine ⟨u, hu, e.setScan _, (congrArg (fun v => v.ports.cells) g.frame :), (congrArg State.reader g.frame :),
    (congrArg (fun v => v.ports.source) g.frame :), (congrArg State.regs g.frame :), ?_, ?_, ?_, ?_⟩
  · exact ⟨by simp [predict, hscan, hs.rowAt], by simp [predict, hscan, hs.colAt],
      fun hlt => by simpa [predict, hscan] using hs.inRow hlt, fun he hw => by simpa [predict, hscan] using hs.atEnd he hw⟩
  · simp [predict, hscan]
  · simp [predict, hscan, pixelK, hA, hB, hC]
  · simp [predict, hscan, pixelPrediction, hA, hB, hC]

/-- The number a codeword's remainder and quotient spell is the folded residual (R174, R175). -/
theorem unfold_codeword {k : Nat} (hk : k ≤ 31) {x : Word} (hx : InFoldDomain x) :
    Machine.unfold (BitVec.ofNat 32 ((quotient k x).toNat * 2 ^ k + bitsNat (valueBits (remainder k x) k))) = x := by
  obtain ⟨h1, h2⟩ := quotient_remainder k hk x
  rw [bitsNat_valueBits, Nat.mod_eq_of_lt h2, h1, BitVec.ofNat_toNat, BitVec.setWidth_eq, unfold_fold hx]

theorem pixelK_le (f : Nat → Nat → Sample) (w row col : Nat) : pixelK f w row col ≤ 31 :=
  (computeK_le _ _ _ _).trans (by omega)

/-- The decode pixel step (R228) at (row, col), from a stream that goes on with that pixel's codeword. -/
theorem decodePixel_decoded {s t : State} {f : Nat → Nat → Sample} {row col n : Nat} {rest : List Bool} (hq : Quiet s)
    (ha : AddressesFit s) (hd : AddressesDistinct s) (hin : InPlane s row col) (h : Decoded s t n)
    (hc : CellsBefore s f row col t.ports.cells) (hs : ScanAt f s.regs.pwidth.toNat row col t.scan)
    (hb : readableBits t = pixelCodeword f s.regs.pwidth.toNat row col ++ rest) :
    ∃ u, decodePixel t = .ok () u ∧ Decoded s u (n + (pixelCodeword f s.regs.pwidth.toNat row col).length) ∧
      CellsBefore s f row (col + 1) u.ports.cells ∧ readableBits u = rest ∧
      ScanAt f s.regs.pwidth.toNat row (col + 1) { u.scan with col := u.scan.col + 1 } := by
  obtain ⟨u1, hu1, e1, hcells1, hread1, hsrc1, _, hs1, hd1, hk1, hp1⟩ := loadAboveRight_decoded hq ha hin h hc hs
  have hquiet : ∀ {v : State} {m : Nat}, Decoded s v m → Quiet v := fun g => by rw [Quiet, g.host]; exact hq
  have hk := pixelK_le f s.regs.pwidth.toNat row col
  have hb1 : readableBits (predict u1) = readableBits t := by rw [readableBits, hread1, hsrc1, readableBits]
  obtain ⟨u2, hu2, g2, hb2⟩ := riceDecode_took (pixelK f s.regs.pwidth.toNat row col)
    (quotient (pixelK f s.regs.pwidth.toNat row col) (residual (f row col) (pixelPrediction f row col))).toNat
    (s := predict u1) (rest := rest)
    (r := valueBits (remainder (pixelK f s.regs.pwidth.toNat row col) (residual (f row col) (pixelPrediction f row col)))
      (pixelK f s.regs.pwidth.toNat row col))
    (hquiet e1) e1.rbits hk (by rw [hb1, hb]; simp [pixelCodeword, codeword]) (by simp)
  rw [unfold_codeword hk (residual_domain _ _)] at hu2
  have e2 := e1.take g2
  have hscan2 : u2.scan = (predict u1).scan := g2.scan
  have hcells2 : u2.ports.cells = t.ports.cells := g2.cells.trans hcells1
  have hfit : Machine.addrNat row col u2 < 2 ^ 32 := by rw [e2.addrNat]; exact ha _ _ hin
  have hn := PlaneServes.next e2.plane
  have hx : reconstruct u2.scan.pred (residual (f row col) (pixelPrediction f row col)) = f row col := by
    rw [hscan2, hp1, reconstruct_residual]
  have haddr : (BitVec.ofNat 32 (Machine.addrNat row col u2)).toNat = Machine.addrNat row col s := by
    rw [BitVec.toNat_ofNat, Nat.mod_eq_of_lt hfit, e2.addrNat]
  have hw := memWrite_served (BitVec.ofNat 32 (Machine.addrNat row col u2)) (f row col) (hquiet e2) hn.1
  rw [haddr, hcells2] at hw
  have hlen : (pixelCodeword f s.regs.pwidth.toNat row col).length =
      (quotient (pixelK f s.regs.pwidth.toNat row col) (residual (f row col) (pixelPrediction f row col))).toNat + 1 +
        pixelK f s.regs.pwidth.toNat row col := codeword_length _ _
  refine ⟨roll (f row col) (answered (.planeWrite (BitVec.ofNat 32 (Machine.addrNat row col u2)) (f row col)) .ok
    { u2 with
      ports.plane := u2.ports.plane.rest
      ports.cells := Memory.write (Machine.addrNat row col s) (f row col) t.ports.cells
      ports.held := holdCell (Machine.addrNat row col s) u2.ports.held }), ?_, ?_, hc.write hd hin, hb2, ?_⟩
  · simp only [decodePixel]
    rw [hu1]
    simp only [Res.bind_ok]
    rw [hk1, hu2]
    simp only [Res.bind_ok]
    have hr : u2.scan.row.toNat = row := by rw [hscan2, hs1.rowAt]
    have hcl : u2.scan.col.toNat = col := by rw [hscan2, hs1.colAt]
    rw [hr, hcl, addr_fits hfit]
    simp only [Res.bind_ok]
    rw [hx, hw]
    rfl
  · rw [hlen]
    exact (e2.touch u2.ports.plane.rest hn.2 _ _ none _).setScan _
  · refine ScanAt.roll (s := answered _ _ _) ?_ hin.2 ?_ ?_
    · show ScanAt f _ row col u2.scan
      rw [hscan2]
      exact hs1
    · show u2.regs.pwidth.toNat = _
      rw [e2.pwidth]
    · show u2.scan.d = _
      rw [hscan2, hd1]

/-- The decode pixel step (R228) at (row, col) when the source ends inside that pixel's codeword: POS names the pixel, and no
cell is written. -/
theorem decodePixel_stopped {s t : State} {f : Nat → Nat → Sample} {row col n : Nat} {cut gone : List Bool}
    {bytes : List Octet} {last : SourceChoice} {more : List SourceChoice} (hq : Quiet s) (ha : AddressesFit s)
    (hin : InPlane s row col) (h : Decoded s t n) (hc : CellsBefore s f row col t.ports.cells)
    (hs : ScanAt f s.regs.pwidth.toNat row col t.scan) (hl : last = .eos ∨ last = .error)
    (hscr : t.ports.source.script = bytes.map .data ++ last :: more) (hb : readableBits t = cut)
    (hcw : pixelCodeword f s.regs.pwidth.toNat row col = cut ++ gone) (hg : gone ≠ []) :
    ∃ u, decodePixel t = .raised (sourceError last) u ∧ u.host = s.host ∧ u.ctl = s.ctl ∧ u.writer = s.writer ∧
      u.regs = { s.regs with
        posRow := t.scan.row
        posCol := t.scan.col
        inBytes := t.regs.inBytes + BitVec.ofNat 32 bytes.length } ∧
      u.ports.sink = s.ports.sink ∧ u.ports.source.script = more ∧ u.ports.cells = t.ports.cells := by
  obtain ⟨u1, hu1, e1, hcells1, hread1, hsrc1, hregs1, hs1, _, hk1, _⟩ := loadAboveRight_decoded hq ha hin h hc hs
  have hb1 : readableBits (predict u1) = cut := by rw [readableBits, hread1, hsrc1, ← hb, readableBits]
  obtain ⟨u2, q, hu2, hf, _⟩ := riceDecode_stopped _ _ (by rw [Quiet, e1.host]; exact hq) e1.rbits hl
    (by rw [hsrc1]; exact hscr) hb1 hcw hg
  refine ⟨u2, ?_, (congrArg State.host hf :).trans e1.host, (congrArg State.ctl hf :).trans e1.ctl,
    (congrArg State.writer hf :).trans e1.writer, ?_, (congrArg (fun v => v.ports.sink) hf :).trans e1.sink,
    (congrArg (fun v => v.ports.source.script) hf :), (congrArg (fun v => v.ports.cells) hf :).trans hcells1⟩
  · simp only [decodePixel]
    rw [hu1]
    simp only [Res.bind_ok]
    rw [hk1, hu2]
    rfl
  · have hu : u2.regs = { (predict u1).regs with inBytes := (predict u1).regs.inBytes + BitVec.ofNat 32 bytes.length } :=
      (congrArg State.regs hf :)
    rw [hu, hregs1]
    have := h.regs
    generalize t.regs.inBytes = z at *
    conv_lhs => rw [this]

/-- A row in two parts. -/
theorem scanRow_append (pixel : State → Res Unit) (m n : Nat) (s : State) :
    scanRow pixel (m + n) s = (scanRow pixel m s).bind fun _ t => scanRow pixel n t := by
  induction m generalizing s with
  | zero => simp [scanRow]
  | succ m ih =>
    rw [Nat.add_right_comm]
    simp only [scanRow]
    rw [Res.bind_assoc]
    congr 1
    funext _ t
    exact ih _

/-- `m` pixels of a row from column `col` on (R223). -/
theorem scanRow_decoded {s t : State} {f : Nat → Nat → Sample} {row col m n : Nat} {rest : List Bool} (hq : Quiet s)
    (ha : AddressesFit s) (hd : AddressesDistinct s) (hr : row < s.regs.pheight.toNat) (hm : col + m ≤ s.regs.pwidth.toNat)
    (h : Decoded s t n) (hc : CellsBefore s f row col t.ports.cells) (hs : ScanAt f s.regs.pwidth.toNat row col t.scan)
    (hb : readableBits t = (List.range' col m).flatMap (pixelCodeword f s.regs.pwidth.toNat row) ++ rest) :
    ∃ u, scanRow decodePixel m t = .ok () u ∧
      Decoded s u (n + ((List.range' col m).flatMap (pixelCodeword f s.regs.pwidth.toNat row)).length) ∧
      CellsBefore s f row (col + m) u.ports.cells ∧ readableBits u = rest ∧
      ScanAt f s.regs.pwidth.toNat row (col + m) u.scan := by
  induction m generalizing t col n with
  | zero => exact ⟨t, rfl, by simpa using h, hc, by simpa using hb, hs⟩
  | succ m ih =>
    obtain ⟨u, hu, e, hc', hb', hs'⟩ := decodePixel_decoded
      (rest := (List.range' (col + 1) m).flatMap (pixelCodeword f s.regs.pwidth.toNat row) ++ rest)
      hq ha hd ⟨hr, by omega⟩ h hc hs (by rw [hb]; simp [List.range'_succ])
    obtain ⟨v, hv, e', hc'', hb'', hs''⟩ := ih (col := col + 1) (t := { u with scan.col := u.scan.col + 1 }) (by omega)
      (e.setScan _) hc' hs' hb'
    refine ⟨v, by simpa [scanRow, hu] using hv, ?_, ?_, hb'', ?_⟩
    · simpa [List.range'_succ, Nat.add_assoc] using e'
    · rw [show col + (m + 1) = col + 1 + m by omega]
      exact hc''
    · rw [show col + (m + 1) = col + 1 + m by omega]
      exact hs''

/-- `m` rows from `row` on (R223). -/
theorem scanRows_decoded {s t : State} {f : Nat → Nat → Sample} {row m n : Nat} {rest : List Bool} (hq : Quiet s)
    (ha : AddressesFit s) (hd : AddressesDistinct s) (hm : row + m ≤ s.regs.pheight.toNat) (h : Decoded s t n)
    (hc : CellsBefore s f row 0 t.ports.cells) (hs : RowSeed f s.regs.pwidth.toNat row t.scan)
    (hb : readableBits t = ((List.range' row m).flatMap fun r =>
      (List.range s.regs.pwidth.toNat).flatMap (pixelCodeword f s.regs.pwidth.toNat r)) ++ rest) :
    ∃ u, scanRows decodePixel m t = .ok () u ∧
      Decoded s u (n + ((List.range' row m).flatMap fun r =>
        (List.range s.regs.pwidth.toNat).flatMap (pixelCodeword f s.regs.pwidth.toNat r)).length) ∧
      CellsBefore s f (row + m) 0 u.ports.cells ∧ readableBits u = rest ∧
      RowSeed f s.regs.pwidth.toNat (row + m) u.scan := by
  induction m generalizing t row n with
  | zero => exact ⟨t, rfl, by simpa using h, hc, by simpa using hb, hs⟩
  | succ m ih =>
    obtain ⟨u, hu, e, hc', hb', hs'⟩ := scanRow_decoded (t := startRow t) (col := 0) (m := s.regs.pwidth.toNat)
      (rest := ((List.range' (row + 1) m).flatMap fun r =>
        (List.range s.regs.pwidth.toNat).flatMap (pixelCodeword f s.regs.pwidth.toNat r)) ++ rest)
      hq ha hd (by omega : row < _) (by omega) (h.setScan _) hc hs.start
      (by show readableBits t = _; rw [hb]; simp [List.range'_succ, List.range_eq_range'])
    have hlt := s.regs.pheight.isLt
    rw [Nat.zero_add] at hc' hs'
    obtain ⟨v, hv, e', hc'', hb'', hs''⟩ := ih (row := row + 1) (t := { u with scan.row := u.scan.row + 1 }) (by omega)
      (e.setScan _) hc'.next_row (hs'.next_row (by omega)) hb'
    refine ⟨v, ?_, ?_, ?_, hb'', ?_⟩
    · simp only [scanRows, h.pwidth]
      rw [hu]
      exact hv
    · simpa [List.range'_succ, List.range_eq_range', Nat.add_assoc] using e'
    · rw [show row + (m + 1) = row + 1 + m by omega]
      exact hc''
    · rw [show row + (m + 1) = row + 1 + m by omega]
      exact hs''

/-- The rows in two parts. -/
theorem scanRows_append (pixel : State → Res Unit) (m n : Nat) (s : State) :
    scanRows pixel (m + n) s = (scanRows pixel m s).bind fun _ t => scanRows pixel n t := by
  induction m generalizing s with
  | zero => simp [scanRows]
  | succ m ih =>
    rw [Nat.add_right_comm]
    simp only [scanRows]
    rw [Res.bind_assoc]
    congr 1
    funext _ t
    exact ih _

/-- The scan (R223, R224, R230) of a stream that starts with a plane's codewords: every cell of the view is written, and
POS = (H, 0). -/
theorem scanPlane_decoded {s : State} {f : Nat → Nat → Sample} {rest : List Bool} (hq : Quiet s) (hr : s.reader.rbits ≤ 7)
    (hp : PlaneServes s) (ha : AddressesFit s) (hd : AddressesDistinct s)
    (hb : readableBits s = planeBits f s.regs.pwidth.toNat s.regs.pheight.toNat ++ rest) :
    ∃ u, scanPlane decodePixel s = .ok () u ∧
      Decoded s u (planeBits f s.regs.pwidth.toNat s.regs.pheight.toNat).length ∧
      CellsBefore s f s.regs.pheight.toNat 0 u.ports.cells ∧ readableBits u = rest ∧
      u.regs.posRow = s.regs.pheight ∧ u.regs.posCol = 0 := by
  obtain ⟨u, hu, e, hc, hb', _⟩ := scanRows_decoded (s := s) (t := { s with scan.b := 0, scan.row := 0 }) (f := f) (row := 0)
    (m := s.regs.pheight.toNat) (rest := rest) hq ha hd (by omega) ((Decoded.refl hr hp).setScan _) (CellsBefore.refl s f)
    ⟨rfl, fun _ => by simp [contextB]⟩ (by show readableBits s = _; rw [hb]; simp [planeBits, List.range_eq_range'])
  have hh : u.regs.pheight = s.regs.pheight := (congrArg Regs.pheight e.regs :)
  refine ⟨{ u with regs.posRow := u.regs.pheight, regs.posCol := 0 }, ?_, ?_, by simpa using hc, hb', hh, rfl⟩
  · simp only [scanPlane]
    rw [hu]
    rfl
  · have := e.rescan u.regs.pheight 0 u.scan
    simpa [planeBits, List.range_eq_range'] using this

end Sys2Proof.Machine
end

