-- ==== Sys2Proof/Laws/PlaneEnc.lean ====
section
/-! SUPPORT. PLANE_ENC while no outside action lands, the sink accepts and plane memory serves: the codewords that its pixel
steps, rows and scan append. -/

namespace Sys2Proof.Machine

open Sys2Proof.Safety

/-- What part of an encoding scan has done since `s`: it appended `bits`, and beside the sink's side only POS, the scan
state, the prefix counter and the plane port moved. -/
structure Encoded (s t : State) (bits : List Bool) : Prop where
  host : t.host = s.host
  ctl : t.ctl = s.ctl
  reader : t.reader = s.reader
  regs : t.regs = { s.regs with posRow := t.regs.posRow, posCol := t.regs.posCol, outBytes := t.regs.outBytes }
  word : t.word = { s.word with prefixLen := t.word.prefixLen }
  cells : t.ports.cells = s.ports.cells
  source : t.ports.source = s.ports.source
  wbits : t.writer.wbits ≤ 7
  sink : SinkAccepts t
  plane : PlaneServes t
  sent : ∃ new : List PortEvent,
    t.ports.log = s.ports.log ++ new ∧
    (∀ e ∈ new, e.request ≠ .flush) ∧
    octetsBits (sinkStream new) ++ pendingBits t.writer = pendingBits s.writer ++ bits ∧
    t.regs.outBytes = s.regs.outBytes + BitVec.ofNat 32 (sinkStream new).length

theorem Encoded.refl {s : State} (hw : s.writer.wbits ≤ 7) (hs : SinkAccepts s) (hp : PlaneServes s) : Encoded s s [] :=
  ⟨rfl, rfl, rfl, rfl, rfl, rfl, rfl, hw, hs, hp, [], by simp [sinkStream]⟩

/-- Another position, other scan registers. -/
theorem Encoded.rescan {s t : State} {bits : List Bool} (h : Encoded s t bits) (row col : Word) (c : Scan) :
    Encoded s { t with regs.posRow := row, regs.posCol := col, scan := c } bits := by
  refine ⟨h.host, h.ctl, h.reader, ?_, h.word, h.cells, h.source, h.wbits, h.sink, h.plane, h.sent⟩
  have := h.regs
  conv_lhs => rw [this]

/-- Other scan registers. -/
theorem Encoded.setScan {s t : State} {bits : List Bool} (h : Encoded s t bits) (c : Scan) :
    Encoded s { t with scan := c } bits :=
  h.rescan t.regs.posRow t.regs.posCol c

theorem sinkStream_onPlane {l : List PortEvent} (h : ∀ e ∈ l, onPlane e.request = true) :
    sinkStream l = [] ∧ ∀ e ∈ l, e.request ≠ .flush := by
  constructor
  · simp only [sinkStream, List.filterMap_eq_nil_iff]
    intro e he
    have := h e he
    cases hr : e.request <;> simp_all [onPlane]
  · intro e he hr
    have := h e he
    rw [hr] at this
    cases this

/-- A read of plane memory. -/
theorem Encoded.read {s t u : State} {bits : List Bool} (h : Encoded s t bits) (g : PlaneRead t u) : Encoded s u bits := by
  obtain ⟨n, hl, hf, hb, ho⟩ := h.sent
  obtain ⟨m, gl, gp⟩ := g.log
  obtain ⟨gs, gf⟩ := sinkStream_onPlane gp
  have hg := g.frame
  have hplane := g.plane
  generalize u.ports.plane = a at hg
  generalize u.ports.pending = b at hg
  generalize u.ports.log = c at hg gl
  subst hg
  refine ⟨h.host, h.ctl, h.reader, h.regs, h.word, h.cells, h.source, h.wbits, h.sink, hplane, n ++ m, ?_, ?_, ?_, ?_⟩
  · show c = _
    rw [gl, hl, List.append_assoc]
  · intro e he
    rcases List.mem_append.mp he with he | he
    · exact hf e he
    · exact gf e he
  · rw [sinkStream_append, gs, List.append_nil]
    exact hb
  · rw [sinkStream_append, gs, List.append_nil]
    exact ho

theorem sentBytes_noFlush (l : List Octet) : ∀ e ∈ l.map sentByte, e.request ≠ .flush := by
  intro e he
  obtain ⟨v, _, rfl⟩ := List.mem_map.mp he
  simp [sentByte]

/-- A codeword. -/
theorem Encoded.grow {s t u : State} {p : BitVec 33} {bits more : List Bool} (h : Encoded s t bits)
    (g : WriterGrew { t with word.prefixLen := p } u more) : Encoded s u (bits ++ more) := by
  obtain ⟨n, hl, hf, hb, ho⟩ := h.sent
  obtain ⟨m, gl, gb, go⟩ := g.sent
  refine ⟨g.host.trans h.host, g.ctl.trans h.ctl, g.reader.trans h.reader, ?_, ?_, g.cells.trans h.cells,
    g.source.trans h.source, g.wbits, g.sink, ?_, n ++ m.map sentByte, ?_, ?_, ?_, ?_⟩
  · have hr := g.regs
    have := h.regs
    conv_lhs => rw [hr]
    conv_lhs => rw [this]
    rw [hr]
  · have hw := g.word
    rw [hw]
    have := h.word
    conv_lhs => rw [this]
  · exact ⟨by rw [g.plane]; exact h.plane.1, by rw [(congrArg Ports.raced g.ports :)]; exact h.plane.2⟩
  · rw [gl, hl, List.append_assoc]
  · intro e he
    rcases List.mem_append.mp he with he | he
    · exact hf e he
    · exact sentBytes_noFlush m e he
  · rw [sinkStream_append, sinkStream_sentBytes, octetsBits_append, List.append_assoc, gb]
    show octetsBits (sinkStream n) ++ (pendingBits t.writer ++ more) = _
    rw [← List.append_assoc, hb, List.append_assoc]
  · rw [go]
    show t.regs.outBytes + _ = _
    rw [ho, sinkStream_append, sinkStream_sentBytes]
    simp [BitVec.ofNat_add, BitVec.add_assoc]

theorem Encoded.addrNat {s t : State} {bits : List Bool} (h : Encoded s t bits) (row col : Nat) :
    Machine.addrNat row col t = Machine.addrNat row col s := by
  have hb : t.regs.pbase = s.regs.pbase := (congrArg Regs.pbase h.regs :)
  have hr : t.regs.prstride = s.regs.prstride := (congrArg Regs.prstride h.regs :)
  have hs : t.regs.psstride = s.regs.psstride := (congrArg Regs.psstride h.regs :)
  rw [Machine.addrNat, hb, hr, hs, Machine.addrNat]

theorem Encoded.pwidth {s t : State} {bits : List Bool} (h : Encoded s t bits) : t.regs.pwidth = s.regs.pwidth :=
  (congrArg Regs.pwidth h.regs :)

/-- The cell of a pixel holds the plane's sample all through the scan. -/
theorem Encoded.sample {s t : State} {bits : List Bool} (h : Encoded s t bits) (row col : Nat) :
    Memory.read (Machine.addrNat row col t) t.ports.cells = planeSample s row col := by
  rw [h.addrNat, h.cells, planeSample]

/-- The encode pixel step (R227) at (row, col) appends that pixel's codeword. -/
theorem encodePixel_encoded {s t : State} {row col : Nat} {bits : List Bool} (hq : Quiet s) (ha : AddressesFit s)
    (hin : InPlane s row col) (h : Encoded s t bits)
    (hs : ScanAt (planeSample s) s.regs.pwidth.toNat row col t.scan) :
    ∃ u, encodePixel t = .ok () u ∧
      Encoded s u (bits ++ pixelCodeword (planeSample s) s.regs.pwidth.toNat row col) ∧
      ScanAt (planeSample s) s.regs.pwidth.toNat row (col + 1) { u.scan with col := u.scan.col + 1 } := by
  have h1 : Encoded s (markPosition t) bits := h.rescan t.scan.row t.scan.col t.scan
  have hquiet : ∀ {v : State} {l : List Bool}, Encoded s v l → Quiet v := fun g => by rw [Quiet, g.host]; exact hq
  obtain ⟨u1, hu1, g1⟩ := loadAboveRight_read (f := planeSample s) (w := s.regs.pwidth.toNat) (row := row) (col := col)
    (s := markPosition t) (hquiet h1) h1.plane hs.rowAt hs.colAt (by exact congrArg BitVec.toNat h.pwidth)
    (fun hr hc => ⟨by rw [h1.addrNat]; exact ha _ _ ⟨by have := hin.1; omega, hc⟩, h1.sample _ _⟩)
  have e1 : Encoded s u1 bits := (h1.setScan _).read g1
  have hscan1 : u1.scan = { t.scan with d := contextD (planeSample s) s.regs.pwidth.toNat row col } :=
    (congrArg State.scan g1.frame :)
  have hp : Encoded s (predict u1) bits := e1.setScan _
  have hfit : Machine.addrNat row col (predict u1) < 2 ^ 32 := by rw [hp.addrNat]; exact ha _ _ hin
  obtain ⟨u2, hu2, g2⟩ := memRead_read (BitVec.ofNat 32 (Machine.addrNat row col (predict u1))) (hquiet hp) hp.plane
  rw [show (BitVec.ofNat 32 (Machine.addrNat row col (predict u1))).toNat = Machine.addrNat row col (predict u1) by
    rw [BitVec.toNat_ofNat, Nat.mod_eq_of_lt hfit], hp.sample] at hu2
  have e2 : Encoded s u2 bits := hp.read g2
  have hscan2 : u2.scan = (predict u1).scan := (congrArg State.scan g2.frame :)
  obtain ⟨u3, hu3, g3⟩ := riceEncode_grew u2.scan.k (residual (planeSample s row col) u2.scan.pred) (hquiet e2) e2.wbits
    e2.sink
  have e3 := e2.grow g3
  have hscan3 : u3.scan = u2.scan := g3.scan
  obtain ⟨hA, hB, hC, _⟩ := hs.inRow hin.2
  have hk : u2.scan.k = pixelK (planeSample s) s.regs.pwidth.toNat row col := by
    rw [hscan2]
    simp [predict, hscan1, pixelK, hA, hB, hC]
  have hpred : u2.scan.pred = pixelPrediction (planeSample s) row col := by
    rw [hscan2]
    simp [predict, hscan1, pixelPrediction, hA, hB, hC]
  refine ⟨roll (planeSample s row col) u3, ?_, ?_, ?_⟩
  · simp only [encodePixel]
    rw [hu1]
    simp only [Res.bind_ok]
    have hr : (predict u1).scan.row.toNat = row := by simp [predict, hscan1, hs.rowAt]
    have hc : (predict u1).scan.col.toNat = col := by simp [predict, hscan1, hs.colAt]
    rw [hr, hc, addr_fits hfit]
    simp only [Res.bind_ok]
    rw [hu2]
    simp only [Res.bind_ok]
    rw [hu3]
    rfl
  · rw [hk, hpred] at e3
    exact e3.setScan _
  · refine ScanAt.roll (s := u3) ?_ hin.2 (by rw [e3.pwidth]) ?_
    · rw [hscan3, hscan2]
      exact ⟨by simp [predict, hscan1, hs.rowAt], by simp [predict, hscan1, hs.colAt],
        fun hlt => by simpa [predict, hscan1] using hs.inRow hlt, fun he hw => by simpa [predict, hscan1] using hs.atEnd he hw⟩
    · rw [hscan3, hscan2]
      simp [predict, hscan1]

/-- A row from column `col` on (R223). -/
theorem scanRow_encoded {s t : State} {row col n : Nat} {bits : List Bool} (hq : Quiet s) (ha : AddressesFit s)
    (hr : row < s.regs.pheight.toNat) (hn : col + n = s.regs.pwidth.toNat) (h : Encoded s t bits)
    (hs : ScanAt (planeSample s) s.regs.pwidth.toNat row col t.scan) :
    ∃ u, scanRow encodePixel n t = .ok () u ∧
      Encoded s u (bits ++ (List.range' col n).flatMap (pixelCodeword (planeSample s) s.regs.pwidth.toNat row)) ∧
      ScanAt (planeSample s) s.regs.pwidth.toNat row s.regs.pwidth.toNat u.scan := by
  induction n generalizing t col bits with
  | zero =>
    refine ⟨t, rfl, by simpa using h, ?_⟩
    have : col = s.regs.pwidth.toNat := by omega
    rw [← this] at hs ⊢
    exact hs
  | succ n ih =>
    obtain ⟨u, hu, e, hs'⟩ := encodePixel_encoded hq ha ⟨hr, by omega⟩ h hs
    obtain ⟨v, hv, e', hs''⟩ := ih (col := col + 1) (t := { u with scan.col := u.scan.col + 1 }) (by omega)
      (e.setScan _) hs'
    refine ⟨v, by simpa [scanRow, hu] using hv, ?_, hs''⟩
    simpa [List.range'_succ] using e'

/-- The rows from `row` on (R223). -/
theorem scanRows_encoded {s t : State} {row n : Nat} {bits : List Bool} (hq : Quiet s) (ha : AddressesFit s)
    (hn : row + n = s.regs.pheight.toNat) (h : Encoded s t bits)
    (hs : RowSeed (planeSample s) s.regs.pwidth.toNat row t.scan) :
    ∃ u, scanRows encodePixel n t = .ok () u ∧
      Encoded s u (bits ++ (List.range' row n).flatMap fun r =>
        (List.range s.regs.pwidth.toNat).flatMap (pixelCodeword (planeSample s) s.regs.pwidth.toNat r)) := by
  induction n generalizing t row bits with
  | zero => exact ⟨t, rfl, by simpa using h⟩
  | succ n ih =>
    obtain ⟨u, hu, e, hs'⟩ := scanRow_encoded (t := startRow t) (col := 0) (n := s.regs.pwidth.toNat) hq ha
      (by omega : row < _) (by omega) (h.setScan _) hs.start
    have hlt := s.regs.pheight.isLt
    obtain ⟨v, hv, e'⟩ := ih (row := row + 1) (t := { u with scan.row := u.scan.row + 1 }) (by omega) (e.setScan _)
      (hs'.next_row (by omega))
    refine ⟨v, ?_, ?_⟩
    · simp only [scanRows, h.pwidth]
      rw [hu]
      exact hv
    · simpa [List.range'_succ, List.range_eq_range'] using e'

/-- The scan (R223, R224, R230): the plane's codewords, and POS = (H, 0). -/
theorem scanPlane_encoded {s : State} (hq : Quiet s) (hw : s.writer.wbits ≤ 7) (hs : SinkAccepts s) (hp : PlaneServes s)
    (ha : AddressesFit s) :
    ∃ u, scanPlane encodePixel s = .ok () u ∧
      Encoded s u (planeBits (planeSample s) s.regs.pwidth.toNat s.regs.pheight.toNat) ∧
      u.regs.posRow = s.regs.pheight ∧ u.regs.posCol = 0 := by
  obtain ⟨u, hu, e⟩ := scanRows_encoded (s := s) (t := { s with scan.b := 0, scan.row := 0 }) (row := 0)
    (n := s.regs.pheight.toNat) hq ha (by omega) ((Encoded.refl hw hs hp).setScan _)
    ⟨rfl, fun _ => by simp [contextB]⟩
  have hh : u.regs.pheight = s.regs.pheight := (congrArg Regs.pheight e.regs :)
  refine ⟨{ u with regs.posRow := u.regs.pheight, regs.posCol := 0 }, ?_, ?_, hh, rfl⟩
  · simp only [scanPlane]
    rw [hu]
    rfl
  · have := e.rescan u.regs.pheight 0 u.scan
    simpa [planeBits, List.range_eq_range'] using this

end Sys2Proof.Machine
end

