-- ==== Sys2Proof/Laws/PlaneStops.lean ====
section
/-! SUPPORT. PLANE_ENC's scan and exit flush while no outside action lands and the ports answer, whatever they answer: how far
the scan comes, which transaction stops it and at which pixel, and what the exit flush still sends (R230, R231, R288). -/

namespace Sys2Proof.Machine

open Sys2Proof.Safety

variable {α β : Type}

/-- Nothing lands, the sink and plane memory answer every request, and the writer holds at most seven bits. -/
structure Encoding (s : State) : Prop where
  quiet : Quiet s
  sink : portAll (fun c => c != .silent) s.ports.sink = true
  plane : portAll planeAnswers s.ports.plane = true
  wbits : s.writer.wbits ≤ 7

/-- The record of an encoding operation that goes on: no request was answered ERROR. -/
abbrev NoError (s t : State) : Prop := LogGrew (fun e => e.answer ≠ .error) s t

/-- The record of an encoding operation that raises `e`: no request was answered ERROR but the last, a byte with IO_ERROR or a
plane read with MEM_ERROR; or, with MEM_ERROR, none was (R220). -/
def FailedLast (e : ErrCode) (s t : State) : Prop :=
  ∃ before last : List PortEvent, t.ports.log = s.ports.log ++ before ++ last ∧
    (∀ ev ∈ before, ev.answer ≠ .error) ∧
    ((e = .ioError ∧ ∃ v : Octet, last = [{ request := .byte v, answer := .error }]) ∨
      (e = .memError ∧ (last = [] ∨ ∃ a : Word, last = [{ request := .planeRead a, answer := .error }])))

theorem FailedLast.after {e : ErrCode} {s t u : State} (h : NoError s t) (g : FailedLast e t u) : FailedLast e s u := by
  obtain ⟨m, l, a⟩ := h
  obtain ⟨before, last, l', a', hl⟩ := g
  refine ⟨m ++ before, last, by rw [l', l]; simp, fun ev hev => ?_, hl⟩
  rcases List.mem_append.mp hev with hev | hev
  · exact a ev hev
  · exact a' ev hev

/-- The scan is at the same pixel, and no register moved but OUT_BYTES. -/
structure SamePixel (s t : State) : Prop where
  row : t.scan.row = s.scan.row
  col : t.scan.col = s.scan.col
  regs : t.regs = { s.regs with outBytes := t.regs.outBytes }

theorem SamePixel.trans {s t u : State} (h : SamePixel s t) (h' : SamePixel t u) : SamePixel s u :=
  ⟨h'.row.trans h.row, h'.col.trans h.col, by rw [h'.regs, h.regs]⟩

/-- An encoding operation goes on with no request answered ERROR, or stops at the first one that is. -/
abbrev Res.Encodes (s : State) (r : Res α) : Prop :=
  r.Sat (fun _ t => Encoding t ∧ NoError s t ∧ SamePixel s t) (fun e t => Encoding t ∧ FailedLast e s t ∧ SamePixel s t)
    fun _ => False

theorem Res.Encodes.bind {s : State} {r : Res α} {f : α → State → Res β} (hr : r.Encodes s)
    (hf : ∀ a t, Encoding t → (f a t).Encodes t) : (r.bind f).Encodes s := by
  refine Res.Sat.bind hr fun a t h => Res.Sat.mono (hf a t h.1) ?_ ?_ fun _ => id
  · exact fun _ u hu => ⟨hu.1, h.2.1.trans hu.2.1, h.2.2.trans hu.2.2⟩
  · exact fun _ u hu => ⟨hu.1, hu.2.1.after h.2.1, h.2.2.trans hu.2.2⟩

theorem Res.Encodes.of_start {s s' : State} {r : Res α} (hr : r.Encodes s') (hl : s'.ports.log = s.ports.log)
    (hp : SamePixel s s') : r.Encodes s := by
  refine Res.Sat.mono hr ?_ ?_ fun _ => id
  · exact fun _ u hu => ⟨hu.1, (LogGrew.of_eq hl).trans hu.2.1, hp.trans hu.2.2⟩
  · exact fun _ u hu => ⟨hu.1, hu.2.1.after (LogGrew.of_eq hl), hp.trans hu.2.2⟩

theorem putBit_encodes (b : Bool) {s : State} (h : Encoding s) : (putBit b s).Encodes s := by
  have hn := portAll_next h.sink
  have hw := h.wbits
  by_cases h7 : s.writer.wbits = 7
  · cases hc : s.ports.sink.next with
    | ok =>
      rw [putBit_accepted b h.quiet h7 hc]
      exact ⟨⟨h.quiet, hn.2, h.plane, by simp [answered]⟩, LogGrew.one rfl (by simp), rfl, rfl, rfl⟩
    | error =>
      rw [putBit_refused b h.quiet h7 hc]
      exact ⟨⟨h.quiet, hn.2, h.plane, by simp [answered]⟩, ⟨[], _, by simp [answered]; rfl, by simp, .inl ⟨rfl, _, rfl⟩⟩, rfl, rfl, rfl⟩
    | silent => rw [hc] at hn; exact absurd hn.1 (by decide)
  · rw [putBit_short b (by omega)]
    exact ⟨⟨h.quiet, h.sink, h.plane, by show s.writer.wbits + 1 ≤ 7; omega⟩, LogGrew.of_eq rfl, rfl, rfl, rfl⟩

theorem writeBits_encodes (v : DoubleWord) (n : Nat) {s : State} (h : Encoding s) : (writeBits v n s).Encodes s := by
  induction n generalizing s with
  | zero => exact ⟨h, LogGrew.of_eq rfl, rfl, rfl, rfl⟩
  | succ n ih => exact Res.Encodes.bind (putBit_encodes _ h) fun _ _ ht => ih ht

theorem riceEncode_encodes (k : Nat) (x : Word) {s : State} (h : Encoding s) : (riceEncode k x s).Encodes s :=
  Res.Encodes.of_start (Res.Encodes.bind (writeBits_encodes _ _ ⟨h.quiet, h.sink, h.plane, h.wbits⟩) fun _ _ ht =>
    writeBits_encodes _ _ ht) rfl ⟨rfl, rfl, rfl⟩

theorem memRead_encodes (a : Word) {s : State} (h : Encoding s) : (memRead a s).Encodes s := by
  have hn := portAll_next h.plane
  cases hc : s.ports.plane.next with
  | serve =>
    rw [memRead_data a h.quiet (by rw [hc]; rfl)]
    exact ⟨⟨h.quiet, h.sink, hn.2, h.wbits⟩, LogGrew.one rfl (by simp), rfl, rfl, rfl⟩
  | override v =>
    rw [memRead_data a h.quiet (by rw [hc]; rfl)]
    exact ⟨⟨h.quiet, h.sink, hn.2, h.wbits⟩, LogGrew.one rfl (by simp), rfl, rfl, rfl⟩
  | refuse c =>
    rw [memRead_refused a h.quiet hc]
    exact ⟨⟨h.quiet, h.sink, hn.2, h.wbits⟩, ⟨[], _, by simp [answered]; rfl, by simp, .inr ⟨rfl, .inr ⟨_, rfl⟩⟩⟩, rfl, rfl, rfl⟩
  | silent c => rw [hc] at hn; exact absurd hn.1 (by simp [planeAnswers])

theorem addr_encodes (row col : Nat) {s : State} (h : Encoding s) : (addr row col s).Encodes s := by
  unfold addr
  split
  · exact ⟨h, ⟨[], [], by simp, by simp, .inr ⟨rfl, .inl rfl⟩⟩, rfl, rfl, rfl⟩
  · exact ⟨h, LogGrew.of_eq rfl, rfl, rfl, rfl⟩

theorem loadAboveRight_encodes {s : State} (h : Encoding s) : (loadAboveRight s).Encodes s := by
  unfold loadAboveRight
  split
  · exact Res.Encodes.bind (addr_encodes _ _ h) fun a t ht => Res.Encodes.bind (memRead_encodes a ht) fun _ u hu =>
      ⟨⟨hu.quiet, hu.sink, hu.plane, hu.wbits⟩, LogGrew.of_eq rfl, rfl, rfl, rfl⟩
  · exact ⟨⟨h.quiet, h.sink, h.plane, h.wbits⟩, LogGrew.of_eq rfl, rfl, rfl, rfl⟩

theorem encodePixel_encodes {s : State} (h : Encoding s) : (encodePixel s).Encodes (markPosition s) := by
  refine Res.Encodes.bind (loadAboveRight_encodes ⟨h.quiet, h.sink, h.plane, h.wbits⟩) fun _ t ht => ?_
  refine Res.Encodes.of_start (s' := predict t) ?_ rfl ⟨rfl, rfl, rfl⟩
  refine Res.Encodes.bind (addr_encodes _ _ ⟨ht.quiet, ht.sink, ht.plane, ht.wbits⟩) fun a u hu => ?_
  refine Res.Encodes.bind (memRead_encodes a hu) fun x v hv => ?_
  exact Res.Encodes.bind (riceEncode_encodes _ _ hv) fun _ w hw =>
    ⟨⟨hw.quiet, hw.sink, hw.plane, hw.wbits⟩, LogGrew.of_eq rfl, rfl, rfl, rfl⟩

/-- Where a scan that raises stops (R230): POS is the pixel of the scan state, a pixel of the view, and beside POS no
register moved but OUT_BYTES. -/
structure StoppedAt (s t : State) : Prop where
  inPlane : InPlane s t.scan.row.toNat t.scan.col.toNat
  regs : t.regs = { s.regs with posRow := t.scan.row, posCol := t.scan.col, outBytes := t.regs.outBytes }

/-- No register moved but POS and OUT_BYTES. -/
def SameView (s t : State) : Prop :=
  t.regs = { s.regs with posRow := t.regs.posRow, posCol := t.regs.posCol, outBytes := t.regs.outBytes }

theorem SameView.trans {s t u : State} (h : SameView s t) (h' : SameView t u) : SameView s u := by
  unfold SameView at *
  rw [h', h]

theorem StoppedAt.after {s t u : State} (h : SameView s t) (g : StoppedAt t u) : StoppedAt s u := by
  unfold SameView at h
  refine ⟨?_, ?_⟩
  · have := g.inPlane
    rw [InPlane, h] at this
    exact this
  · rw [g.regs, h]

/-- A scan goes on with no request answered ERROR, or stops at the first one that is, at its pixel. -/
abbrev Res.Scans (s : State) (r : Res α) : Prop :=
  r.Sat (fun _ t => Encoding t ∧ NoError s t ∧ SameView s t) (fun e t => Encoding t ∧ FailedLast e s t ∧ StoppedAt s t)
    fun _ => False

/-- What a scan does from a state that differs only where a scan may move. -/
theorem Res.Scans.of_start {s s' : State} {r : Res α} (hr : r.Scans s') (hl : NoError s s') (hv : SameView s s') :
    r.Scans s := by
  refine Res.Sat.mono hr ?_ ?_ fun _ => id
  · exact fun _ u hu => ⟨hu.1, hl.trans hu.2.1, hv.trans hu.2.2⟩
  · exact fun _ u hu => ⟨hu.1, hu.2.1.after hl, hu.2.2.after hv⟩

theorem scanRow_scans (n : Nat) {s : State} (h : Encoding s) (hrow : s.scan.row.toNat < s.regs.pheight.toNat)
    (hcol : s.scan.col.toNat + n = s.regs.pwidth.toNat) :
    (scanRow encodePixel n s).Sat (fun _ t => Encoding t ∧ NoError s t ∧ SameView s t ∧ t.scan.row = s.scan.row)
      (fun e t => Encoding t ∧ FailedLast e s t ∧ StoppedAt s t) fun _ => False := by
  induction n generalizing s with
  | zero => exact ⟨h, LogGrew.of_eq rfl, rfl, rfl⟩
  | succ n ih =>
    have hp := encodePixel_encodes h
    unfold scanRow
    cases hr : encodePixel s with
    | ok a t =>
      rw [hr] at hp
      obtain ⟨ht, hl, hrw, hcl, hrg⟩ := hp
      have hv : SameView s t := by unfold SameView; rw [hrg]; rfl
      have hc : (t.scan.col + 1).toNat = s.scan.col.toNat + 1 := by
        rw [hcl]
        have := s.regs.pwidth.isLt
        show (s.scan.col + 1).toNat = _
        rw [BitVec.toNat_add]
        exact Nat.mod_eq_of_lt (by show s.scan.col.toNat + 1 < _; omega)
      have hw : t.regs.pwidth = s.regs.pwidth := (congrArg Regs.pwidth hv :)
      have hh : t.regs.pheight = s.regs.pheight := (congrArg Regs.pheight hv :)
      have := ih (s := { t with scan.col := t.scan.col + 1 }) ⟨ht.quiet, ht.sink, ht.plane, ht.wbits⟩
        (by show t.scan.row.toNat < t.regs.pheight.toNat; rw [hrw, hh]; exact hrow)
        (by show (t.scan.col + 1).toNat + n = t.regs.pwidth.toNat; rw [hc, hw]; omega)
      refine Res.Sat.mono this ?_ ?_ fun _ => id
      · exact fun _ u hu => ⟨hu.1, LogGrew.trans hl hu.2.1, hv.trans hu.2.2.1, hu.2.2.2.trans hrw⟩
      · exact fun _ u hu => ⟨hu.1, FailedLast.after hl hu.2.1,
          StoppedAt.after (t := { t with scan.col := t.scan.col + 1 }) hv hu.2.2⟩
    | raised e t =>
      rw [hr] at hp
      obtain ⟨ht, hl, hrw, hcl, hrg⟩ := hp
      refine ⟨ht, hl, ?_, ?_⟩
      · rw [hrw, hcl]
        exact ⟨hrow, by show s.scan.col.toNat < _; omega⟩
      · rw [hrg, hrw, hcl]; rfl
    | ended o => rw [hr] at hp; exact hp.elim

theorem scanRows_scans (n : Nat) {s : State} (h : Encoding s) (hrow : s.scan.row.toNat + n = s.regs.pheight.toNat) :
    (scanRows encodePixel n s).Scans s := by
  induction n generalizing s with
  | zero => exact ⟨h, LogGrew.of_eq rfl, rfl⟩
  | succ n ih =>
    have hp := scanRow_scans s.regs.pwidth.toNat (s := startRow s) ⟨h.quiet, h.sink, h.plane, h.wbits⟩
      (by show s.scan.row.toNat < s.regs.pheight.toNat; omega) (by show (0 : Word).toNat + _ = _; simp)
    have hs : SameView s (startRow s) := rfl
    unfold scanRows
    refine Res.Sat.bind (Res.Sat.mono hp (Q' := fun _ t => Encoding t ∧ NoError s t ∧ SameView s t ∧ t.scan.row = s.scan.row)
      (fun _ _ => id) (fun e t g => ⟨g.1, g.2.1, g.2.2.after hs⟩) fun _ => id) fun _ t ⟨ht, hl, hv, hr⟩ => ?_
    have hh : t.regs.pheight = s.regs.pheight := (congrArg Regs.pheight hv :)
    have hc : (t.scan.row + 1).toNat = s.scan.row.toNat + 1 := by
      rw [hr, BitVec.toNat_add]
      have := s.regs.pheight.isLt
      exact Nat.mod_eq_of_lt (by show s.scan.row.toNat + 1 < _; omega)
    exact Res.Scans.of_start (ih (s := { t with scan.row := t.scan.row + 1 }) ⟨ht.quiet, ht.sink, ht.plane, ht.wbits⟩
      (by show (t.scan.row + 1).toNat + n = t.regs.pheight.toNat; rw [hc, hh]; omega)) hl hv

/-- The encoding scan (R223, R230, R231), whatever the sink and plane memory answer: to its end at POS = (H, 0), or up to the
first failing transaction or address, at its pixel. -/
theorem scanPlane_scans {s : State} (h : Encoding s) :
    (scanPlane encodePixel s).Sat
      (fun _ t => Encoding t ∧ NoError s t ∧
        t.regs = { s.regs with posRow := s.regs.pheight, posCol := 0, outBytes := t.regs.outBytes })
      (fun e t => Encoding t ∧ FailedLast e s t ∧ StoppedAt s t) fun _ => False := by
  refine Res.Sat.bind (Res.Scans.of_start (scanRows_scans s.regs.pheight.toNat
    (s := { s with scan.b := 0, scan.row := 0 }) ⟨h.quiet, h.sink, h.plane, h.wbits⟩ (by simp))
    (LogGrew.of_eq rfl) rfl) fun _ t ⟨ht, hl, hv⟩ => ?_
  refine ⟨⟨ht.quiet, ht.sink, ht.plane, ht.wbits⟩, hl, ?_⟩
  show { t.regs with posRow := t.regs.pheight, posCol := 0 } = _
  unfold SameView at hv
  rw [hv]

theorem sinkRequest_encodes (req : Request) {s : State} (h : Encoding s) :
    ∃ (t : State) (a : Answer) (b : Bool), sinkRequest req s = .ok b t ∧ t.writer = s.writer ∧ Encoding t ∧
      t.ports.log = s.ports.log ++ [{ request := req, answer := a }] := by
  have hn := portAll_next h.sink
  cases hc : s.ports.sink.next with
  | ok => exact ⟨_, _, _, sinkRequest_accepted req h.quiet hc, rfl, ⟨h.quiet, hn.2, h.plane, h.wbits⟩, rfl⟩
  | error => exact ⟨_, _, _, sinkRequest_refused req h.quiet hc, rfl, ⟨h.quiet, hn.2, h.plane, h.wbits⟩, rfl⟩
  | silent => rw [hc] at hn; exact absurd hn.1 (by decide)

theorem sinkByte_encodes (v : Octet) {s : State} (h : Encoding s) :
    ∃ (t : State) (a : Answer) (b : Bool), sinkByte v s = .ok b t ∧ t.writer = s.writer ∧ Encoding t ∧
      t.ports.log = s.ports.log ++ [{ request := .byte v, answer := a }] := by
  obtain ⟨t, a, b, ht, hw, he, hl⟩ := sinkRequest_encodes (.byte v) h
  refine ⟨_, a, b, by rw [sinkByte, ht]; rfl, ?_⟩
  cases b
  · exact ⟨hw, he, hl⟩
  · exact ⟨hw, ⟨he.quiet, he.sink, he.plane, he.wbits⟩, hl⟩

/-- The exit flush of an abort (R231): the pad byte, if bits are pending, and then FLUSH, whatever the answers. -/
theorem flushWriter_ignored {s : State} (h : Encoding s) :
    ∃ (t : State) (pad : List PortEvent) (a : Answer), flushWriter false s = .ok () t ∧ t.writer.wbits = 0 ∧ Encoding t ∧
      t.ports.log = s.ports.log ++ pad ++ [{ request := .flush, answer := a }] ∧
      (s.writer.wbits = 0 → pad = []) ∧
      (0 < s.writer.wbits → ∃ b : Answer, pad = [{ request := .byte (padByte s.writer), answer := b }]) := by
  unfold flushWriter flushPad sinkFlush
  by_cases h0 : 0 < s.writer.wbits
  · obtain ⟨t, a, b, ht, hw, he, hl⟩ := sinkByte_encodes (padByte s.writer)
      (s := { s with writer.wacc := 0, writer.wbits := 0 }) ⟨h.quiet, h.sink, h.plane, by simp⟩
    obtain ⟨u, a', b', hu, hw', he', hl'⟩ := sinkRequest_encodes .flush he
    refine ⟨u, [{ request := .byte (padByte s.writer), answer := a }], a', ?_, by rw [hw', hw], he', by rw [hl', hl], by omega,
      fun _ => ⟨a, rfl⟩⟩
    simp only [h0, if_true]
    rw [ht]
    simp [hu]
  · obtain ⟨u, a', b', hu, hw', he', hl'⟩ := sinkRequest_encodes .flush h
    exact ⟨u, [], a', by simp [h0, hu], by rw [hw']; omega, he', by simp [hl'], by simp, by omega⟩

/-- The exit flush of a scan that ended (R231): the writer is empty, and a refusal is IO_ERROR. -/
theorem flushWriter_reported {s : State} (h : Encoding s) :
    (flushWriter true s).Sat (fun _ t => Encoding t ∧ t.writer.wbits = 0)
      (fun e t => e = .ioError ∧ Encoding t ∧ t.writer.wbits = 0) fun _ => False := by
  have hpad : (flushPad true s).Sat (fun _ t => Encoding t ∧ t.writer.wbits = 0)
      (fun e t => e = .ioError ∧ Encoding t ∧ t.writer.wbits = 0) fun _ => False := by
    unfold flushPad
    by_cases h0 : 0 < s.writer.wbits
    · obtain ⟨t, a, b, ht, hw, he, _⟩ := sinkByte_encodes (padByte s.writer)
        (s := { s with writer.wacc := 0, writer.wbits := 0 }) ⟨h.quiet, h.sink, h.plane, by simp⟩
      have hz : t.writer.wbits = 0 := by rw [hw]
      simp only [h0, if_true]
      rw [ht]
      cases b
      · exact ⟨rfl, he, hz⟩
      · exact ⟨he, hz⟩
    · simp only [h0, if_false]
      exact ⟨h, by omega⟩
  refine Res.Sat.bind hpad fun _ t ⟨ht, hz⟩ => ?_
  obtain ⟨u, a, b, hu, hw, he, _⟩ := sinkRequest_encodes .flush ht
  rw [sinkFlush, hu]
  cases b
  · exact ⟨rfl, he, by rw [hw]; exact hz⟩
  · exact ⟨he, by rw [hw]; exact hz⟩

end Sys2Proof.Machine
end

