-- ==== Sys2Proof/Laws/Running.lean ====
section
/-! SUPPORT. What every shared operation of a running command keeps, whatever the ports answer and whatever lands: the
invariant of a running block. One lemma per operation. -/

namespace Sys2Proof.Machine

open Sys2Proof.Safety

variable {α β : Type} {calm : Prop}

/-- A running block between two steps of its command's rule: BUSY = 1, DONE = 0, ERR = 0, PHASE = RUN, and the rest of the
invariant (R26, R43 to R46; log 4); and, where `calm` holds, a run that is no race and that no waiting action touches plane
memory in (R88). -/
structure Running (calm : Prop) (s : State) : Prop where
  busy : s.ctl.busy = true
  done : s.ctl.done = false
  err : s.ctl.err = .none
  phase : s.ctl.phase = .run
  wbits : s.writer.wbits ≤ 7
  wacc : s.writer.wacc.toNat < 2 ^ s.writer.wbits
  rbits : s.reader.rbits ≤ 7
  k : s.scan.k ≤ 16
  cells : Memory.wf s.ports.cells = true ∧ heldWf s.ports.held = true ∧
    (calm → s.host.queue.any touchesPlane = false ∧ s.ports.raced = false)

theorem Running.inv {s : State} (h : Running calm s) : Inv s :=
  ⟨h.wbits, h.wacc, h.rbits, by simp [h.phase, h.busy], fun _ => h.done, by simp [h.err], by simp [h.busy], h.k, h.cells.1, h.cells.2.1⟩

/-- What a command that is over leaves. -/
def OverInv (calm : Prop) (o : Host.Outcome State Fault Refusal) : Prop :=
  ∀ t, o = .next t → Inv t ∧ (calm → t.ports.raced = false)

theorem Running.over {s : State} (h : Running calm s) : OverInv calm (.next s) := by
  rintro t ht
  cases ht
  exact ⟨h.inv, fun c => (h.cells.2.2 c).2⟩

/-- A running block with no transaction outstanding. -/
structure Ready (calm : Prop) (s : State) : Prop where
  running : Running calm s
  pending : s.ports.pending = none

/-- The result keeps the running block's invariant. -/
abbrev Res.KeepsReady (calm : Prop) (r : Res α) : Prop :=
  r.Sat (fun _ t => Ready calm t) (fun _ t => Ready calm t) (OverInv calm)

theorem Res.KeepsReady.bind {r : Res α} {f : α → State → Res β} (hr : r.KeepsReady calm)
    (hf : ∀ a s, Ready calm s → (f a s).KeepsReady calm) : (r.bind f).KeepsReady calm :=
  Res.Sat.bind hr hf

theorem Running.landed {s t : State} (h : Running calm s) (hl : Landed s t) : Running calm t := by
  obtain ⟨he, hm, hh, hr⟩ := hl
  have hc : Memory.wf t.ports.cells = true ∧ heldWf t.ports.held = true ∧
      (calm → t.host.queue.any touchesPlane = false ∧ t.ports.raced = false) :=
    ⟨hm h.cells.1, hh h.cells.2.1, fun c =>
      ⟨(hr (h.cells.2.2 c).1).1, (hr (h.cells.2.2 c).1).2.trans (h.cells.2.2 c).2⟩⟩
  generalize t.host = a at he hc
  generalize t.ports.cells = c at he hc
  generalize t.ports.held = l at he hc
  generalize t.ports.raced = d at he hc
  generalize t.ports.raceDraws = n at he
  subst he
  exact ⟨h.busy, h.done, h.err, h.phase, h.wbits, h.wacc, h.rbits, h.k, hc⟩

theorem Landed.pending {s t : State} (hl : Landed s t) : t.ports.pending = s.ports.pending := by rw [hl.1]

/-- A reset block meets the invariant, whatever came before, if memory was in canonical form. -/
theorem inv_resetBlock {s : State} (h : Memory.wf s.ports.cells = true) (hh : heldWf s.ports.held = true) :
    Inv (resetBlock s) := by
  have hp : (dropPending s.ports).pending = none := by rw [dropPending_eq]
  have hc : (dropPending s.ports).cells = s.ports.cells := by rw [dropPending_eq]
  have hl : (dropPending s.ports).held = s.ports.held := by rw [dropPending_eq]
  refine ⟨by simp [Writer.reset], by simp [Writer.reset], by simp [Reader.reset], by simp [Control.reset],
    by simp [Control.reset], by simp [Control.reset], fun _ => hp, by simp [Scan.reset], ?_, ?_⟩
  · simpa [hc] using h
  · simpa [hl] using hh

/-- A point where outside actions land. -/
theorem yieldHost_keeps {uses : Bool} {s : State} (h : Running calm s) :
    (∃ t, yieldHost uses s = .ok t ∧ Running calm t ∧ t.ports.pending = s.ports.pending) ∨
      ∃ o, yieldHost uses s = .error o ∧ OverInv calm o := by
  cases hy : yieldHost uses s with
  | ok t => exact .inl ⟨t, rfl, h.landed (yieldHost_ok hy), (yieldHost_ok hy).pending⟩
  | error o =>
    refine .inr ⟨o, rfl, ?_⟩
    rintro t rfl
    obtain ⟨u, rest, hl, he⟩ | ⟨a, he⟩ := yieldHost_error hy
    · cases he
      have hu := h.landed hl
      refine ⟨inv_resetBlock hu.cells.1 hu.cells.2.1, fun c => ?_⟩
      show (dropPending u.ports).raced = false
      rw [dropPending_eq]
      exact (hu.cells.2.2 c).2
    · cases he

/-- The end of a command leaves the invariant, with no transaction outstanding (R87). -/
theorem endCommand_keeps (e : ErrCode) {s : State} (h : Ready calm s) : OverInv calm (endCommand e s) := by
  unfold endCommand
  obtain ⟨t, hy, ht, hp⟩ | ⟨o, hy, ho⟩ := yieldHost_keeps h.running
  · rw [hy]
    rintro u hu
    cases hu
    exact ⟨⟨ht.wbits, ht.wacc, ht.rbits, by simp, by simp, by simp, fun _ => hp.trans h.pending, ht.k, ht.cells.1,
      ht.cells.2.1⟩, fun c => (ht.cells.2.2 c).2⟩
  · rw [hy]
    exact ho

theorem finish_keeps {r : Res Unit} (h : r.KeepsReady calm) : OverInv calm (finish r) := by
  cases r with
  | ok a s => exact endCommand_keeps .none h
  | raised e s => exact endCommand_keeps e h
  | ended o => exact h

theorem await_keeps (req : Request) (f : State → Option Answer) {s : State} (h : Running calm s) :
    (await req f s).KeepsReady calm := by
  have h' : Running calm { s with ports.pending := some req } :=
    ⟨h.busy, h.done, h.err, h.phase, h.wbits, h.wacc, h.rbits, h.k, h.cells⟩
  unfold await
  obtain ⟨t, hy, ht, _⟩ | ⟨o, hy, ho⟩ := yieldHost_keeps h'
  · rw [hy]
    dsimp only
    cases f t with
    | none => exact ht.over
    | some a => exact ⟨⟨ht.busy, ht.done, ht.err, ht.phase, ht.wbits, ht.wacc, ht.rbits, ht.k, ht.cells⟩, rfl⟩
  · rw [hy]
    exact ho

/-! ### The ports -/

theorem sinkRequest_keeps (req : Request) {s : State} (h : Ready calm s) : (sinkRequest req s).KeepsReady calm := by
  unfold sinkRequest
  obtain ⟨t, hy, ht, _⟩ | ⟨o, hy, ho⟩ := yieldHost_keeps h.running
  · rw [hy]
    refine Res.KeepsReady.bind (await_keeps req _ ?_) fun _ u hu => hu
    exact ⟨ht.busy, ht.done, ht.err, ht.phase, ht.wbits, ht.wacc, ht.rbits, ht.k, ht.cells⟩
  · rw [hy]
    exact ho

theorem sinkByte_keeps (v : Octet) {s : State} (h : Ready calm s) : (sinkByte v s).KeepsReady calm := by
  refine Res.KeepsReady.bind (sinkRequest_keeps _ h) fun b t ht => ?_
  cases b
  · exact ht
  · exact ⟨⟨ht.1.busy, ht.1.done, ht.1.err, ht.1.phase, ht.1.wbits, ht.1.wacc, ht.1.rbits, ht.1.k, ht.1.cells⟩, ht.2⟩

theorem sourceFetch_keeps {s : State} (h : Ready calm s) : (sourceFetch s).KeepsReady calm := by
  unfold sourceFetch
  obtain ⟨t, hy, ht, _⟩ | ⟨o, hy, ho⟩ := yieldHost_keeps h.running
  · rw [hy]
    refine Res.KeepsReady.bind (await_keeps _ _ ?_) fun _ u hu => ?_
    · exact ⟨ht.busy, ht.done, ht.err, ht.phase, ht.wbits, ht.wacc, ht.rbits, ht.k, ht.cells⟩
    · cases t.ports.source.next with
      | data v =>
        exact ⟨⟨hu.1.busy, hu.1.done, hu.1.err, hu.1.phase, hu.1.wbits, hu.1.wacc, hu.1.rbits, hu.1.k, hu.1.cells⟩, hu.2⟩
      | eos => exact hu
      | error => exact hu
      | silent => exact hu.1.over
  · rw [hy]
    exact ho

theorem memRead_keeps (a : Word) {s : State} (h : Ready calm s) : (memRead a s).KeepsReady calm := by
  unfold memRead
  obtain ⟨t, hy, ht, _⟩ | ⟨o, hy, ho⟩ := yieldHost_keeps h.running
  · rw [hy]
    refine Res.KeepsReady.bind (await_keeps _ _ ?_) fun _ u hu => ?_
    · exact ⟨ht.busy, ht.done, ht.err, ht.phase, ht.wbits, ht.wacc, ht.rbits, ht.k, ht.cells⟩
    · split
      · exact ⟨⟨hu.1.busy, hu.1.done, hu.1.err, hu.1.phase, hu.1.wbits, hu.1.wacc, hu.1.rbits, hu.1.k, hu.1.cells⟩, hu.2⟩
      · exact hu
  · rw [hy]
    exact ho

theorem memWrite_keeps (a : Word) (v : Sample) {s : State} (h : Ready calm s) : (memWrite a v s).KeepsReady calm := by
  unfold memWrite
  obtain ⟨t, hy, ht, _⟩ | ⟨o, hy, ho⟩ := yieldHost_keeps h.running
  · rw [hy]
    refine Res.KeepsReady.bind (await_keeps _ _ ?_) fun _ u hu => ?_
    · exact ⟨ht.busy, ht.done, ht.err, ht.phase, ht.wbits, ht.wacc, ht.rbits, ht.k,
        Memory.wf_writeOpt _ _ ht.cells.1, heldWf_heldAfter _ _ ht.cells.2.1, ht.cells.2.2⟩
    · split <;> exact hu
  · rw [hy]
    exact ho

/-! ### The writer -/

/-- A writer's bits and accumulator may be set to nothing. -/
theorem Ready.clearWriter {s : State} (h : Ready calm s) : Ready calm { s with writer.wacc := 0, writer.wbits := 0 } :=
  ⟨⟨h.1.busy, h.1.done, h.1.err, h.1.phase, by simp, by simp, h.1.rbits, h.1.k, h.1.cells⟩, h.2⟩

theorem putBit_keeps (b : Bool) {s : State} (h : Ready calm s) : (putBit b s).KeepsReady calm := by
  unfold putBit
  dsimp only
  split
  · refine Res.KeepsReady.bind (sinkByte_keeps _ h.clearWriter) fun a t ht => ?_
    cases a <;> exact ht
  · next h8 =>
    have hw := h.1.wbits
    refine ⟨⟨h.1.busy, h.1.done, h.1.err, h.1.phase, ?_, ?_, h.1.rbits, h.1.k, h.1.cells⟩, h.2⟩
    · show s.writer.wbits + 1 ≤ 7
      omega
    · show ((s.writer.wacc <<< 1) ||| (BitVec.ofBool b).setWidth 8).toNat < 2 ^ (s.writer.wbits + 1)
      have hb : ((BitVec.ofBool b).setWidth 8).toNat < 2 ^ (s.writer.wbits + 1) := by
        have : ((BitVec.ofBool b).setWidth 8).toNat ≤ 1 := by cases b <;> decide
        have : 2 ≤ 2 ^ (s.writer.wbits + 1) := by rw [pow_succ]; have := Nat.one_le_two_pow (n := s.writer.wbits); omega
        omega
      have ha : (s.writer.wacc <<< 1).toNat < 2 ^ (s.writer.wbits + 1) := by
        have := h.1.wacc
        rw [BitVec.toNat_shiftLeft, Nat.shiftLeft_eq, pow_succ]
        refine lt_of_le_of_lt (Nat.mod_le _ _) ?_
        omega
      rw [BitVec.toNat_or]
      exact Nat.or_lt_two_pow ha hb

theorem writeBits_keeps (v : DoubleWord) (n : Nat) {s : State} (h : Ready calm s) : (writeBits v n s).KeepsReady calm := by
  induction n generalizing s with
  | zero => exact h
  | succ n ih => exact Res.KeepsReady.bind (putBit_keeps _ h) fun _ _ ht => ih ht

theorem flushWriter_keeps (report : Bool) {s : State} (h : Ready calm s) : (flushWriter report s).KeepsReady calm := by
  refine Res.KeepsReady.bind ?_ fun _ t ht => Res.KeepsReady.bind (sinkRequest_keeps _ ht) fun a u hu => ?_
  · unfold flushPad
    split
    · refine Res.KeepsReady.bind (sinkByte_keeps _ h.clearWriter) fun a t ht => ?_
      split <;> exact ht
    · exact h
  · split <;> exact hu

/-! ### The reader -/

theorem Ready.setReader {s : State} (h : Ready calm s) (acc : Octet) {n : Nat} (hn : n ≤ 7) :
    Ready calm { s with reader.racc := acc, reader.rbits := n } :=
  ⟨⟨h.1.busy, h.1.done, h.1.err, h.1.phase, h.1.wbits, h.1.wacc, hn, h.1.k, h.1.cells⟩, h.2⟩

theorem getBit_keeps {s : State} (h : Ready calm s) : (getBit s).KeepsReady calm := by
  unfold getBit
  split
  · exact Res.KeepsReady.bind (sourceFetch_keeps h) fun v t ht => ht.setReader v (n := 7) (by omega)
  · have := h.1.rbits
    exact h.setReader s.reader.racc (n := s.reader.rbits - 1) (by omega)

theorem readBits_keeps (n : Nat) (v : DoubleWord) {s : State} (h : Ready calm s) : (readBits n v s).KeepsReady calm := by
  induction n generalizing s v with
  | zero => exact h
  | succ n ih => exact Res.KeepsReady.bind (getBit_keeps h) fun _ _ ht => ih _ ht

theorem Ready.dropReader {s : State} (h : Ready calm s) : Ready calm s.dropReader := h.setReader 0 (n := 0) (by omega)

/-! ### The Rice coder -/

theorem riceEncode_keeps (k : Nat) (x : Word) {s : State} (h : Ready calm s) : (riceEncode k x s).KeepsReady calm := by
  refine Res.KeepsReady.bind (writeBits_keeps _ _ ?_) fun _ t ht => writeBits_keeps _ _ ht
  exact ⟨⟨h.1.busy, h.1.done, h.1.err, h.1.phase, h.1.wbits, h.1.wacc, h.1.rbits, h.1.k, h.1.cells⟩, h.2⟩

theorem countPrefix_keeps (fuel : Nat) {s : State} (h : Ready calm s) : (countPrefix fuel s).KeepsReady calm := by
  induction fuel generalizing s with
  | zero => exact h.1.over
  | succ n ih =>
    refine Res.KeepsReady.bind (getBit_keeps h) fun b t ht => ?_
    cases b
    · exact ih ⟨⟨ht.1.busy, ht.1.done, ht.1.err, ht.1.phase, ht.1.wbits, ht.1.wacc, ht.1.rbits, ht.1.k, ht.1.cells⟩, ht.2⟩
    · exact ht

theorem riceDecode_keeps (k : Nat) {s : State} (h : Ready calm s) : (riceDecode k s).KeepsReady calm := by
  refine Res.KeepsReady.bind (countPrefix_keeps _ ?_) fun _ t ht => Res.KeepsReady.bind (readBits_keeps _ _ ht) fun _ u hu => hu
  exact ⟨⟨h.1.busy, h.1.done, h.1.err, h.1.phase, h.1.wbits, h.1.wacc, h.1.rbits, h.1.k, h.1.cells⟩, h.2⟩

/-! ### The plane codec -/

/-- The scan registers may take any values, as long as K is at most 16. -/
theorem Ready.setScan {s : State} (h : Ready calm s) (r : Regs) {c : Scan} (hk : c.k ≤ 16) :
    Ready calm { s with regs := r, scan := c } :=
  ⟨⟨h.1.busy, h.1.done, h.1.err, h.1.phase, h.1.wbits, h.1.wacc, h.1.rbits, hk, h.1.cells⟩, h.2⟩

theorem addr_keeps (row col : Nat) {s : State} (h : Ready calm s) : (addr row col s).KeepsReady calm := by
  unfold addr
  split <;> exact h

theorem loadAboveRight_keeps {s : State} (h : Ready calm s) : (loadAboveRight s).KeepsReady calm := by
  unfold loadAboveRight
  split
  · exact Res.KeepsReady.bind (addr_keeps _ _ h) fun a t ht =>
      Res.KeepsReady.bind (memRead_keeps a ht) fun v u hu => hu.setScan u.regs hu.1.k
  · exact h.setScan s.regs h.1.k

theorem encodePixel_keeps {s : State} (h : Ready calm s) : (encodePixel s).KeepsReady calm := by
  refine Res.KeepsReady.bind (loadAboveRight_keeps (h.setScan _ h.1.k)) fun _ t ht => ?_
  refine Res.KeepsReady.bind (addr_keeps _ _ (ht.setScan t.regs (computeK_le _ _ _ _))) fun a u hu => ?_
  refine Res.KeepsReady.bind (memRead_keeps a hu) fun x v hv => ?_
  exact Res.KeepsReady.bind (riceEncode_keeps _ _ hv) fun _ w hw => hw.setScan w.regs hw.1.k

theorem decodePixel_keeps {s : State} (h : Ready calm s) : (decodePixel s).KeepsReady calm := by
  refine Res.KeepsReady.bind (loadAboveRight_keeps (h.setScan _ h.1.k)) fun _ t ht => ?_
  refine Res.KeepsReady.bind (riceDecode_keeps _ (ht.setScan t.regs (computeK_le _ _ _ _))) fun res u hu => ?_
  refine Res.KeepsReady.bind (addr_keeps _ _ hu) fun a v hv => ?_
  exact Res.KeepsReady.bind (memWrite_keeps a _ hv) fun _ w hw => hw.setScan w.regs hw.1.k

theorem scanRow_keeps {pixel : State → Res Unit} (hp : ∀ s, Ready calm s → (pixel s).KeepsReady calm) (n : Nat) {s : State}
    (h : Ready calm s) : (scanRow pixel n s).KeepsReady calm := by
  induction n generalizing s with
  | zero => exact h
  | succ n ih => exact Res.KeepsReady.bind (hp s h) fun _ t ht => ih (ht.setScan t.regs ht.1.k)

theorem scanRows_keeps {pixel : State → Res Unit} (hp : ∀ s, Ready calm s → (pixel s).KeepsReady calm) (n : Nat) {s : State}
    (h : Ready calm s) : (scanRows pixel n s).KeepsReady calm := by
  induction n generalizing s with
  | zero => exact h
  | succ n ih =>
    exact Res.KeepsReady.bind (scanRow_keeps hp _ (h.setScan s.regs h.1.k)) fun _ t ht => ih (ht.setScan t.regs ht.1.k)

theorem scanPlane_keeps {pixel : State → Res Unit} (hp : ∀ s, Ready calm s → (pixel s).KeepsReady calm) {s : State}
    (h : Ready calm s) : (scanPlane pixel s).KeepsReady calm :=
  Res.KeepsReady.bind (scanRows_keeps hp _ (h.setScan s.regs h.1.k)) fun _ _ ht => ht.setScan _ ht.1.k

theorem encodeExit_keeps {r : Res Unit} (h : r.KeepsReady calm) : (encodeExit r).KeepsReady calm := by
  cases r with
  | ok a s => exact flushWriter_keeps true h
  | raised e s =>
    refine Res.KeepsReady.bind (flushWriter_keeps false ?_) fun _ t ht => ht
    exact ⟨⟨h.1.busy, h.1.done, h.1.err, h.1.phase, h.1.wbits, h.1.wacc, h.1.rbits, h.1.k, h.1.cells⟩, h.2⟩
  | ended o => exact h

theorem decodeExit_keeps {r : Res Unit} (h : r.KeepsReady calm) : (decodeExit r).KeepsReady calm := by
  cases r with
  | ok a s => exact Ready.dropReader h
  | raised e s => exact Ready.dropReader h
  | ended o => exact h

end Sys2Proof.Machine
end

