-- ==== Sys2Proof/Tests/Slice0.lean ====
section
/-! SUPPORT. The model's own tests. Expected values are those of spec/95_test_vectors.md (the section is named at each
test) or worked out by hand from the rule named; then one witness for every statement that has hypotheses. -/

namespace Sys2Proof.Tests

open Sys2Proof.Machine Sys2Proof.Safety

/-! ### Ill-formed terms -/

theorem test_wf_reserved_bit_four : commandWordLegal 0x00000011 = false := by decide

theorem test_wf_reserved_top_bit : commandWordLegal 0x80000001 = false := by decide

theorem test_wf_opcode_above_map : commandWordLegal 0x0000000B = false := by decide

theorem test_wf_last_opcode : commandWordLegal 0x0000000A = true := by decide

theorem test_wf_access_width : accessWellFormed 16 0x04 = false := by decide

theorem test_wf_access_alignment : accessWellFormed 32 0x06 = false := by decide

theorem test_wf_access_outside_block : accessWellFormed 32 0x100 = false := by decide

theorem test_wf_last_reserved_offset : accessWellFormed 32 0xFC = true := by decide

theorem test_wf_host_read : (HostAct.read 8 0x00).wellFormed = false := by decide

theorem test_wf_host_write : (HostAct.write 32 0x01 0).wellFormed = false := by decide

theorem test_wf_unary_too_long : (Pseudo.bsWriteUnary 0xFFFFFFFF).wellFormed = false := by decide

theorem test_wf_unary_longest : (Pseudo.bsWriteUnary 0xFFFFFFFE).wellFormed = true := by decide

/-! ### Words from the command map (30_encoding.md R100, R103): 28 zero bits, then OPCODE -/

theorem test_decode_nop : decode 0b00000000000000000000000000000000#32 = .ok .nop := by decide

theorem test_decode_bsWrite : decode 0b00000000000000000000000000000001#32 = .ok .bsWrite := by decide

theorem test_decode_bsFlush : decode 0b00000000000000000000000000000010#32 = .ok .bsFlush := by decide

theorem test_decode_bsRead : decode 0b00000000000000000000000000000011#32 = .ok .bsRead := by decide

theorem test_decode_bsRalign : decode 0b00000000000000000000000000000100#32 = .ok .bsRalign := by decide

theorem test_decode_riceK : decode 0b00000000000000000000000000000101#32 = .ok .riceK := by decide

theorem test_decode_riceEnc : decode 0b00000000000000000000000000000110#32 = .ok .riceEnc := by decide

theorem test_decode_riceDec : decode 0b00000000000000000000000000000111#32 = .ok .riceDec := by decide

theorem test_decode_medPred : decode 0b00000000000000000000000000001000#32 = .ok .medPred := by decide

theorem test_decode_planeEnc : decode 0b00000000000000000000000000001001#32 = .ok .planeEnc := by decide

theorem test_decode_planeDec : decode 0b00000000000000000000000000001010#32 = .ok .planeDec := by decide

theorem test_decode_reserved_opcode : decode 0b00000000000000000000000000001011#32 = .error .reservedOpcode := by decide

theorem test_decode_reserved_bit : decode 0b00000000000000000000000000010001#32 = .error .reservedBits := by decide

theorem test_encode_planeDec : encode .planeDec = 0x0000000A := by decide

theorem test_decodeTableWord : decodeTableWord 32 0x7 = some .riceDec := by decide

/-! ### One step on a small state -/

/-- Does this outcome answer a next state with this property? -/
def nextSat (o : Host.Outcome State Fault Refusal) (p : State → Bool) : Bool :=
  match o with
  | .next s => p s
  | .fault _ => false
  | .refused _ => false

/-- Does a part of a command's rule go on, in a state with this property? -/
def okSat {α : Type} (r : Res α) (p : α → State → Bool) : Bool :=
  match r with
  | .ok a s => p a s
  | .raised _ _ => false
  | .ended _ => false

/-- Does a part of a command's rule raise this code? -/
def raises {α : Type} (e : ErrCode) (r : Res α) : Bool :=
  match r with
  | .ok _ _ => false
  | .raised e' _ => e' == e
  | .ended _ => false

/-- The state after reset with three operands. -/
def withArgs (a0 a1 a2 : Word) : State :=
  { State.reset with regs.arg0 := a0, regs.arg1 := a1, regs.arg2 := a2 }

/-- The state after reset with `n` as ARG2 and these bytes coming from the source. -/
def withSource (n : Word) (bytes : List Octet) : State :=
  { withArgs 0 0 n with ports.source := { script := bytes.map .data, tail := .eos } }

/-- The state after reset with a plane descriptor and these plane cells. -/
def withPlane (base w h ss rs : Word) (cells : Memory) : State :=
  { State.reset with
    regs.pbase := base, regs.pwidth := w, regs.pheight := h, regs.psstride := ss, regs.prstride := rs
    ports.cells := cells }

/-- A running command's state: BUSY = 1 and PHASE = RUN. -/
def running (s : State) : State := { s with ctl.busy := true, ctl.phase := .run }

/-- A state with these host actions waiting. -/
def withHost (queue : List HostAct) (slots : List Nat) (s : State) : State :=
  { s with host.queue := queue, host.slots := slots }

/-- A sink that gives these answers first. -/
def withSink (script : List SinkChoice) (s : State) : State :=
  { s with ports.sink := { script := script, tail := .ok } }

/-- A plane memory that makes these choices first. -/
def withPlanePort (script : List PlaneChoice) (s : State) : State :=
  { s with ports.plane := { script := script, tail := .serve } }

/-- A source that makes these choices, and then is at its end. -/
def fromSource (script : List SourceChoice) (s : State) : State :=
  { s with ports.source := { script := script, tail := .eos } }

/-- A scan at (row, col). -/
def atPixel (row col : Word) (s : State) : State := { s with scan.row := row, scan.col := col }

/-- A writer that holds `n` bits. -/
def withWriter (acc : Octet) (n : Nat) (s : State) : State := { s with writer.wacc := acc, writer.wbits := n }

/-- A reader that holds `n` bits. -/
def withReader (acc : Octet) (n : Nat) (s : State) : State := { s with reader.racc := acc, reader.rbits := n }

/-- The two rows of plane P1 (95_test_vectors.md 2.5). -/
def planeOne : Memory := [(0x100, 10), (0x101, 12), (0x102, 11), (0x103, 13), (0x104, 15), (0x105, 40)]

/-- The four cells of plane P3 (95_test_vectors.md 2.5). -/
def planeThree : Memory := [(0x201, 2), (0x204, 3), (0x207, 1), (0x20A, 4)]

theorem test_nop : nextSat (step (State.reset.withFetchWord 32 0x0)) (fun t => t.status == 0x2) = true := by decide

/-- 95_test_vectors.md 2.6. -/
theorem test_illegal_word : nextSat (step (withHost [wr .cmd 0x80000001] [] State.reset))
    (fun t => t.status == 0x12 && t.regs.cmd == 0x80000001) = true := by decide

/-- 2.1: (1, 70) is eight bytes 00 and six pending bits. -/
theorem test_bsWrite_long : nextSat (exec .bsWrite (withArgs 1 0 70))
    (fun t => t.status == 0x602 && sinkStream t.ports.log == List.replicate 8 0) = true := by decide +kernel

/-- 2.1: the second byte of 0xABCD is refused. -/
theorem test_bsWrite_refused : nextSat (exec .bsWrite (withSink [.ok, .error] (withArgs 0xABCD 0 16)))
    (fun t => t.status == 0x42 && sinkStream t.ports.log == [0xAB] && t.regs.outBytes == 1) = true := by decide +kernel

/-- 2.1: (5, 3) then a flush sends A0. -/
theorem test_bsFlush : nextSat (exec .bsFlush (withWriter 5 3 State.reset))
    (fun t => t.status == 0x2 && t.ports.log == [⟨.byte 0xA0, .ok⟩, ⟨.flush, .ok⟩]) = true := by decide

/-- 2.1: the pad byte is refused, and FLUSH is not sent. -/
theorem test_bsFlush_refused : nextSat (exec .bsFlush (withSink [.error] (withWriter 5 3 State.reset)))
    (fun t => t.status == 0x42 && t.ports.log == [⟨.byte 0xA0, .error⟩]) = true := by decide

/-- 2.2: 64 bits, RES1 the high word. -/
theorem test_bsRead_word_order : nextSat (exec .bsRead (withSource 64 [1, 2, 3, 4, 5, 6, 7, 8]))
    (fun t => t.status == 0x2 && t.regs.res0 == 0x05060708 && t.regs.res1 == 0x01020304) = true := by decide +kernel

/-- 2.2: three bits of A5 leave five. -/
theorem test_bsRead_partial : nextSat (exec .bsRead (withSource 3 [0xA5]))
    (fun t => t.status == 0x5002 && t.regs.res0 == 0x5 && t.regs.inBytes == 1) = true := by decide +kernel

/-- 2.2: BS_RALIGN after three bits of F0. -/
theorem test_bsRalign : nextSat (exec .bsRalign (withReader 0xF0 5 State.reset)) (fun t => t.status == 0x2) = true := by
  decide

/-- 2.3: activity 40 gives k = 4. -/
theorem test_riceK : nextSat (exec .riceK (withArgs 0x0014000A 0x00280005 0)) (fun t => t.regs.res0 == 4) = true := by
  decide +kernel

/-- 2.3: the largest activity gives k = 16. -/
theorem test_riceK_largest : nextSat (exec .riceK (withArgs 0 0xFFFFFFFF 0)) (fun t => t.regs.res0 == 16) = true := by
  decide +kernel

/-- 2.3: k = 31, x = -1 is 80 00 00 01. -/
theorem test_riceEnc : nextSat (exec .riceEnc (withArgs 0xFFFFFFFF 0 31))
    (fun t => t.status == 0x2 && sinkStream t.ports.log == [0x80, 0, 0, 1]) = true := by decide +kernel

/-- 2.3: k = 3, x = -10 leaves the six bits 001011. -/
theorem test_riceEnc_negative : nextSat (exec .riceEnc (withArgs 0xFFFFFFF6 0 3))
    (fun t => t.status == 0x602 && t.writer.wacc == 0b001011) = true := by decide +kernel

/-- 2.3: 2C with k = 3 is -10. -/
theorem test_riceDec : nextSat (exec .riceDec (withSource 3 [0x2C]))
    (fun t => t.status == 0x2002 && t.regs.res0 == 0xFFFFFFF6) = true := by decide +kernel

/-- 2.3: the mod 2^32 case of R175. -/
theorem test_riceDec_wraps : nextSat (exec .riceDec (withSource 31 [0x3F, 0xFF, 0xFF, 0xFF, 0xE0]))
    (fun t => t.status == 0x6002 && t.regs.res0 == 0xC0000000) = true := by decide +kernel

/-- 2.4: ARG1[31:16] is ignored. -/
theorem test_medPred_ignores_high_half : nextSat (exec .medPred (withArgs 0xFFFF0003 0xABCD0005 0))
    (fun t => t.regs.res0 == 65533) = true := by decide

/-- 2.4: c equal to the larger neighbour. -/
theorem test_medPred_tie : nextSat (exec .medPred (withArgs 0x000A0014 0x00000014 0))
    (fun t => t.regs.res0 == 10) = true := by decide

/-- 2.5, P1. -/
theorem test_planeEnc : nextSat (exec .planeEnc (withPlane 0x100 3 2 1 3 planeOne))
    (fun t => t.status == 0x2 && sinkStream t.ports.log == [0x00, 0x00, 0x0A, 0x56, 0x20, 0x30] &&
      t.regs.posRow == 2 && t.regs.posCol == 0) = true := by decide +kernel

/-- 2.5, the address 2^32 overflows at (0, 1). -/
theorem test_planeEnc_overflow : nextSat (exec .planeEnc (withPlane 0xFFFFFFFF 2 1 1 0 [(0xFFFFFFFF, 0)]))
    (fun t => t.status == 0x62 && t.regs.posCol == 1 &&
      t.ports.log == [⟨.planeRead 0xFFFFFFFF, .sample 0⟩, ⟨.byte 0x80, .ok⟩, ⟨.flush, .ok⟩]) = true := by decide +kernel

/-- 2.5, P1 back from its bytes. -/
theorem test_planeDec : nextSat
    (exec .planeDec
      { withPlane 0x100 3 2 1 3 [] with
        ports.source := { script := [0x00, 0x00, 0x0A, 0x56, 0x20, 0x30].map .data, tail := .eos } })
    (fun t => t.status == 0x2 && t.ports.cells == planeOne && t.regs.inBytes == 6) = true := by decide +kernel

/-- 2.5, the source ends after four bytes. -/
theorem test_planeDec_truncated : nextSat
    (exec .planeDec
      { withPlane 0x100 3 2 1 3 [] with
        ports.source := { script := [0x00, 0x00, 0x0A, 0x56].map .data, tail := .eos } })
    (fun t => t.status == 0x52 && t.regs.posRow == 1 && t.regs.posCol == 1 &&
      t.ports.cells == [(0x100, 10), (0x101, 12), (0x102, 11), (0x103, 13)]) = true := by decide +kernel

/-! ### The host side -/

/-- 10_state.md R42: a write while BUSY = 1 is ignored. -/
theorem test_busy_write : nextSat (step (withHost [wr .arg0 7] [] (running State.reset)))
    (fun t => t.regs.arg0 == 0) = true := by decide

/-- 20_memory.md R82: a 16-bit access has no step. -/
theorem test_narrow_access :
    step (withHost [.read 16 0x04] [] State.reset) = .refused (.hostAccess (.read 16 0x04)) := by rfl

/-- 30_encoding.md R115: BS_WRITE_UNARY 3 appends the value 1 in four bits. -/
theorem test_expand_unary :
    expand (.bsWriteUnary 3) = [wr .arg0 1, wr .arg1 0, wr .arg2 4, wr .cmd 0x1, .wait] := by decide

/-- 20_memory.md R86: another DATA answer to a READ of a cell the block wrote is the written value; of another cell, any. -/
theorem test_held_cell_reads_back :
    let s := withPlanePort [.override 7, .override 7] { withPlane 0 0 0 0 0 planeOne with ports.held := [0x105] }
    okSat ((memRead 0x105 s).bind fun x t => (memRead 0x104 t).bind fun y u => .ok (x, y) u)
      (fun v _ => v.1 == 40 && v.2 == 7) = true := by decide

/-- R86: a cell that another agent wrote since is no longer held. -/
theorem test_poke_releases_the_cell :
    (pokeCell 0x105 7 { State.reset with ports.held := [0x104, 0x105] }).ports.held = [0x104] := by decide

/-- 60_exceptions.md R282, 20_memory.md R88: the word 0x19 uses no cell, so a write of a cell of the view is no race. -/
theorem test_illegal_word_is_no_race :
    nextSat (step (withHost [wr .cmd 0x19, .poke 0x201 9] [1] (withPlane 0x201 2 2 3 6 [])))
      (fun t => t.status == 0x12 && !t.ports.raced && t.ports.cells == [(0x201, 9)]) = true := by decide +kernel

/-- R88: the run is a race from its first step, here the write of ARG0 before PLANE_DEC. -/
theorem test_race_is_foreseen :
    nextSat
      (step (withHost [wr .arg0 1, wr .cmd 0xA, .poke 0x20A 9] [0, 1] (withPlane 0x201 2 2 3 6 [])))
      (fun t => t.ports.raced && t.host.queue.length == 2) = true := by decide +kernel

/-- 70_reset_and_hazards.md R322: a reset that lands while BS_FLUSH waits for its byte drops the answer. -/
theorem test_reset_inside : nextSat (exec .bsFlush (withHost [.reset] [0, 1] (running (withWriter 5 3 State.reset))))
    (fun t => t.status == 0 && t.ports.log == [⟨.byte 0xA0, .dropped⟩]) = true := by decide

/-! ### Witnesses: for each statement with hypotheses, a state and operands that meet all of them -/

theorem witness_DecodeInvertsEncodeExactly : Instr.planeDec.wellFormed = true ∧ decode 0xA = .ok .planeDec := by decide

theorem witness_DecoderIsTotalOnCommandWords :
    ((0xA : Word).extractLsb' 4 28 = 0#28 ∧ ((0xA : Word).extractLsb' 0 4).toNat ≤ 0xA) ∧
      ¬ ((0xB : Word).extractLsb' 4 28 = 0#28 ∧ ((0xB : Word).extractLsb' 0 4).toNat ≤ 0xA) := by decide

theorem witness_StepRunsTheDecodedCommand :
    (withHost [wr .cmd 0xA] [] State.reset).ctl.busy = false ∧
      (withHost [wr .cmd 0xA] [] State.reset).host.queue = wr .cmd 0xA :: [] ∧ decode 0xA = .ok .planeDec := by decide

theorem witness_IllegalWordCompletesAtOnce :
    Quiet (withHost [wr .cmd 0xB] [] State.reset) ∧ (withHost [wr .cmd 0xB] [] State.reset).ctl.busy = false ∧
      (withHost [wr .cmd 0xB] [] State.reset).host.queue = wr .cmd 0xB :: [] ∧ commandWordLegal 0xB = false := by decide

theorem witness_StatusShowsItsFields :
    (withReader 0xFF 7 (withWriter 0x7F 7 State.reset)).writer.wbits ≤ 7 ∧
      (withReader 0xFF 7 (withWriter 0x7F 7 State.reset)).reader.rbits ≤ 7 := by decide

/-- At the last register and at the last reserved offset. -/
theorem witness_IdleReadReturnsTheRegister :
    (withHost [.read 32 0x3C] [] State.reset).ctl.busy = false ∧
      (withHost [.read 32 0x3C] [] State.reset).host.queue = .read 32 0x3C :: [] ∧ accessWellFormed 32 0x3C = true ∧
      0x3C = regOffset .inBytes ∧
      (withHost [.read 32 0xFC] [] State.reset).host.queue = .read 32 0xFC :: [] ∧ accessWellFormed 32 0xFC = true ∧
      ∀ r : Reg, 0xFC ≠ regOffset r := by
  refine ⟨by decide, by decide, by decide, by decide, by decide, by decide, ?_⟩
  intro r
  cases r <;> decide

/-- At a stored register, at a read-only one, and at a reserved offset. -/
theorem witness_IdleWriteStoresOnlyItsRegister :
    (withHost [.write 32 0x2C 5] [] State.reset).ctl.busy = false ∧
      (withHost [.write 32 0x2C 5] [] State.reset).host.queue = .write 32 0x2C 5 :: [] ∧
      accessWellFormed 32 0x2C = true ∧ 0x2C ≠ 0 ∧ 0x2C = regOffset .prstride ∧
      accessWellFormed 32 0x30 = true ∧ 0x30 = regOffset .posRow ∧ accessWellFormed 32 0x40 = true := by decide

theorem witness_BusyWriteIsIgnored :
    (withHost [.write 32 0xFC 5] [] (running State.reset)).ctl.busy = true ∧
      (withHost [.write 32 0xFC 5] [] (running State.reset)).host.queue = .write 32 0xFC 5 :: [] ∧
      accessWellFormed 32 0xFC = true := by decide

/-- STATUS, and a register that reads its stored value. -/
theorem witness_BusyReadIsExactOrDrawn :
    (withHost [rd .status] [] (running State.reset)).ctl.busy = true ∧
      (withHost [rd .status] [] (running State.reset)).host.queue = rd .status :: [] ∧
      (withHost [rd .prstride] [] (running State.reset)).host.queue = rd .prstride :: [] ∧
      Reg.prstride ∈ [Reg.cmd, .arg0, .arg1, .arg2, .pbase, .pwidth, .pheight, .psstride, .prstride] := by decide

/-- Another width, another offset inside the block, and the first offset above it. -/
theorem witness_OtherHostAccessesAreRefused :
    (withHost [.read 33 0x00] [] State.reset).host.queue = .read 33 0x00 :: [] ∧ 33 ≠ 32 ∧
      (withHost [.write 32 0x01 0] [] State.reset).host.queue = .write 32 0x01 0 :: [] ∧ 0x01 % 4 ≠ 0 ∧
      (withHost [.read 32 0x100] [] State.reset).host.queue = .read 32 0x100 :: [] ∧ 0x100 ≥ 0x100 := by decide

/-- P3's last cell is in its view, and the cell after it is not. -/
theorem planeThree_view (s : State) (h : s.regs = (withPlane 0x201 2 2 3 6 []).regs) :
    (∃ row col, InPlane s row col ∧ addrNat row col s = (0x20A : Word).toNat) ∧
      ¬ ∃ row col, InPlane s row col ∧ addrNat row col s = (0x20B : Word).toNat := by
  simp only [InPlane, addrNat, h]
  refine ⟨⟨1, 1, by decide, by decide⟩, ?_⟩
  rintro ⟨row, col, ⟨hr, hc⟩, h⟩
  simp [withPlane] at hr hc h
  omega

/-- PLANE_DEC of P3's view runs: its last cell, and the cell after it; a command that its check ends; a step that is a race
from its start, and one with no other agent; and a raced run. -/
theorem witness_ForeignAccessToTheCommandsCellsIsARace :
    let view := withPlane 0x201 2 2 3 6 []
    let s := withHost [.poke 0x20A 9] [1] { running view with ctl.op := 0xA#4 }
    let early := withReader 1 1 (withWriter 1 1 s)
    let race := withHost [wr .cmd 0xA, .poke 0x20A 9] [0, 1] view
    let raced := { State.reset with ports.raced := true }
    (s.ctl.op = 0xA#4 ∧ s.host.queue = .poke 0x20A 9 :: [] ∧
      (withHost [.peek 0x20A] [] s).host.queue = .peek 0x20A :: []) ∧
    ((∃ row col, InPlane s row col ∧ addrNat row col s = (0x20A : Word).toNat) ∧
      ¬ ∃ row col, InPlane s row col ∧ addrNat row col s = (0x20B : Word).toNat) ∧
    (early.host.slots = 1 :: [] ∧ early.host.queue = .poke 0x20A 9 :: [] ∧ early.writer.wbits ≠ 0 ∧
      early.reader.rbits ≠ 0) ∧
    (Inv race ∧ nextSat (step race) (fun t => t.ports.raced) = true) ∧
    (race.host.queue.any touchesPlane = true ∧ 2 ≤ race.host.queue.length ∧ runRaces 2 race = true) ∧
    State.reset.host.queue.any touchesPlane = false ∧
    (Quiet raced ∧ raced.ports.raced = true ∧ raced.ports.plane.next = .serve) := by
  refine ⟨by decide, planeThree_view _ rfl, by decide, ⟨by decide, by decide +kernel⟩,
    ⟨by decide, by decide, by decide +kernel⟩, by decide, by decide⟩

theorem witness_ResetActsOnTheBlockAlone :
    (withHost [.reset] [] (running State.reset)).host.queue = .reset :: [] := by decide

theorem witness_ResetStopsAnyCommand :
    (withHost [.reset] [1] (running State.reset)).host.slots = (0 + 1) :: [] ∧
      (withHost [.reset] [1] (running State.reset)).host.queue = .reset :: [] ∧
      (withHost [.reset] [1] (running State.reset)).ports.pending = none := by decide

theorem witness_StepKeepsTheInvariant :
    Inv (withHost [wr .cmd 0x2] [] (withWriter 5 3 State.reset)) ∧
      ∃ t, step (withHost [wr .cmd 0x2] [] (withWriter 5 3 State.reset)) = .next t :=
  ⟨by decide, _, rfl⟩

/-- No action lands, and two harmless ones do. -/
theorem witness_EveryCommandEnds :
    Quiet State.reset ∧ PortsAnswer State.reset ∧ SourceNotEndlessZeros State.reset ∧
      (withHost [rd .status, wr .arg0 1] [2] State.reset).host.queue.all harmless = true := by decide

theorem witness_HostAccessesDoNotDisturbACommand :
    (withHost [rd .status, wr .arg0 1] [1, 1] (withWriter 5 3 State.reset)).host.queue.all harmless = true ∧
      ∃ t, exec .bsFlush
        { withHost [rd .status, wr .arg0 1] [1, 1] (withWriter 5 3 State.reset) with host.slots := [] } = .next t :=
  ⟨by decide, _, rfl⟩

theorem witness_ByteCountersCountTheStreams :
    Quiet (withWriter 5 3 State.reset) ∧ ∃ t, exec .bsFlush (withWriter 5 3 State.reset) = .next t :=
  ⟨by decide, _, rfl⟩

theorem witness_CommandsKeepTheHostsRegisters :
    Quiet (withArgs 0x0014000A 5 0) ∧ ∃ t, exec .medPred (withArgs 0x0014000A 5 0) = .next t :=
  ⟨by decide, _, rfl⟩

/-- A command that writes no result, a command that waits for ever, and a command that ends with an error. -/
theorem witness_ResultsOnlyFromFourCommandsOnSuccess :
    (Quiet (running State.reset) ∧ (running State.reset).ctl.busy = true ∧
      (∃ t, exec .nop (running State.reset) = .next t) ∧
      Instr.nop ∉ [Instr.bsRead, .riceK, .riceDec, .medPred]) ∧
    (∃ t, exec .bsRead { running (withArgs 0 0 1) with ports.source := { script := [.silent], tail := .eos } } = .next t ∧
      t.ctl.busy = true) ∧
    ∃ t, exec .bsRead (running (withArgs 0 0 65)) = .next t ∧ t.ctl.err ≠ .none :=
  ⟨⟨by decide, by decide, ⟨_, rfl⟩, by decide⟩, ⟨_, rfl, rfl⟩, ⟨_, rfl, by decide⟩⟩

/-- A command of each of the four kinds. -/
theorem witness_WriterAndReaderAreSeparate :
    Quiet State.reset ∧ (∃ t, exec .bsFlush State.reset = .next t) ∧ (∃ t, exec .bsRalign State.reset = .next t) ∧
      Instr.bsFlush ∈ [Instr.bsWrite, .bsFlush, .riceEnc, .planeEnc] ∧
      Instr.bsRalign ∈ [Instr.bsRead, .bsRalign, .riceDec, .planeDec] ∧ Instr.bsFlush ≠ .planeDec ∧
      Instr.bsRalign ∉ [Instr.planeEnc, .planeDec] :=
  ⟨by decide, ⟨_, rfl⟩, ⟨_, rfl⟩, by decide, by decide, by decide, by decide⟩

theorem witness_NopOnlyCompletes :
    Quiet (withReader 0xFF 7 (withWriter 0x7F 7 State.reset)) ∧
      (withReader 0xFF 7 (withWriter 0x7F 7 State.reset)).writer.wbits ≤ 7 ∧
      (withReader 0xFF 7 (withWriter 0x7F 7 State.reset)).reader.rbits ≤ 7 ∧
      ∃ t, exec .nop (withReader 0xFF 7 (withWriter 0x7F 7 State.reset)) = .next t :=
  ⟨by decide, by decide, by decide, _, rfl⟩

theorem witness_BsRalignDropsTheBufferedBits : Quiet (withReader 0xFF 7 State.reset) := by decide

theorem witness_RiceKReturnsTheLeastParameter : Quiet (withArgs 0 0xFFFFFFFF 0) := by decide

theorem witness_MedPredReturnsThePrediction : Quiet (withArgs 0x0014000A 0xF 0) := by decide

theorem witness_MedStaysBetweenItsNeighbours :
    min (0 : Sample).toNat (2 : Sample).toNat < (1 : Sample).toNat ∧
      (1 : Sample).toNat < max (0 : Sample).toNat (2 : Sample).toNat := by decide

theorem witness_RiceParameterIsMonotone : activity 0 0 0 3 ≤ activity 0 0 0 4 := by decide

/-- The two ends of the domain. -/
theorem witness_FoldIsZigzagOnItsDomain : InFoldDomain 0xC0000000 ∧ InFoldDomain 0x3FFFFFFF := by decide

/-- The first values outside the domain. -/
theorem witness_FoldOutsideItsDomain :
    2 ^ 30 ≤ (0x40000000 : Word).toInt ∧ (0xBFFFFFFF : Word).toInt < -(2 ^ 30) ∧ ¬ InFoldDomain 0x40000000 := by decide

theorem witness_BsWriteAppendsItsBits :
    Quiet (withWriter 0x7F 7 (withArgs 0xFFFFFFFF 0xFFFFFFFF 68)) ∧
      (withWriter 0x7F 7 (withArgs 0xFFFFFFFF 0xFFFFFFFF 68)).writer.wbits ≤ 7 ∧
      SinkAccepts (withWriter 0x7F 7 (withArgs 0xFFFFFFFF 0xFFFFFFFF 68)) := by decide

/-- The refused byte is the last one, and RICE_ENC's second of four. -/
theorem witness_BsWriteStopsAtARefusedByte :
    let s := withSink [.ok, .error] (withArgs 0xABCD 0 16)
    let u := withSink [.ok, .error] (withArgs 0xFFFFFFFF 0 31)
    (Quiet s ∧ s.writer.wbits ≤ 7 ∧ s.ports.sink.script = List.replicate 1 .ok ++ .error :: [] ∧
      8 * (1 + 1) ≤ s.writer.wbits + (valueBits (s.regs.arg1 ++ s.regs.arg0) s.regs.arg2.toNat).length) ∧
    (Quiet u ∧ u.writer.wbits ≤ 7 ∧ u.ports.sink.script = List.replicate 1 .ok ++ .error :: [] ∧
      u.regs.arg2.toNat ≤ 31 ∧
      8 * (1 + 1) ≤ u.writer.wbits + (codeword u.regs.arg2.toNat u.regs.arg0).length) := by decide +kernel

theorem witness_BsFlushPadsAndFlushes :
    Quiet (withWriter 0x7F 7 State.reset) ∧ (withWriter 0x7F 7 State.reset).writer.wbits ≤ 7 ∧
      SinkAccepts (withWriter 0x7F 7 State.reset) := by decide

/-- A byte pending, which is refused, or accepted with FLUSH refused; and none. -/
theorem witness_BsFlushReportsSinkErrors :
    (Quiet (withSink [.error] (withWriter 1 1 State.reset)) ∧
      0 < (withSink [.error] (withWriter 1 1 State.reset)).writer.wbits ∧
      (withSink [.error] (withWriter 1 1 State.reset)).writer.wbits ≤ 7 ∧
      (withSink [.error] (withWriter 1 1 State.reset)).ports.sink.script = .error :: [] ∧
      (withSink [.ok, .error] (withWriter 1 1 State.reset)).ports.sink.script = .ok :: .error :: []) ∧
    Quiet (withSink [.error] State.reset) ∧ (withSink [.error] State.reset).writer.wbits = 0 ∧
      (withSink [.error] State.reset).ports.sink.script = .error :: [] := by decide

theorem witness_BsReadTakesItsBits :
    let s := withSource 64 [1, 2, 3, 4, 5, 6, 7, 8]
    Quiet s ∧ s.reader.rbits ≤ 7 ∧ s.regs.arg2.toNat ≤ 64 ∧ s.regs.arg2.toNat ≤ (readableBits s).length := by decide

/-- One bit is missing. -/
theorem witness_BsReadFailsAtTheEndOfTheSource :
    let s := { withArgs 0 0 9 with ports.source := { script := [.data 0xA5, .eos], tail := .error } }
    Quiet s ∧ s.reader.rbits ≤ 7 ∧ s.ports.source.script = ([0xA5] : List Octet).map .data ++ .eos :: [] ∧
      s.regs.arg2.toNat ≤ 64 ∧ s.reader.rbits + 8 * ([0xA5] : List Octet).length < s.regs.arg2.toNat := by decide

/-- The first lengths and parameters that are illegal. -/
theorem witness_IllegalArgumentChangesNothing :
    (Quiet (withArgs 0 0 65) ∧ 64 < (withArgs 0 0 65).regs.arg2.toNat) ∧
      Quiet (withArgs 0 0 32) ∧ 31 < (withArgs 0 0 32).regs.arg2.toNat := by decide

theorem witness_WriteBitsSplits : 64 ≤ 70 ∧ 64 ≤ 64 := by decide

theorem witness_WrittenBitsReadBack :
    (Quiet (withWriter 0x7F 7 State.reset) ∧ (withWriter 0x7F 7 State.reset).writer.wbits ≤ 7 ∧
      SinkAccepts (withWriter 0x7F 7 State.reset)) ∧
    (Quiet (withSource 0 [0xA5]) ∧ (withSource 0 [0xA5]).reader.rbits ≤ 7 ∧ 3 ≤ 64 ∧
      readableBits (withSource 0 [0xA5]) = valueBits (5 : DoubleWord) 3 ++ [false, false, true, false, true]) ∧
    64 ≤ 64 := by decide

theorem witness_RiceEncAppendsItsCodeword :
    let s := withWriter 0x7F 7 (withArgs 0xFFFFFFFF 0 31)
    Quiet s ∧ s.writer.wbits ≤ 7 ∧ SinkAccepts s ∧ s.regs.arg2.toNat ≤ 31 := by decide

theorem witness_RiceDecReadsOneCodeword :
    let s := withSource 3 [0x2C]
    Quiet s ∧ s.reader.rbits ≤ 7 ∧ s.regs.arg2.toNat ≤ 31 ∧
      readableBits s = List.replicate 2 false ++ true :: ([false, true, true] ++ [false, false]) ∧
      [false, true, true].length = s.regs.arg2.toNat := by decide

/-- The source ends in the zeros, and in the k bits. -/
theorem witness_RiceDecFailsAtTheEndOfTheSource :
    let s := { withArgs 0 0 31 with ports.source := { script := [.data 0, .error], tail := .eos } }
    let u := { withArgs 0 0 8 with ports.source := { script := [.data 0x80, .eos], tail := .error } }
    (Quiet s ∧ s.reader.rbits ≤ 7 ∧ s.ports.source.script = ([0] : List Octet).map .data ++ .error :: [] ∧
      s.regs.arg2.toNat ≤ 31 ∧ (readableBits s).all (fun b => !b) = true) ∧
    (Quiet u ∧ u.reader.rbits ≤ 7 ∧ u.ports.source.script = ([0x80] : List Octet).map .data ++ .eos :: [] ∧
      u.regs.arg2.toNat ≤ 31 ∧ readableBits u = List.replicate 0 false ++ true :: List.replicate 7 false ∧
      (List.replicate 7 false).length < u.regs.arg2.toNat) := by decide

theorem witness_CodewordRoundTrip :
    let s := withSource 0 [0x2C]
    Quiet s ∧ s.reader.rbits ≤ 7 ∧ s.writer.wbits ≤ 7 ∧ SinkAccepts s ∧ 3 ≤ 31 ∧ InFoldDomain 0xFFFFFFF6 ∧
      readableBits s = codeword 3 0xFFFFFFF6 ++ [false, false] := by decide +kernel

/-- Each port, silent at its next request. -/
theorem witness_SilentPortLeavesTheBlockWaiting :
    let s := withSink [.silent] (withPlanePort [.silent none] (fromSource [.silent] (running State.reset)))
    Quiet s ∧ s.ctl.busy = true ∧ s.host.queue = [] ∧ s.ports.sink.next = .silent ∧ s.ports.source.next = .silent ∧
      s.ports.plane.next = .silent none ∧ s.writer.wbits = 0 ∧ s.ports.sink.script = .silent :: [] := by decide

theorem witness_EndlessZerosHangRiceDec :
    let s := { running (withArgs 0 0 31) with ports.source := { script := [], tail := .data 0 } }
    Quiet s ∧ s.ctl.busy = true ∧ s.host.queue = [] ∧ s.reader.rbits ≤ 7 ∧ s.regs.arg2.toNat ≤ 31 ∧
      valueBits s.reader.racc s.reader.rbits = List.replicate s.reader.rbits false ∧
      s.ports.source = { script := [], tail := .data 0 } := by decide

/-- A memory that serves; a WRITE answered OK; and a READ of a held cell that the script answers with another value. -/
theorem witness_MemReadAfterMemWrite :
    let s := withPlane 0 0 0 0 0 planeOne
    let u := withPlanePort [.override 7] { s with ports.held := [0x105] }
    (Quiet s ∧ PlaneServes s ∧ Memory.wf s.ports.cells = true ∧ okSat (memWrite 0x105 7 s) (fun _ _ => true) = true) ∧
      Quiet u ∧ u.ports.raced = false ∧ (0x105 : Word).toNat ∈ u.ports.held ∧
      okSat (memRead 0x105 u) (fun _ _ => true) = true := by decide

theorem witness_PlaneCommandsStartOnAByteBoundary :
    Quiet (withReader 1 1 (withWriter 1 1 State.reset)) ∧ (withReader 1 1 (withWriter 1 1 State.reset)).writer.wbits ≠ 0 ∧
      (withReader 1 1 (withWriter 1 1 State.reset)).reader.rbits ≠ 0 := by decide

/-- No column, and no row. -/
theorem witness_EmptyPlaneSendsOnlyFlush :
    (Quiet (withPlane 0 0 5 1 0 []) ∧ (withPlane 0 0 5 1 0 []).regs.pwidth = 0 ∧
      (withPlane 0 0 5 1 0 []).writer.wbits = 0 ∧ (withPlane 0 0 5 1 0 []).ports.sink.next = (if true then .ok else .error) ∧
      (withPlane 0 0 5 1 0 []).reader.rbits = 0) ∧ (withPlane 0 4 0 1 0 []).regs.pheight = 0 := by decide

/-- The first address that does not fit, and a refusal: at a pixel of the first row, with a codeword to read, and at the
above-right sample of the first pixel of the second row. -/
theorem witness_OverflowingAddressSendsNothing :
    let base (pbase : Word) := fromSource [.data 0x80] (withPlanePort [.refuse (some 5)] (withPlane pbase 2 2 1 0 []))
    let high := atPixel 0 1 (base 0xFFFFFFFF)
    let refused := atPixel 0 1 (base 0x100)
    let highAbove := atPixel 1 0 (base 0xFFFFFFFF)
    let refusedAbove := atPixel 1 0 (base 0x100)
    (Quiet high ∧ high.scan.row = 0 ∧ 2 ^ 32 ≤ addrNat high.scan.row.toNat high.scan.col.toNat high ∧
      high.reader.rbits ≤ 7 ∧ InFoldDomain 0 ∧
      readableBits high = codeword (computeK high.scan.a high.scan.b high.scan.c 0) 0 ++ List.replicate 7 false) ∧
    (Quiet refused ∧ refused.scan.row = 0 ∧ addrNat refused.scan.row.toNat refused.scan.col.toNat refused < 2 ^ 32 ∧
      refused.ports.plane.next = .refuse (some 5) ∧ refused.reader.rbits ≤ 7 ∧
      readableBits refused =
        codeword (computeK refused.scan.a refused.scan.b refused.scan.c 0) 0 ++ List.replicate 7 false) ∧
    (Quiet highAbove ∧ highAbove.scan.row ≠ 0 ∧ highAbove.scan.col.toNat + 1 < highAbove.regs.pwidth.toNat ∧
      2 ^ 32 ≤ addrNat (highAbove.scan.row.toNat - 1) (highAbove.scan.col.toNat + 1) highAbove) ∧
    (Quiet refusedAbove ∧ refusedAbove.scan.row ≠ 0 ∧
      refusedAbove.scan.col.toNat + 1 < refusedAbove.regs.pwidth.toNat ∧
      addrNat (refusedAbove.scan.row.toNat - 1) (refusedAbove.scan.col.toNat + 1) refusedAbove < 2 ^ 32 ∧
      refusedAbove.ports.plane.next = .refuse (some 5)) := by
  decide +kernel

/-- P3's view: its addresses fit and are distinct. -/
theorem planeThree_addresses (cells : Memory) :
    AddressesFit (withPlane 0x201 2 2 3 6 cells) ∧ AddressesDistinct (withPlane 0x201 2 2 3 6 cells) := by
  constructor
  · rintro row col ⟨hr, hc⟩
    simp [withPlane, addrNat] at hr hc ⊢
    omega
  · rintro row col row' col' ⟨hr, hc⟩ ⟨hr', hc'⟩ h
    simp [withPlane, addrNat] at hr hc hr' hc' h
    omega

theorem witness_PlaneEncSendsThePlanesCodewords :
    let s := withPlane 0x201 2 2 3 6 planeThree
    Quiet s ∧ s.writer.wbits = 0 ∧ SinkAccepts s ∧ PlaneServes s ∧ AddressesFit s :=
  ⟨by decide, by decide, by decide, by decide, (planeThree_addresses _).1⟩

theorem witness_PlaneEncLengthLaw :
    let s := withPlane 0x201 2 2 3 6 planeThree
    Quiet s ∧ s.writer.wbits = 0 ∧ SinkAccepts s ∧ PlaneServes s ∧ AddressesFit s :=
  witness_PlaneEncSendsThePlanesCodewords

/-- P3's samples by row and column. -/
def planeThreeSample (row col : Nat) : Sample :=
  match row, col with
  | 0, 0 => 2
  | 0, 1 => 3
  | 1, 0 => 1
  | _, _ => 4

/-- P3's bytes (95_test_vectors.md 2.5). -/
theorem witness_PlaneDecWritesThePlane :
    let s := { withPlane 0x201 2 2 3 6 [] with ports.source := { script := [.data 0x09, .data 0x48], tail := .eos } }
    Quiet s ∧ s.reader.rbits = 0 ∧ PlaneServes s ∧ AddressesFit s ∧ AddressesDistinct s ∧
      readableBits s = planeBits planeThreeSample s.regs.pwidth.toNat s.regs.pheight.toNat ++ [false, false] :=
  ⟨by decide, by decide, by decide, (planeThree_addresses []).1, (planeThree_addresses []).2, by decide +kernel⟩

/-- P3's first byte: the codewords of (0, 0) and (0, 1) are whole, and that of (1, 0) is cut to nothing. -/
theorem witness_PlaneDecStopsAtATruncatedCodeword :
    let s := { withPlane 0x201 2 2 3 6 [] with ports.source := { script := [.data 0x09, .eos], tail := .error } }
    Quiet s ∧ s.reader.rbits = 0 ∧ PlaneServes s ∧ AddressesFit s ∧ AddressesDistinct s ∧ InPlane s 1 0 ∧
      s.ports.source.script = ([0x09] : List Octet).map .data ++ .eos :: [] ∧
      octetsBits [0x09] = planeBits planeThreeSample s.regs.pwidth.toNat 1 ++
        ((List.range 0).flatMap fun j => pixelCodeword planeThreeSample s.regs.pwidth.toNat 1 j) ++ [] ∧
      pixelCodeword planeThreeSample s.regs.pwidth.toNat 1 0 = [] ++ [false, true] :=
  ⟨by decide, by decide, by decide, (planeThree_addresses []).1, (planeThree_addresses []).2, by decide, by decide,
    by decide +kernel, by decide +kernel⟩

/-- The same view twice; the decoder's source holds the bytes P3's encoder sends. -/
theorem witness_PlaneRoundTrip :
    let s := withPlane 0x201 2 2 3 6 planeThree
    let u := { withPlane 0x201 2 2 3 6 [] with ports.source := { script := [.data 0x09, .data 0x48], tail := .eos } }
    (Quiet s ∧ s.writer.wbits = 0 ∧ SinkAccepts s ∧ PlaneServes s ∧ AddressesFit s ∧ AddressesDistinct s) ∧
      (Quiet u ∧ u.reader.rbits = 0 ∧ PlaneServes u ∧ AddressesFit u ∧ AddressesDistinct u) ∧
      1 ≤ s.regs.pwidth.toNat ∧ 1 ≤ s.regs.pheight.toNat ∧
      u.regs.pwidth = s.regs.pwidth ∧ u.regs.pheight = s.regs.pheight ∧
      u.regs.psstride = s.regs.psstride ∧ u.regs.prstride = s.regs.prstride ∧
      nextSat (exec .planeEnc s) (fun t => u.ports.source.script == (sinkStream t.ports.log).map .data) = true :=
  ⟨⟨by decide, by decide, by decide, by decide, (planeThree_addresses _).1, (planeThree_addresses _).2⟩,
    ⟨by decide, by decide, by decide, (planeThree_addresses []).1, (planeThree_addresses []).2⟩,
    by decide, by decide, by decide, by decide, by decide, by decide, by decide +kernel⟩

/-- The memory refuses the second pixel; the sink refuses P3's first byte, inside a codeword; and a scan that ends. -/
theorem witness_PlaneEncEndsOnAByteBoundary :
    let s := withPlanePort [.serve, .refuse none] (withPlane 0x201 2 2 3 6 planeThree)
    let u := withSink [.error] (withPlane 0x201 2 2 3 6 planeThree)
    let v := withPlane 0x201 2 2 3 6 planeThree
    (Quiet s ∧ s.writer.wbits = 0 ∧ PortsAnswer s ∧ raises .memError (scanPlane encodePixel s) = true ∧
      nextSat (exec .planeEnc s) (fun t => t.ctl.err == .memError) = true) ∧
    (Quiet u ∧ u.writer.wbits = 0 ∧ PortsAnswer u ∧ raises .ioError (scanPlane encodePixel u) = true) ∧
    (Quiet v ∧ v.writer.wbits = 0 ∧ PortsAnswer v ∧
      okSat (scanPlane encodePixel v) (fun _ _ => true) = true) := by
  decide +kernel

theorem witness_PlaneDecEndsWithAnEmptyReader :
    let s := { withPlane 0x201 2 2 3 6 [] with ports.source := { script := [.data 0x09], tail := .error } }
    Quiet s ∧ s.reader.rbits = 0 ∧ PortsAnswer s ∧ SourceNotEndlessZeros s := by decide

end Sys2Proof.Tests
end

section
/-! SUPPORT and proofs for the statements about the whole machine: a command's rule apart from its completion, and the
invariant over every step (O18, O17). -/

namespace Sys2Proof.Machine

open Sys2Proof.Safety

variable {calm : Prop}

/-! ### A command as its rule and its completion -/

/-- The rule of a command, from the start edge to before its completion (R110, R111). -/
def commandRule (i : Instr) (s : State) : Res Unit :=
  match i with
  | .nop => .ok () s
  | .bsWrite => writeBits s.valueOperand s.lengthOperand s
  | .bsFlush => flushWriter true s
  | .bsRead =>
    if s.lengthOperand > 64 then .raised .illegalArg s
    else (readBits s.lengthOperand 0 s).bind fun v t => .ok () (t.setResult64 v)
  | .bsRalign => .ok () s.dropReader
  | .riceK => .ok () (s.setResultK (computeK s.aOperand s.bOperand s.cOperand s.dOperand))
  | .riceEnc =>
    if s.kOperand > 31 then .raised .illegalArg s
    else riceEncode s.kOperand s.residualOperand s
  | .riceDec =>
    if s.kOperand > 31 then .raised .illegalArg s
    else (riceDecode s.kOperand s).bind fun x t => .ok () (t.setResult 0 x)
  | .medPred => .ok () (s.setResult16 (med s.aOperand s.bOperand s.cOperand))
  | .planeEnc => if s.writer.wbits ≠ 0 then .raised .state s else encodeExit (scanPlane encodePixel s)
  | .planeDec => if s.reader.rbits ≠ 0 then .raised .state s else decodeExit (scanPlane decodePixel s)

/-- Every command is its rule and then the completion. -/
theorem exec_eq_finish (i : Instr) (s : State) : exec i s = finish (commandRule i s) := by
  cases i <;> rfl

/-! ### A running command keeps the invariant -/

/-- The registers may take any values. -/
theorem Ready.setRegs {s : State} (h : Ready calm s) (r : Regs) : Ready calm { s with regs := r } :=
  h.setScan r h.running.k

/-- A rule that starts with a check (R283, R284). -/
theorem Res.Sat.guard {α : Type} {Q : α → State → Prop} {E : ErrCode → State → Prop}
    {O : Host.Outcome State Fault Refusal → Prop} {c : Prop} [Decidable c] {e : ErrCode} {s : State} {r : Res α}
    (he : E e s) (hr : r.Sat Q E O) : (if c then .raised e s else r : Res α).Sat Q E O := by
  split
  · exact he
  · exact hr

theorem commandRule_keeps (i : Instr) {s : State} (h : Ready calm s) : (commandRule i s).KeepsReady calm := by
  cases i with
  | nop => exact h
  | bsWrite => exact writeBits_keeps _ _ h
  | bsFlush => exact flushWriter_keeps true h
  | bsRead => exact Res.Sat.guard h (Res.KeepsReady.bind (readBits_keeps _ _ h) fun v t ht => ht.setRegs _)
  | bsRalign => exact h.dropReader
  | riceK => exact h.setRegs _
  | riceEnc => exact Res.Sat.guard h (riceEncode_keeps _ _ h)
  | riceDec => exact Res.Sat.guard h (Res.KeepsReady.bind (riceDecode_keeps _ h) fun x t ht => ht.setRegs _)
  | medPred => exact h.setRegs _
  | planeEnc => exact Res.Sat.guard h (encodeExit_keeps (scanPlane_keeps (fun _ => encodePixel_keeps) h))
  | planeDec => exact Res.Sat.guard h (decodeExit_keeps (scanPlane_keeps (fun _ => decodePixel_keeps) h))

theorem exec_keeps (i : Instr) {s : State} (h : Ready calm s) : OverInv calm (exec i s) := by
  rw [exec_eq_finish]
  exact finish_keeps (commandRule_keeps i h)

/-! ### Every step keeps the invariant -/

/-- A run that is no race and that no waiting action touches plane memory in (R88). -/
def Untouched (s : State) : Prop := s.host.queue.any touchesPlane = false ∧ s.ports.raced = false

/-- The start edge makes an idle block a running one, with nothing outstanding (R87, R110). -/
theorem ready_startEdge (w : Word) {s : State} (h : Inv s) (hc : calm → Untouched s) (hidle : s.ctl.busy = false) :
    Ready calm (s.startEdge w) := by
  obtain ⟨hwbits, hwacc, hrbits, -, -, -, hpending, hk, hcells, hheld⟩ := h
  exact ⟨⟨rfl, rfl, rfl, rfl, hwbits, hwacc, hrbits, hk, hcells, hheld, hc⟩, hpending hidle⟩

theorem startCommand_keeps (w : Word) {s : State} (h : Inv s) (hc : calm → Untouched s) (hidle : s.ctl.busy = false) :
    OverInv calm (startCommand w s) := by
  have hready := ready_startEdge w h hc hidle
  unfold startCommand
  split
  · exact exec_keeps _ hready
  · exact finish_keeps (r := .raised .illegalCmd _) hready

/-- Outside actions that land keep the invariant, busy or idle. -/
theorem Landed.inv {s t : State} (hl : Landed s t) (h : Inv s) : Inv t := by
  obtain ⟨heq, hcells, hheld, -⟩ := hl
  obtain ⟨hwbits, hwacc, hrbits, hphase, hdone, herr, hpending, hk, hwf, hhwf⟩ := h
  have hw : t.writer = s.writer := by rw [heq]
  have hr : t.reader = s.reader := by rw [heq]
  have hctl : t.ctl = s.ctl := by rw [heq]
  have hp : t.ports.pending = s.ports.pending := by rw [heq]
  have hs : t.scan = s.scan := by rw [heq]
  rw [Safety.Inv, hw, hr, hctl, hp, hs]
  exact ⟨hwbits, hwacc, hrbits, hphase, hdone, herr, hpending, hk, hcells hwf, hheld hhwf⟩

/-- An outside action while BUSY = 1 keeps the invariant, whether the command goes on or a reset stops it. -/
theorem serveBusy_keeps {uses : Bool} {s : State} (h : Inv s) (hc : calm → Untouched s) :
    (∃ t, serveBusy uses s = .ok t ∧ Inv t ∧ (calm → t.ports.raced = false)) ∨
      ∃ o, serveBusy uses s = .error o ∧ OverInv calm o := by
  obtain ⟨-, -, -, -, -, -, -, -, hcells, hheld⟩ := id h
  cases hs : serveBusy uses s with
  | ok t =>
    have hl := serveBusy_ok hs
    refine .inl ⟨t, rfl, hl.inv h, fun c => ?_⟩
    obtain ⟨-, -, -, hraced⟩ := hl
    exact (hraced (hc c).1).2.trans (hc c).2
  | error o =>
    refine .inr ⟨o, rfl, ?_⟩
    rintro t rfl
    obtain ⟨rest, -, he⟩ | ⟨act, he⟩ := serveBusy_error hs
    · cases he
      exact ⟨inv_resetBlock hcells hheld, fun c => by simpa [dropPending_eq] using (hc c).2⟩
    · cases he

/-- An outside action while BUSY = 0, with the whole command it starts, keeps the invariant. -/
theorem serveIdle_keeps {s : State} (h : Inv s) (hc : calm → Untouched s) (hidle : s.ctl.busy = false) :
    OverInv calm (serveIdle s) := by
  have hraced : calm → s.ports.raced = false := fun c => (hc c).2
  obtain ⟨hwbits, hwacc, hrbits, hphase, hdone, herr, hpending, hk, hcells, hheld⟩ := id h
  unfold serveIdle
  split
  · rintro t ⟨⟩
    exact ⟨h, hraced⟩
  · next act rest hq =>
    have hpop : calm → Untouched { s with host.queue := rest } := fun c => by
      have hany := (hc c).1
      rw [hq, List.any_cons, Bool.or_eq_false_iff] at hany
      exact ⟨hany.2, hraced c⟩
    dsimp only
    split
    · cases act with
      | read width offset =>
        rintro t ⟨⟩
        exact ⟨h, hraced⟩
      | write width offset v =>
        dsimp only
        split
        · exact startCommand_keeps v (s := { s with host.queue := rest }) h hpop hidle
        · rintro t ⟨⟩
          rw [storeReg_eq]
          exact ⟨h, hraced⟩
      | wait =>
        rintro t ⟨⟩
        exact ⟨h, hraced⟩
      | reset =>
        rintro t ⟨⟩
        exact ⟨inv_resetBlock hcells hheld, fun c => by simpa [dropPending_eq] using hraced c⟩
      | poke a v =>
        rintro t ⟨⟩
        exact ⟨⟨hwbits, hwacc, hrbits, hphase, hdone, herr, hpending, hk, Memory.wf_write _ _ hcells,
          heldWf_releaseCell _ hheld⟩, hraced⟩
      | peek a =>
        rintro t ⟨⟩
        exact ⟨h, hraced⟩
    · rintro t ⟨⟩

theorem hostStep_keeps {s : State} (h : Inv s) (hc : calm → Untouched s) : OverInv calm (hostStep s) := by
  unfold hostStep
  split
  · obtain ⟨t, hs, ht, hr⟩ | ⟨o, hs, ho⟩ := serveBusy_keeps (uses := true) h hc
    · rw [hs]
      rintro u ⟨⟩
      exact ⟨ht, hr⟩
    · rw [hs]
      exact ho
  · next hbusy => exact serveIdle_keeps h hc (by simpa using hbusy)

/-- Settles O18: the look-ahead changes `ports.raced` alone, and then one action acts on a busy or an idle block. -/
theorem stepKeepsTheInvariant : Obligations.StepKeepsTheInvariant := by
  intro s t h hs
  have hforeseen : Inv (foresee s) := h
  exact (hostStep_keeps (calm := False) hforeseen False.elim t hs).1

/-- Settles O17: every field of the reset state is a literal. -/
theorem resetMeetsTheInvariant : Obligations.ResetMeetsTheInvariant := by
  unfold Obligations.ResetMeetsTheInvariant
  decide

end Sys2Proof.Machine
end

section
/-! SUPPORT and proofs for the statements about every command: host accesses that land in it (O20), and what a command
can touch while none does (O21, O22, O23). -/

namespace Sys2Proof.Machine

open Sys2Proof.Safety

/-! ### Harmless accesses that land in a command -/

/-- Both outcomes are next states, and they agree but for the host's side. -/
def SameOutcome (o p : Host.Outcome State Fault Refusal) : Prop :=
  ∃ s t, o = .next s ∧ p = .next t ∧ t = { s with host := t.host }

theorem endCommand_same (e : ErrCode) {s t : State} (h : SameButHost s t) :
    SameOutcome (endCommand e s) (endCommand e t) := by
  obtain ⟨hs, u, hu, hsu⟩ := h.yield (uses := e.afterChecks)
  refine ⟨s.complete e, u.complete e, by rw [endCommand, hs], by rw [endCommand, hu], ?_⟩
  exact (hsu.map (State.complete e) (fun _ _ => rfl) fun _ => rfl).same

/-- The three ways in which two results agree. -/
theorem Res.Same.cases {α : Type} {r r' : Res α} (h : r.Same r') :
    (∃ a s t, r = .ok a s ∧ r' = .ok a t ∧ SameButHost s t) ∨
      (∃ e s t, r = .raised e s ∧ r' = .raised e t ∧ SameButHost s t) ∨
      ∃ o p, r = .ended o ∧ r' = .ended p ∧ SameOutcome o p := by
  cases r with
  | ok a s =>
    cases r' with
    | ok b t => exact .inl ⟨a, s, t, rfl, by rw [h.1], h.2⟩
    | raised e t => exact h.elim
    | ended p => exact h.elim
  | raised e s =>
    cases r' with
    | ok b t => exact h.elim
    | raised f t => exact .inr (.inl ⟨e, s, t, rfl, by rw [h.1], h.2⟩)
    | ended p => exact h.elim
  | ended o =>
    cases r' with
    | ok b t => exact h.elim
    | raised f t => exact h.elim
    | ended p => exact .inr (.inr ⟨o, p, rfl, rfl, h⟩)

theorem finish_same {r r' : Res Unit} (h : r.Same r') : SameOutcome (finish r) (finish r') := by
  obtain ⟨a, s, t, rfl, rfl, hst⟩ | ⟨e, s, t, rfl, rfl, hst⟩ | ⟨o, p, rfl, rfl, hop⟩ := h.cases
  · exact endCommand_same .none hst
  · exact endCommand_same e hst
  · exact hop

theorem SameButHost.dropReader {s t : State} (h : SameButHost s t) : SameButHost s.dropReader t.dropReader :=
  h.map State.dropReader (fun _ _ => rfl) fun _ => rfl

theorem SameButHost.setResult (hi lo : Word) {s t : State} (h : SameButHost s t) :
    SameButHost (s.setResult hi lo) (t.setResult hi lo) :=
  h.map (State.setResult hi lo) (fun _ _ => rfl) fun _ => rfl

theorem encodeExit_same {r r' : Res Unit} (h : r.Same r') : (encodeExit r).Same (encodeExit r') := by
  obtain ⟨a, s, t, rfl, rfl, hst⟩ | ⟨e, s, t, rfl, rfl, hst⟩ | ⟨o, p, rfl, rfl, hop⟩ := h.cases
  · exact flushWriter_same true hst
  · have hheld := hst.map (fun u => { u with ctl.abortErr := e }) (fun _ _ => rfl) fun _ => rfl
    refine Res.Same.bind (flushWriter_same false hheld) fun _ u v huv => ⟨?_, huv⟩
    rw [huv.same]
  · exact hop

theorem decodeExit_same {r r' : Res Unit} (h : r.Same r') : (decodeExit r).Same (decodeExit r') := by
  obtain ⟨a, s, t, rfl, rfl, hst⟩ | ⟨e, s, t, rfl, rfl, hst⟩ | ⟨o, p, rfl, rfl, hop⟩ := h.cases
  · exact ⟨rfl, hst.dropReader⟩
  · exact ⟨rfl, hst.dropReader⟩
  · exact hop

/-- A rule that starts with the same check on both sides. -/
theorem Res.Same.guard {α : Type} {c : Prop} [Decidable c] {e : ErrCode} {s t : State} {r r' : Res α}
    (h : SameButHost s t) (hr : r.Same r') :
    (if c then .raised e s else r : Res α).Same (if c then .raised e t else r') := by
  split
  · exact ⟨rfl, h⟩
  · exact hr

theorem commandRule_same (i : Instr) {s t : State} (h : SameButHost s t) :
    (commandRule i s).Same (commandRule i t) := by
  obtain ⟨host, rfl⟩ : ∃ host, t = { s with host := host } := ⟨_, h.same⟩
  cases i with
  | nop => exact ⟨rfl, h⟩
  | bsWrite => exact writeBits_same _ _ h
  | bsFlush => exact flushWriter_same true h
  | bsRead =>
    exact Res.Same.guard h (Res.Same.bind (readBits_same _ _ h) fun v u w huw => ⟨rfl, huw.setResult _ _⟩)
  | bsRalign => exact ⟨rfl, h.dropReader⟩
  | riceK => exact ⟨rfl, h.setResult _ _⟩
  | riceEnc => exact Res.Same.guard h (riceEncode_same _ _ h)
  | riceDec =>
    exact Res.Same.guard h (Res.Same.bind (riceDecode_same _ h) fun x u w huw => ⟨rfl, huw.setResult _ _⟩)
  | medPred => exact ⟨rfl, h.setResult _ _⟩
  | planeEnc =>
    exact Res.Same.guard h (encodeExit_same (scanPlane_same (fun _ _ => encodePixel_same) h))
  | planeDec =>
    exact Res.Same.guard h (decodeExit_same (scanPlane_same (fun _ _ => decodePixel_same) h))

theorem exec_same (i : Instr) {s t : State} (h : SameButHost s t) : SameOutcome (exec i s) (exec i t) := by
  rw [exec_eq_finish, exec_eq_finish]
  exact finish_same (commandRule_same i h)

/-- Settles O20: the command with an empty schedule and the one with harmless accesses landing run side by side. -/
theorem hostAccessesDoNotDisturbACommand : Obligations.HostAccessesDoNotDisturbACommand := by
  intro i s t hharmless hexec
  have hsame : SameButHost { s with host.slots := [] } s := ⟨rfl, rfl, hharmless⟩
  obtain ⟨u, v, hu, hv, huv⟩ := exec_same i hsame
  rw [hexec] at hu
  cases hu
  exact ⟨v.host, hv.trans (congrArg Host.Outcome.next huv)⟩

/-! ### What a command can touch while no outside action lands -/

/-- What a command's rule leaves alone but for RES0 and RES1: the host's side, and every register but POS and the byte
counters, which count the streams (R40, R41). -/
structure RuleSide (s t : State) : Prop where
  host : t.host = s.host
  regs : ∃ posRow posCol outBytes inBytes,
    t.regs = { s.regs with posRow := posRow, posCol := posCol, outBytes := outBytes, inBytes := inBytes }
  counted : Counted s t

theorem RuleSide.of_eq {s t : State} (hhost : t.host = s.host) (hregs : t.regs = s.regs)
    (hlog : t.ports.log = s.ports.log) : RuleSide s t :=
  ⟨hhost, ⟨_, _, _, _, hregs⟩, Counted.of_eq hlog (by rw [hregs]) (by rw [hregs])⟩

theorem EncSide.rule {s t : State} (h : EncSide s t) : RuleSide s t :=
  ⟨h.host, ⟨_, _, _, s.regs.inBytes, (congrArg State.regs h.frame :)⟩, h.counted⟩

theorem DecSide.rule {s t : State} (h : DecSide s t) : RuleSide s t :=
  ⟨h.host, ⟨_, _, s.regs.outBytes, _, (congrArg State.regs h.frame :)⟩, h.counted⟩

/-- The exit flush of PLANE_ENC (R231), whatever the sink answers. -/
theorem encodeExit_within {r : Res Unit} {s : State} (hq : Quiet s) (h : r.Within EncSide s) :
    (encodeExit r).Within EncSide s := by
  cases r with
  | ok a t =>
    have ht : EncSide s t := h
    exact Res.Within.mono (flushWriter_within true (ht.quiet hq)) fun u hu => EncSide.trans _ _ _ ht hu.enc
  | raised e t =>
    have ht : EncSide s t := h
    have hheld : EncSide s { t with ctl.abortErr := e } := EncSide.trans _ _ _ ht ⟨rfl, Counted.of_eq rfl rfl rfl⟩
    refine Res.Within.bind EncSide.trans (Res.Within.mono (flushWriter_within false (hheld.quiet hq)) fun u hu => ?_)
      fun _ u _ => EncSide.refl u
    exact EncSide.trans _ _ _ hheld hu.enc
  | ended o => exact h

/-- The exit of PLANE_DEC (R232). -/
theorem decodeExit_within {r : Res Unit} {s : State} (h : r.Within DecSide s) : (decodeExit r).Within DecSide s := by
  have hdrop : ∀ t, DecSide s t → DecSide s t.dropReader :=
    fun t ht => DecSide.trans _ _ _ ht ⟨rfl, Counted.of_eq rfl rfl rfl⟩
  cases r with
  | ok a t => exact hdrop t h
  | raised e t => exact hdrop t h
  | ended o => exact h

/-- The commands that write RES0 and RES1 (R31, R32). -/
abbrev resultCommands : List Instr := [.bsRead, .riceK, .riceDec, .medPred]

/-- How command `i` can end its rule without a raise, from `s`: within `RuleSide`, and then with a result for a command
that has one. -/
def RuleEnds (i : Instr) (s t : State) : Prop :=
  RuleSide s t ∨ i ∈ resultCommands ∧ ∃ u hi lo, RuleSide s u ∧ t = u.setResult hi lo

/-- What a command's rule can do, however it ends. -/
abbrev Res.RuleWithin (i : Instr) (s : State) (r : Res Unit) : Prop :=
  r.Sat (fun _ t => RuleEnds i s t) (fun _ t => RuleSide s t) fun o => ∃ t, o = .next t ∧ RuleSide s t

/-- A rule that writes no result. -/
theorem Res.Within.rule {i : Instr} {s : State} {r : Res Unit} (h : r.Within RuleSide s) : r.RuleWithin i s :=
  Res.Sat.mono h (fun _ _ => .inl) (fun _ _ => id) fun _ => id

/-- A rule that reads a value and returns it. -/
theorem Res.Within.result {α : Type} {i : Instr} {s : State} {r : Res α} (hi : i ∈ resultCommands)
    (h : r.Within SourceSide s) (hiWord loWord : α → Word) :
    (r.bind fun v t => .ok () (t.setResult (hiWord v) (loWord v))).RuleWithin i s :=
  Res.Sat.bind (Res.Within.mono h fun _ ht => ht.dec.rule) fun v t ht => .inr ⟨hi, t, hiWord v, loWord v, ht, rfl⟩

theorem RuleSide.refl (s : State) : RuleSide s s := .of_eq rfl rfl rfl

theorem commandRule_within (i : Instr) {s : State} (hq : Quiet s) : (commandRule i s).RuleWithin i s := by
  have hrefl := RuleSide.refl s
  cases i with
  | nop => exact .inl hrefl
  | bsWrite => exact (Res.Within.mono (writeBits_within _ _ hq) fun _ h => h.enc.rule).rule
  | bsFlush => exact (Res.Within.mono (flushWriter_within true hq) fun _ h => h.enc.rule).rule
  | bsRead =>
    exact Res.Sat.guard hrefl
      (Res.Within.result (by decide) (readBits_within _ _ hq) (·.extractLsb' 32 32) (·.extractLsb' 0 32))
  | bsRalign => exact .inl (.of_eq rfl rfl rfl)
  | riceK => exact .inr ⟨by decide, s, _, _, hrefl, rfl⟩
  | riceEnc =>
    exact Res.Sat.guard hrefl (Res.Within.mono (riceEncode_within _ _ hq) fun _ h => h.enc.rule).rule
  | riceDec =>
    exact Res.Sat.guard hrefl (Res.Within.result (by decide) (riceDecode_within _ hq) (fun _ => 0) id)
  | medPred => exact .inr ⟨by decide, s, _, _, hrefl, rfl⟩
  | planeEnc =>
    exact Res.Sat.guard hrefl
      (Res.Within.mono (encodeExit_within hq (scanPlane_encSide hq)) fun _ h => h.rule).rule
  | planeDec =>
    exact Res.Sat.guard hrefl
      (Res.Within.mono (decodeExit_within (scanPlane_decSide hq)) fun _ h => h.rule).rule

/-- What a command in which no outside action lands can have done: it waits for ever, it completes, or it completes
without an error and with a result. -/
theorem exec_cases {i : Instr} {s t : State} (hq : Quiet s) (h : exec i s = .next t) :
    ∃ u, RuleSide s u ∧
      (t = u ∨ (∃ e, t = u.complete e) ∨ i ∈ resultCommands ∧ ∃ hi lo, t = (u.setResult hi lo).complete .none) := by
  have hquiet : ∀ u, RuleSide s u → Quiet u := fun u hu => by rw [Quiet, hu.host]; exact hq
  have hrule := commandRule_within i hq
  rw [exec_eq_finish] at h
  cases hr : commandRule i s with
  | ok a u =>
    rw [hr] at h hrule
    rw [finish_ok] at h
    obtain hu | ⟨hi, u, hiWord, lo, hu, rfl⟩ := hrule
    · rw [endCommand_quiet _ (hquiet u hu)] at h
      cases h
      exact ⟨u, hu, .inr (.inl ⟨_, rfl⟩)⟩
    · rw [endCommand_quiet _ (by exact hquiet u hu)] at h
      cases h
      exact ⟨u, hu, .inr (.inr ⟨hi, hiWord, lo, rfl⟩)⟩
  | raised e u =>
    rw [hr] at h hrule
    rw [finish_raised, endCommand_quiet _ (hquiet u hrule)] at h
    cases h
    exact ⟨u, hrule, .inr (.inl ⟨e, rfl⟩)⟩
  | ended o =>
    rw [hr] at h hrule
    obtain ⟨u, rfl, hu⟩ := hrule
    cases h
    exact ⟨t, hu, .inl rfl⟩

/-- Settles O21: the edges and a result touch neither the record nor the counters. -/
theorem byteCountersCountTheStreams : Obligations.ByteCountersCountTheStreams := by
  intro i s t hq h
  obtain ⟨u, hu, rfl | ⟨e, rfl⟩ | ⟨-, hi, lo, rfl⟩⟩ := exec_cases hq h
  · exact hu.counted.grown
  · exact hu.counted.grown
  · exact hu.counted.grown

/-- Settles O22: the edges and a result touch none of the registers that the host writes. -/
theorem commandsKeepTheHostsRegisters : Obligations.CommandsKeepTheHostsRegisters := by
  intro i s t hq h
  obtain ⟨u, hu, hend⟩ := exec_cases hq h
  obtain ⟨posRow, posCol, outBytes, inBytes, hregs⟩ := hu.regs
  obtain rfl | ⟨e, rfl⟩ | ⟨-, hi, lo, rfl⟩ := hend
  · simp [regValue, hregs]
  · simp [regValue, hregs]
  · simp [regValue, hregs]

/-- Settles O23: the one end that writes a result is a completion without an error of one of the four commands. -/
theorem resultsOnlyFromFourCommandsOnSuccess : Obligations.ResultsOnlyFromFourCommandsOnSuccess := by
  intro i s t hq _ h hcase
  obtain ⟨u, hu, hend⟩ := exec_cases hq h
  have hkept : u.regs.res0 = s.regs.res0 ∧ u.regs.res1 = s.regs.res1 := by
    obtain ⟨posRow, posCol, outBytes, inBytes, hregs⟩ := hu.regs
    rw [hregs]
    exact ⟨rfl, rfl⟩
  obtain rfl | ⟨e, rfl⟩ | ⟨hi, hiWord, lo, rfl⟩ := hend
  · exact hkept
  · exact hkept
  · obtain hni | hbusy | herr := hcase
    · exact absurd hi hni
    · simp at hbusy
    · simp at herr

end Sys2Proof.Machine
end

section
/-! SUPPORT and proofs for the statements about the host register port: the fields of STATUS (O7), accesses while idle (O8,
O9) and while busy (O10, O11), and the placement of a command word (O5). -/

namespace Sys2Proof.Machine

open Sys2Proof.Safety

/-! ### The fields of STATUS -/

theorem ErrCode.code_lt (e : ErrCode) : e.code < 8 := by
  cases e <;> decide

theorem statusWord_toNat (busy done : Bool) (err : ErrCode) (wbits rbits : BitVec 3) :
    (statusWord busy done err wbits rbits).toNat =
      busy.toNat + 2 * done.toNat + 2 ^ 4 * err.code + 2 ^ 8 * wbits.toNat + 2 ^ 12 * rbits.toNat := by
  have hb := busy.toNat_lt
  have hd := done.toNat_lt
  have he := err.code_lt
  have hw := wbits.isLt
  have hr := rbits.isLt
  rw [statusWord, BitVec.toNat_ofNat]
  omega

/-- A bit of a word by the word's number. -/
theorem getLsbD_eq_of_toNat {w : Word} {i : Nat} {b : Bool} (h : w.toNat / 2 ^ i % 2 = b.toNat) : w.getLsbD i = b := by
  rw [BitVec.getLsbD, Nat.testBit_eq_decide_div_mod_eq, h]
  cases b <;> rfl

/-- R25: where STATUS has each field, and the reserved bits are 0. -/
theorem statusWord_fields (busy done : Bool) (err : ErrCode) (wbits rbits : BitVec 3) :
    let v := statusWord busy done err wbits rbits
    v.getLsbD 0 = busy ∧ v.getLsbD 1 = done ∧ v.extractLsb' 2 2 = 0#2 ∧ (v.extractLsb' 4 3).toNat = err.code ∧
      v.getLsbD 7 = false ∧ (v.extractLsb' 8 3).toNat = wbits.toNat ∧ v.getLsbD 11 = false ∧
      (v.extractLsb' 12 3).toNat = rbits.toNat ∧ v.extractLsb' 15 17 = 0#17 := by
  have hv := statusWord_toNat busy done err wbits rbits
  have hb := busy.toNat_lt
  have hd := done.toNat_lt
  have he := err.code_lt
  have hw := wbits.isLt
  have hr := rbits.isLt
  refine ⟨getLsbD_eq_of_toNat ?_, getLsbD_eq_of_toNat ?_, BitVec.eq_of_toNat_eq ?_, ?_, getLsbD_eq_of_toNat ?_, ?_,
    getLsbD_eq_of_toNat ?_, ?_, BitVec.eq_of_toNat_eq ?_⟩ <;>
  · simp only [BitVec.extractLsb'_toNat, Nat.shiftRight_eq_div_pow, hv, BitVec.toNat_ofNat, Bool.toNat_false]
    omega

/-- Settles O7: WBITS and RBITS fit in their three bits. -/
theorem statusShowsItsFields : Obligations.StatusShowsItsFields := by
  intro s hw hr
  have hfields := statusWord_fields s.ctl.busy s.ctl.done s.ctl.err (BitVec.ofNat 3 s.writer.wbits)
    (BitVec.ofNat 3 s.reader.rbits)
  rw [BitVec.toNat_ofNat, BitVec.toNat_ofNat, Nat.mod_eq_of_lt (by omega), Nat.mod_eq_of_lt (by omega)] at hfields
  exact hfields

/-! ### Reads and writes of a register -/

/-- A register's value is the block's: the ports and the host's side play no part. -/
theorem regValue_outside (r : Reg) (s : State) (ports : Ports) (host : HostSide) :
    regValue r { s with ports := ports, host := host } = regValue r s := by
  cases r <;> rfl

/-- An offset that is no register's is reserved (R20). -/
theorem regAt_eq_none {offset : Nat} (h : ∀ r, offset ≠ regOffset r) : regAt offset = none := by
  cases hr : regAt offset with
  | none => rfl
  | some r => exact absurd (regOffset_of_regAt hr).symm (h r)

theorem regOffset_inj {r r' : Reg} : regOffset r = regOffset r' ↔ r = r' := by
  refine ⟨fun h => ?_, congrArg regOffset⟩
  have := congrArg regAt h
  simpa using this

@[simp] theorem idleValue_regOffset (r : Reg) (s : State) : idleValue (regOffset r) s = regValue r s := by
  simp [idleValue]

theorem idleValue_reserved {offset : Nat} (h : ∀ r, offset ≠ regOffset r) (s : State) : idleValue offset s = 0 := by
  simp [idleValue, regAt_eq_none h]

/-- The registers that the host writes, CMD apart (R21). -/
abbrev storedRegs : List Reg := [.arg0, .arg1, .arg2, .pbase, .pwidth, .pheight, .psstride, .prstride]

/-- A write of a register's offset sets that register if it is RW, and nothing else (R21). -/
theorem regValue_storeReg_regOffset (r' r : Reg) (v : Word) (s : State) :
    regValue r (storeReg (regOffset r') v s) = if r' = r ∧ r ∈ storedRegs then v else regValue r s := by
  cases r' <;> cases r <;> rfl

theorem storeReg_reserved {offset : Nat} (h : ∀ r, offset ≠ regOffset r) (v : Word) (s : State) :
    storeReg offset v s = s := by
  simp [storeReg, regAt_eq_none h]

theorem regValue_storeReg (offset : Nat) (r : Reg) (v : Word) (s : State) :
    regValue r (storeReg offset v s) = if offset = regOffset r ∧ r ∈ storedRegs then v else regValue r s := by
  by_cases h : ∀ r, offset ≠ regOffset r
  · rw [storeReg_reserved h, if_neg fun hr => h r hr.1]
  · push Not at h
    obtain ⟨r', rfl⟩ := h
    simp only [regValue_storeReg_regOffset, regOffset_inj]

/-! ### Steps of the host -/

/-- The step of an idle block with a well-formed read waiting (R79). -/
theorem step_idle_read {s : State} {offset : Nat} {rest : List HostAct} (hidle : s.ctl.busy = false)
    (hq : s.host.queue = .read 32 offset :: rest) (hw : accessWellFormed 32 offset = true) :
    step s = .next (idleRead offset { foresee s with host.queue := rest }) := by
  simp [step, hostStep, hidle, serveIdle, hq, HostAct.wellFormed, hw]

/-- The step of an idle block with a well-formed write waiting (R21, R110). -/
theorem step_idle_write {s : State} {offset : Nat} {v : Word} {rest : List HostAct} (hidle : s.ctl.busy = false)
    (hq : s.host.queue = .write 32 offset v :: rest) (hw : accessWellFormed 32 offset = true) :
    step s =
      if offset = regOffset .cmd then startCommand v { foresee s with host.queue := rest }
      else .next (storeReg offset v { foresee s with host.queue := rest }) := by
  simp [step, hostStep, hidle, serveIdle, hq, HostAct.wellFormed, hw]

/-- The step of a busy block with a well-formed read waiting (R27). -/
theorem step_busy_read {s : State} {offset : Nat} {rest : List HostAct} (hbusy : s.ctl.busy = true)
    (hq : s.host.queue = .read 32 offset :: rest) (hw : accessWellFormed 32 offset = true) :
    step s = .next (busyRead offset { foresee s with host.queue := rest }) := by
  simp [step, hostStep, hbusy, serveBusy, hq, HostAct.wellFormed, hw]

/-- Settles O8: `idleRead` records the value of its offset, and `foresee` changes no register. -/
theorem idleReadReturnsTheRegister : Obligations.IdleReadReturnsTheRegister := by
  intro s offset rest hidle hq hw
  refine ⟨idleValue offset { foresee s with host.queue := rest }, step_idle_read hidle hq hw, ?_, ?_⟩
  · rintro r rfl
    rw [idleValue_regOffset]
    exact regValue_outside r s _ _
  · exact fun h => idleValue_reserved h _

/-- Settles O9: a write that starts no command is `storeReg`, which touches the registers alone. -/
theorem idleWriteStoresOnlyItsRegister : Obligations.IdleWriteStoresOnlyItsRegister := by
  intro s offset v rest hidle hq hw hcmd
  refine ⟨storeReg offset v { foresee s with host.queue := rest }, ?_, storeReg_eq offset v _, fun r => ?_⟩
  · exact (step_idle_write hidle hq hw).trans (if_neg hcmd)
  · rw [regValue_storeReg]
    exact congrArg (ite _ v) (regValue_outside r s _ _)

/-- Settles O10: the write is taken from the queue, and that is all. -/
theorem busyWriteIsIgnored : Obligations.BusyWriteIsIgnored := by
  intro s offset v rest hbusy hq hw
  simp [step, hostStep, hbusy, serveBusy, hq, HostAct.wellFormed, hw]

/-- What a read of a register records while BUSY = 1 (R27). -/
theorem busyRead_saw (r : Reg) (s : State) :
    (busyRead (regOffset r) s).host.saw =
      s.host.saw ++ [.register (regOffset r) (busyValue (Config.busyDraw s.host.draws) r s)] := by
  simp only [busyRead, regAt_regOffset]
  split <;> rfl

theorem busyValue_status (draw : Word) (s : State) :
    busyValue draw .status s =
      statusWord s.ctl.busy s.ctl.done s.ctl.err (draw.extractLsb' 8 3) (draw.extractLsb' 12 3) := rfl

theorem busyValue_stored (draw : Word) {r : Reg} (s : State) (h : drawnWhileBusy r = false) :
    busyValue draw r s = regValue r s := by
  simp [busyValue, h]

/-- Settles O11: STATUS has its exact fields whatever is drawn for the others, and a register that R27 does not name is
not drawn. -/
theorem busyReadIsExactOrDrawn : Obligations.BusyReadIsExactOrDrawn := by
  intro s r rest hbusy hq
  let popped := { foresee s with host.queue := rest }
  obtain ⟨hqueue, hslots⟩ := busyRead_queue (regOffset r) popped
  refine ⟨busyRead (regOffset r) popped, busyValue (Config.busyDraw s.host.draws) r popped,
    step_busy_read hbusy hq (regOffset_wellFormed r), busyRead_eq (regOffset r) popped, hqueue, hslots,
    busyRead_saw r popped, ?_, fun hr => ?_⟩
  · rintro rfl
    obtain ⟨hb, hd, -, he, -⟩ := statusWord_fields s.ctl.busy s.ctl.done s.ctl.err
      ((Config.busyDraw s.host.draws).extractLsb' 8 3) ((Config.busyDraw s.host.draws).extractLsb' 12 3)
    exact ⟨hb.trans hbusy, hd, he⟩
  · have hexact : drawnWhileBusy r = false := by
      revert hr
      cases r <;> decide
    rw [busyValue_stored _ _ hexact]
    exact regValue_outside r s _ _

/-! ### The placement of a command word -/

/-- Every command's word decodes to it (R101, R103). -/
@[simp] theorem decode_encode (i : Instr) : decode (encode i) = .ok i := by
  cases i <;> decide

theorem withFetchWord_encode (i : Instr) (s : State) :
    s.withFetchWord 32 (encode i).toNat = placeCommand (encode i) s := by
  have hlt := (encode i).isLt
  rw [State.withFetchWord, Nat.mod_eq_of_lt hlt, BitVec.ofNat_toNat, BitVec.setWidth_eq]

/-- Settles O5: the placed write is at the queue's head, and it touches no plane cell, so that it races with nothing. -/
theorem placedWordRunsNext : Obligations.PlacedWordRunsNext := by
  intro s i
  let placed := placeCommand (encode i) s
  refine ⟨(foresee placed).ports.raced, ?_, fun h => ?_, fun h => ?_⟩
  · rw [withFetchWord_encode, step_idle_write (s := placed) (v := encode i) (offset := regOffset .cmd) rfl rfl rfl,
      if_pos rfl, startCommand, decode_encode]
    rfl
  · have hraced : placed.ports.raced = true := h
    simp [foresee, hraced]
  · have hany : placed.host.queue.any touchesPlane = false := h
    simp only [foresee, hany, Bool.false_and, Bool.or_false]
    rfl

end Sys2Proof.Machine
end

section
/-! SUPPORT and proofs for the statements about access to the ports and the register block: refused host accesses (O12) and
ports that never answer (O48). -/

namespace Sys2Proof.Machine

open Sys2Proof.Safety

/-! ### Refused host accesses -/

theorem accessWellFormed_eq_false {width offset : Nat} (h : width ≠ 32 ∨ offset % 4 ≠ 0 ∨ offset ≥ 0x100) :
    accessWellFormed width offset = false := by
  simp only [accessWellFormed, Bool.and_eq_false_iff, beq_eq_false_iff_ne, decide_eq_false_iff_not]
  omega

/-- An action that has no meaning has no step, busy or idle (R82). -/
theorem step_refused {s : State} {act : HostAct} {rest : List HostAct} (hq : s.host.queue = act :: rest)
    (hw : act.wellFormed = false) : step s = .refused (.hostAccess act) := by
  unfold step hostStep
  split
  · simp [serveBusy, hq, hw]
  · simp [serveIdle, hq, hw]

/-- Settles O12: neither a read nor a write of such a width or offset is well formed. -/
theorem otherHostAccessesAreRefused : Obligations.OtherHostAccessesAreRefused := by
  intro s width offset v act rest hact hform hq
  have hw := accessWellFormed_eq_false hform
  obtain rfl | rfl := hact
  · exact step_refused hq hw
  · exact step_refused hq hw

/-! ### Ports that never answer -/

/-- With no access of another agent waiting, the look-ahead finds no race (R88). -/
theorem foresee_untouched {s : State} (h : s.host.queue.any touchesPlane = false) : foresee s = s := by
  simp [foresee, h]

theorem step_untouched {s : State} (h : s.host.queue.any touchesPlane = false) : step s = hostStep s :=
  congrArg hostStep (foresee_untouched h)

/-- A busy block that no outside action comes to stays as it is (R70). -/
theorem step_waiting {s : State} (hbusy : s.ctl.busy = true) (hq : s.host.queue = []) : step s = .next s := by
  rw [step_untouched (by rw [hq]; rfl)]
  simp [hostStep, hbusy, serveBusy, hq]

/-- BS_FLUSH with no bit pending is its FLUSH (R132, R141). -/
theorem exec_bsFlush_empty {s : State} (h : s.writer.wbits = 0) :
    exec .bsFlush s =
      finish ((sinkFlush s).bind fun accepted u => if accepted || !true then .ok () u else .raised .ioError u) := by
  rw [exec_eq_finish, commandRule, flushWriter, flushPad, if_neg (by omega), Res.bind_ok]

/-- Settles O48: the request is left outstanding, and a busy block with an empty queue does not move. -/
theorem silentPortLeavesTheBlockWaiting : Obligations.SilentPortLeavesTheBlockWaiting := by
  refine ⟨fun s hquiet hbusy hq => ⟨?sink, ?fetch, ?read, ?write⟩, fun s more hquiet hbusy hq hw hs => ?flush⟩
  case sink =>
    intro _ req hc _
    exact ⟨_, sinkRequest_silent req hquiet hc, rfl, rfl, rfl, step_waiting hbusy hq⟩
  case fetch =>
    intro hc
    exact ⟨_, sourceFetch_silent hquiet hc, rfl, rfl, rfl, step_waiting hbusy hq⟩
  case read =>
    intro a cell hc
    exact ⟨_, memRead_silent a hquiet hc, rfl, rfl, rfl, rfl, step_waiting hbusy hq⟩
  case write =>
    intro a v cell hc
    exact ⟨_, memWrite_silent a v hquiet hc, rfl, rfl, rfl, rfl, step_waiting hbusy hq⟩
  case flush =>
    have hc : s.ports.sink.next = .silent := by rw [Port.next, hs]
    refine ⟨{ s with ports.sink := s.ports.sink.rest, ports.pending := some .flush }, ?_, rfl, rfl, rfl,
      step_waiting hbusy hq⟩
    rw [exec_bsFlush_empty hw, sinkFlush, sinkRequest_silent .flush hquiet hc]
    rfl

end Sys2Proof.Machine
end

section
/-! SUPPORT and proofs for the statements about other agents' accesses to plane memory: a run that is a race, and the
look-ahead that knows it from its start (O13). -/

namespace Sys2Proof.Machine

open Sys2Proof.Safety

/-! ### Accesses of another agent while a command runs -/

/-- The search over the view's rows and columns finds exactly the addresses of its pixels (R220, R221). -/
theorem viewHas_iff (a : Word) (s : State) :
    viewHas a s = true ↔ ∃ row col, InPlane s row col ∧ addrNat row col s = a.toNat := by
  simp only [viewHas, List.any_eq_true, List.mem_range, beq_iff_eq, InPlane, addrNat]
  constructor
  · rintro ⟨row, hrow, col, hcol, h⟩
    exact ⟨row, col, ⟨hrow, hcol⟩, h⟩
  · rintro ⟨row, col, ⟨hrow, hcol⟩, h⟩
    exact ⟨row, hrow, col, hcol, h⟩

/-- A run is a race if it was one or if the access is to a cell of the view (R88). -/
theorem raced_or_viewHas_iff (a : Word) (s : State) :
    (s.ports.raced || viewHas a s) = true ↔
      s.ports.raced = true ∨ ∃ row col, InPlane s row col ∧ addrNat row col s = a.toNat := by
  rw [Bool.or_eq_true, viewHas_iff]

theorem pokeRaces_planeCommand {s : State} (a : Word) (h : s.ctl.op = 0x9#4 ∨ s.ctl.op = 0xA#4) :
    pokeRaces true a s = viewHas a s := by
  obtain h | h := h <;> simp [pokeRaces, h]

theorem peekRaces_planeDec {s : State} (a : Word) (h : s.ctl.op = 0xA#4) : peekRaces true a s = viewHas a s := by
  simp [peekRaces, h]

/-- Another agent's write lands (R88, R324). -/
theorem serveBusy_poke (uses : Bool) {s : State} {a : Word} {v : Sample} {rest : List HostAct}
    (hq : s.host.queue = .poke a v :: rest) :
    serveBusy uses s = .ok (pokeCell a v (markRace (pokeRaces uses a s) { s with host.queue := rest })) := by
  simp [serveBusy, hq, HostAct.wellFormed]

/-- Another agent's read lands (R88). -/
theorem serveBusy_peek (uses : Bool) {s : State} {a : Word} {rest : List HostAct} (hq : s.host.queue = .peek a :: rest) :
    serveBusy uses s = .ok (peekCell a (markRace (peekRaces uses a s) { s with host.queue := rest })) := by
  simp [serveBusy, hq, HostAct.wellFormed]

/-- Another agent's write that lands at the end of a command that used no cell is no race (R88, R107, R284). -/
theorem endCommand_poke_unused {e : ErrCode} (he : e.afterChecks = false) {s : State} {a : Word} {v : Sample}
    {rest : List HostAct} {slots : List Nat} (hs : s.host.slots = 1 :: slots) (hq : s.host.queue = .poke a v :: rest) :
    endCommand e s = .next (State.complete e
      { s with
        host.slots := slots
        host.queue := rest
        ports.cells := Memory.write a.toNat v s.ports.cells
        ports.held := releaseCell a.toNat s.ports.held }) := by
  have hland : yieldHost false s =
      .ok (pokeCell a v (markRace (pokeRaces false a s) { s with host.slots := slots, host.queue := rest })) := by
    rw [yieldHost, hs]
    simp only [serveMany]
    rw [serveBusy_poke false (s := { s with host.slots := slots }) hq]
    rfl
  rw [endCommand, he, hland]
  simp [pokeCell, markRace, pokeRaces]

/-! ### The look-ahead -/

theorem runRaces_of_raced (n : Nat) {s : State} (h : s.ports.raced = true) : runRaces n s = true := by
  cases n with
  | zero => exact h
  | succ n => simp [runRaces, h]

/-- A race within `n` steps is one within more. -/
theorem runRaces_mono {m n : Nat} (hmn : m ≤ n) {s : State} (h : runRaces m s = true) : runRaces n s = true := by
  induction m generalizing n s with
  | zero => exact runRaces_of_raced n h
  | succ m ih =>
    obtain ⟨n, rfl⟩ := Nat.exists_eq_succ_of_ne_zero (by omega : n ≠ 0)
    unfold runRaces at h ⊢
    rw [Bool.or_eq_true] at h ⊢
    refine h.imp_right fun h => ?_
    split at h
    · exact ih (by omega) h
    · cases h
    · cases h

/-- A step into a raced state is a race within one step. -/
theorem runRaces_of_hostStep {n : Nat} (hn : n ≠ 0) {s t : State} (hs : hostStep s = .next t) (ht : t.ports.raced = true) :
    runRaces n s = true := by
  obtain ⟨n, rfl⟩ := Nat.exists_eq_succ_of_ne_zero hn
  simp [runRaces, hs, runRaces_of_raced n ht]

/-- A run that the look-ahead finds to be a race is one from this step on (R88). -/
theorem step_of_foreseen {s : State} (h : (foresee s).ports.raced = true) :
    step s = hostStep { s with ports.raced := true } := by
  rw [step, ← h]
  rfl

/-- The look-ahead changes `ports.raced` alone. -/
theorem foresee_eq_self {s : State} (h : (foresee s).ports.raced = s.ports.raced) : foresee s = s := by
  have hraced : foresee s = { s with ports.raced := (foresee s).ports.raced } := rfl
  rw [hraced, h]

/-- What the look-ahead finds when another agent's access is waiting. -/
theorem foresee_raced_of_touched {s : State} (h : s.host.queue.any touchesPlane = true) :
    (foresee s).ports.raced = (s.ports.raced || runRaces s.host.queue.length s) := by
  simp [foresee, h]

/-- A step that leaves a raced run was foreseen to be a race: a run that no waiting action touches plane memory in stays
as it was, and in another the look-ahead meets the state after this step. -/
theorem foreseen_of_raced_after {s t : State} (hinv : Inv s) (hs : step s = .next t) (ht : t.ports.raced = true) :
    (foresee s).ports.raced = true := by
  by_contra hcalm
  rw [Bool.not_eq_true] at hcalm
  have hraced : s.ports.raced = false := (Bool.or_eq_false_iff.mp hcalm).1
  rw [step, foresee_eq_self (hcalm.trans hraced.symm)] at hs
  by_cases htouch : s.host.queue.any touchesPlane = true
  · rw [foresee_raced_of_touched htouch, hraced, Bool.false_or] at hcalm
    have hlen : s.host.queue.length ≠ 0 := by
      intro h0
      rw [List.length_eq_zero_iff.mp h0] at htouch
      cases htouch
    rw [runRaces_of_hostStep hlen hs ht] at hcalm
    cases hcalm
  · rw [Bool.not_eq_true] at htouch
    have := (hostStep_keeps (calm := True) hinv (fun _ => ⟨htouch, hraced⟩) t hs).2 trivial
    rw [ht] at this
    cases this

/-- Settles O13: `serveBusy` marks a race exactly for a cell of the view of a command past its check, and `foresee` marks
the run before its first step. -/
theorem foreignAccessToTheCommandsCellsIsARace : Obligations.ForeignAccessToTheCommandsCellsIsARace := by
  refine ⟨?poke, ?peek, ?unused, ?after, ?within, ?untouched, ?draw⟩
  case poke =>
    intro s a v rest hop hq
    refine ⟨s.ports.raced || viewHas a s, raced_or_viewHas_iff a s, ?_⟩
    rw [serveBusy_poke true hq, pokeRaces_planeCommand a hop]
    rfl
  case peek =>
    intro s a rest hop hq
    refine ⟨s.ports.raced || viewHas a s, raced_or_viewHas_iff a s, ?_⟩
    rw [serveBusy_peek true hq, peekRaces_planeDec a hop]
    rfl
  case unused =>
    intro s a v rest slots hs hq
    refine ⟨endCommand_poke_unused rfl hs hq, fun hw => ?_, fun hr => ?_⟩
    · rw [exec_eq_finish, commandRule, if_pos hw]
      exact endCommand_poke_unused rfl hs hq
    · rw [exec_eq_finish, commandRule, if_pos hr]
      exact endCommand_poke_unused rfl hs hq
  case after => exact fun s t hinv hs ht => step_of_foreseen (foreseen_of_raced_after hinv hs ht)
  case within =>
    intro s n htouch hn hraces
    refine step_of_foreseen ?_
    rw [foresee_raced_of_touched htouch, runRaces_mono hn hraces, Bool.or_true]
  case untouched => exact fun s h => step_untouched h
  case draw =>
    intro s a hquiet hraced hc
    refine ⟨_, memRead_data a hquiet (by simp [hc, PlaneChoice.readValue, seen, hraced]), hraced, ?_, rfl⟩
    show s.ports.raceDraws + s.ports.raced.toNat = _
    rw [hraced]
    rfl

end Sys2Proof.Machine
end

section
/-! SUPPORT and proofs for the statements about the block's own accesses to plane memory: a read after a write (O50), and
MEM_ERROR in a pixel step (O53). -/

namespace Sys2Proof.Machine

open Sys2Proof.Safety

/-! ### A read after a write -/

/-- A WRITE that a serving memory answers: memory serves on (R73). -/
theorem memWrite_serving (a : Word) (v : Sample) {s : State} (hq : Quiet s) (hp : PlaneServes s) :
    ∃ t, memWrite a v s = .ok () t ∧ Quiet t ∧ PlaneServes t ∧ t.ports.cells = Memory.write a.toNat v s.ports.cells ∧
      t.ports.log = s.ports.log ++ [{ request := .planeWrite a v, answer := .ok }] := by
  obtain ⟨hnext, hrest⟩ := PlaneServes.next hp
  exact ⟨_, memWrite_served a v hq hnext, hq, ⟨hrest, hp.2⟩, rfl, rfl⟩

/-- A WRITE answered OK makes its cell hold the value, as the block's (R73, R86). -/
theorem memWrite_eq_ok {a : Word} {v : Sample} {s t : State} (hq : Quiet s) (h : memWrite a v s = .ok () t) :
    t.ports.cells = Memory.write a.toNat v s.ports.cells ∧ t.ports.held = holdCell a.toNat s.ports.held := by
  cases hc : s.ports.plane.next with
  | serve =>
    rw [memWrite_ok a v hq (by rw [hc]; rfl), hc] at h
    cases h
    exact ⟨rfl, rfl⟩
  | override w =>
    rw [memWrite_ok a v hq (by rw [hc]; rfl), hc] at h
    cases h
    exact ⟨rfl, rfl⟩
  | refuse c =>
    rw [memWrite_refused a v hq hc] at h
    cases h
  | silent c =>
    rw [memWrite_silent a v hq hc] at h
    cases h

/-- A READ answered DATA returns what the script's choice gives, and changes no cell (R72). -/
theorem memRead_eq_ok {a : Word} {x : Sample} {s u : State} (hq : Quiet s) (h : memRead a s = .ok x u) :
    s.ports.plane.next.readValue a s = some x ∧ u.ports.cells = s.ports.cells ∧ u.ports.held = s.ports.held := by
  cases hv : s.ports.plane.next.readValue a s with
  | some y =>
    rw [memRead_data a hq hv] at h
    cases h
    exact ⟨rfl, rfl, rfl⟩
  | none =>
    cases hc : s.ports.plane.next with
    | serve => rw [hc] at hv; cases hv
    | override w => rw [hc] at hv; cases hv
    | refuse c =>
      rw [memRead_refused a hq hc] at h
      cases h
    | silent c =>
      rw [memRead_silent a hq hc] at h
      cases h

/-- R86: in a run that is no race, a DATA answer for a cell that holds what the block wrote last is that value. -/
theorem readValue_held {c : PlaneChoice} {a : Word} {x : Sample} {s : State} (hr : s.ports.raced = false)
    (hheld : a.toNat ∈ s.ports.held) (h : c.readValue a s = some x) : x = Memory.read a.toNat s.ports.cells := by
  cases c with
  | serve =>
    cases h
    exact seen_calm _ hr
  | override w =>
    cases h
    rw [seen_calm _ hr, overridden, if_pos (by simpa using hheld)]
  | refuse c => cases h
  | silent c => cases h

/-- Settles O50: `Memory.write` sets its cell alone, `holdCell` adds it alone, and `overridden` keeps to what is held. -/
theorem memReadAfterMemWrite : Obligations.MemReadAfterMemWrite := by
  refine ⟨?served, ?written, ?held⟩
  case served =>
    intro s a b v hq hserves hwf
    obtain ⟨t, hw, hqt, hservesT, hcells, hlog⟩ := memWrite_serving a v hq hserves
    have hr := memRead_served b hqt (PlaneServes.next hservesT).1 hservesT.2
    refine ⟨t, _, _, hw, hr, ?_, ?_, ?_⟩
    · rw [hcells]
      split
      · next h =>
        subst h
        exact Memory.read_write_same _ _ _
      · next h => exact Memory.read_write_other (mt BitVec.eq_of_toNat_eq h) _ _
    · show Memory.wf t.ports.cells = true
      rw [hcells]
      exact Memory.wf_write _ _ hwf
    · simp [answered, hlog]
  case written =>
    intro s t a v hq hw
    obtain ⟨hcells, hheld⟩ := memWrite_eq_ok hq hw
    rw [hcells, hheld]
    refine ⟨mem_holdCell.mpr (.inl rfl), Memory.read_write_same _ _ _, fun b hb => ?_⟩
    have hne : b.toNat ≠ a.toNat := mt BitVec.eq_of_toNat_eq hb
    exact ⟨mem_holdCell.trans (or_iff_right hne), Memory.read_write_other hne _ _⟩
  case held =>
    intro s u a x hq hraced hheld hr
    obtain ⟨hv, hcells, hkept⟩ := memRead_eq_ok hq hr
    exact ⟨readValue_held hraced hheld hv, hcells, hkept⟩

/-! ### MEM_ERROR in a pixel step -/

/-- An address that does not fit (R220). -/
theorem addr_overflows {row col : Nat} {s : State} (h : 2 ^ 32 ≤ addrNat row col s) :
    addr row col s = .raised .memError s := by
  rw [addr, if_pos (by omega)]

theorem hasAboveRight_iff (s : State) :
    hasAboveRight s = true ↔ s.scan.row ≠ 0 ∧ s.scan.col.toNat + 1 < s.regs.pwidth.toNat := by
  have hrow : 0 < s.scan.row.toNat ↔ s.scan.row ≠ 0 := by
    rw [Nat.pos_iff_ne_zero, ne_eq, ne_eq, ← BitVec.toNat_inj]
    rfl
  simp only [hasAboveRight, Bool.and_eq_true, decide_eq_true_eq, hrow]

/-- The state of a pixel step once its context is there, at a pixel with no above-right sample (R225). -/
def edgeContext (s : State) : State := predict { markPosition s with scan.d := 0 }

theorem loadAboveRight_edge {s : State} (h : hasAboveRight s = false) :
    loadAboveRight (markPosition s) = .ok () { markPosition s with scan.d := 0 } := by
  have hmark : hasAboveRight (markPosition s) = false := h
  simp [loadAboveRight, hmark]

@[simp] theorem addrNat_edgeContext (row col : Nat) (s : State) : addrNat row col (edgeContext s) = addrNat row col s := rfl

/-- The encode step from its context on (R227). -/
theorem encodePixel_edge {s : State} (h : hasAboveRight s = false) :
    encodePixel s = (addr s.scan.row.toNat s.scan.col.toNat (edgeContext s)).bind fun a u =>
      (memRead a u).bind fun x v =>
        (riceEncode v.scan.k (residual x v.scan.pred) v).bind fun _ w => .ok () (roll x w) := by
  rw [encodePixel, loadAboveRight_edge h, Res.bind_ok]
  rfl

/-- The decode step from its context on (R228). -/
theorem decodePixel_edge {s : State} (h : hasAboveRight s = false) :
    decodePixel s = (riceDecode (computeK s.scan.a s.scan.b s.scan.c 0) (edgeContext s)).bind fun res u =>
      (addr u.scan.row.toNat u.scan.col.toNat u).bind fun a v =>
        (memWrite a (reconstruct u.scan.pred res) v).bind fun _ w => .ok () (roll (reconstruct u.scan.pred res) w) := by
  rw [decodePixel, loadAboveRight_edge h, Res.bind_ok]
  rfl

/-- The encode step when its own address does not fit (R220, R227). -/
theorem encodePixel_overflows {s : State} (h : hasAboveRight s = false)
    (hn : 2 ^ 32 ≤ addrNat s.scan.row.toNat s.scan.col.toNat s) :
    encodePixel s = .raised .memError (edgeContext s) := by
  rw [encodePixel_edge h, addr_overflows (by simpa using hn), Res.bind_raised]

/-- The encode step when its READ is refused (R72, R227). -/
theorem encodePixel_refused {s : State} {cell : Option Sample} (hq : Quiet s) (h : hasAboveRight s = false)
    (hn : addrNat s.scan.row.toNat s.scan.col.toNat s < 2 ^ 32) (hc : s.ports.plane.next = .refuse cell) :
    encodePixel s = .raised .memError
      (answered (.planeRead (BitVec.ofNat 32 (addrNat s.scan.row.toNat s.scan.col.toNat s))) .error
        { edgeContext s with ports.plane := s.ports.plane.rest }) := by
  rw [encodePixel_edge h, addr_fits (by simpa using hn), Res.bind_ok, memRead_refused (s := edgeContext s) _ hq hc,
    Res.bind_raised]
  rfl

/-- RiceDecode (R175) takes the codeword of a residual of the fold's domain, by FETCH requests alone. -/
theorem riceDecode_codeword {k : Nat} (hk : k ≤ 31) {x : Word} (hx : InFoldDomain x) {s : State} {rest : List Bool}
    (hq : Quiet s) (hr : s.reader.rbits ≤ 7) (hb : readableBits s = codeword k x ++ rest) :
    ∃ t q n, riceDecode k s = .ok x t ∧ ReaderTook { s with word.q := q } t n ∧ readableBits t = rest ∧
      LogGrew (fun e => e.request = .fetch) s t := by
  obtain ⟨t, ht, htook, hrest⟩ := riceDecode_took k (quotient k x).toNat hq hr hk
    (r := valueBits (remainder k x) k) (rest := rest) (by rw [hb]; simp [codeword]) (by simp)
  rw [unfold_codeword hk hx] at ht
  have hwithin := riceDecode_within k hq
  rw [ht] at hwithin
  exact ⟨t, _, _, ht, htook, hrest, SourceSide.fetches hwithin⟩

/-- The decode step at a pixel with no above-right sample once it has taken the codeword of `x` (R228): `u` is where it
stands, with the pixel's address and its WRITE to come. -/
structure CodewordTaken (s : State) (x : Word) (rest : List Bool) (u : State) : Prop where
  step : decodePixel s = (addr s.scan.row.toNat s.scan.col.toNat u).bind fun a v =>
    (memWrite a (reconstruct (med s.scan.a s.scan.b s.scan.c) x) v).bind fun _ w =>
      .ok () (roll (reconstruct (med s.scan.a s.scan.b s.scan.c) x) w)
  bits : readableBits u = rest
  host : u.host = s.host
  regs : u.regs = { s.regs with posRow := s.scan.row, posCol := s.scan.col, inBytes := u.regs.inBytes }
  plane : u.ports.plane = s.ports.plane
  cells : u.ports.cells = s.ports.cells
  fetches : LogGrew (fun e => e.request = .fetch) s u

theorem decodePixel_codeword {s : State} (hq : Quiet s) (h : hasAboveRight s = false) (hr : s.reader.rbits ≤ 7) {x : Word}
    (hx : InFoldDomain x) {rest : List Bool}
    (hb : readableBits s = codeword (computeK s.scan.a s.scan.b s.scan.c 0) x ++ rest) :
    ∃ u, CodewordTaken s x rest u := by
  have hk : computeK s.scan.a s.scan.b s.scan.c 0 ≤ 31 := (computeK_le _ _ _ _).trans (by omega)
  obtain ⟨u, q, n, hd, htook, hrest, hlog⟩ := riceDecode_codeword hk hx (s := edgeContext s) hq hr hb
  have hscan : u.scan = (edgeContext s).scan := htook.scan
  refine ⟨u, ?_, hrest, htook.host, htook.regs, htook.plane, htook.cells, hlog⟩
  rw [decodePixel_edge h, hd, Res.bind_ok, hscan]
  rfl

theorem CodewordTaken.addrNat {s u : State} {x : Word} {rest : List Bool} (h : CodewordTaken s x rest u) (row col : Nat) :
    Machine.addrNat row col u = Machine.addrNat row col s := by
  rw [Machine.addrNat, h.regs]
  rfl

/-- The decode step when its own address does not fit (R220, R228). -/
theorem CodewordTaken.overflows {s u : State} {x : Word} {rest : List Bool} (h : CodewordTaken s x rest u)
    (hn : 2 ^ 32 ≤ Machine.addrNat s.scan.row.toNat s.scan.col.toNat s) : decodePixel s = .raised .memError u := by
  rw [h.step, addr_overflows (by rw [h.addrNat]; exact hn), Res.bind_raised]

/-- The decode step when its WRITE is refused (R73, R228, R287). -/
theorem CodewordTaken.refused {s u : State} {x : Word} {rest : List Bool} (h : CodewordTaken s x rest u) (hq : Quiet s)
    {cell : Option Sample} (hn : Machine.addrNat s.scan.row.toNat s.scan.col.toNat s < 2 ^ 32)
    (hc : s.ports.plane.next = .refuse cell) :
    decodePixel s = .raised .memError
      (answered
        (.planeWrite (BitVec.ofNat 32 (Machine.addrNat s.scan.row.toNat s.scan.col.toNat s))
          (reconstruct (med s.scan.a s.scan.b s.scan.c) x))
        .error
        { u with
          ports.plane := u.ports.plane.rest
          ports.cells := Memory.writeOpt (Machine.addrNat s.scan.row.toNat s.scan.col.toNat s) cell u.ports.cells
          ports.held := releaseCell (Machine.addrNat s.scan.row.toNat s.scan.col.toNat s) u.ports.held }) := by
  have hquiet : Quiet u := by rw [Quiet, h.host]; exact hq
  have hfit : Machine.addrNat s.scan.row.toNat s.scan.col.toNat u < 2 ^ 32 := by rw [h.addrNat]; exact hn
  rw [h.step, addr_fits hfit, Res.bind_ok, memWrite_refused _ _ hquiet (h.plane ▸ hc), Res.bind_raised, h.addrNat,
    BitVec.toNat_ofNat, Nat.mod_eq_of_lt hn]

/-- A record that grew by FETCH requests alone has the same plane transactions. -/
theorem LogGrew.planeEvents {s t : State} (h : LogGrew (fun e => e.request = .fetch) s t) :
    (t.ports.log.filter fun e => onPlane e.request) = s.ports.log.filter fun e => onPlane e.request := by
  obtain ⟨fetches, hlog, hfetch⟩ := h
  have hnone : (fetches.filter fun e => onPlane e.request) = [] := by
    rw [List.filter_eq_nil_iff]
    intro e he
    rw [hfetch e he]
    decide
  rw [hlog, List.filter_append, hnone, List.append_nil]

/-- The above-right sample's address does not fit (R220, R225). -/
theorem loadAboveRight_overflows {s : State} (h : hasAboveRight s = true)
    (hn : 2 ^ 32 ≤ addrNat (s.scan.row.toNat - 1) (s.scan.col.toNat + 1) s) :
    loadAboveRight s = .raised .memError s := by
  rw [loadAboveRight, if_pos h, addr_overflows hn, Res.bind_raised]

/-- The above-right sample's READ is refused (R72, R225). -/
theorem loadAboveRight_refused {s : State} {cell : Option Sample} (hq : Quiet s) (h : hasAboveRight s = true)
    (hn : addrNat (s.scan.row.toNat - 1) (s.scan.col.toNat + 1) s < 2 ^ 32) (hc : s.ports.plane.next = .refuse cell) :
    loadAboveRight s = .raised .memError
      (answered (.planeRead (BitVec.ofNat 32 (addrNat (s.scan.row.toNat - 1) (s.scan.col.toNat + 1) s))) .error
        { s with ports.plane := s.ports.plane.rest }) := by
  rw [loadAboveRight, if_pos h, addr_fits hn, Res.bind_ok, memRead_refused _ hq hc, Res.bind_raised]

/-- A pixel step whose context load raises ends with it (R225, R281). -/
theorem pixel_raised {pixel : State → Res Unit} (hp : pixel = encodePixel ∨ pixel = decodePixel) {s t : State}
    {e : ErrCode} (h : loadAboveRight (markPosition s) = .raised e t) : pixel s = .raised e t := by
  obtain rfl | rfl := hp
  · rw [encodePixel, h, Res.bind_raised]
  · rw [decodePixel, h, Res.bind_raised]

/-- Settles O53: the step marks POS first, `addr` raises before it sends, and a refusal is the last thing in the record. -/
theorem overflowingAddressSendsNothing : Obligations.OverflowingAddressSendsNothing := by
  refine ⟨fun s hq hedge => ?own, fun s pixel hq hp hrow hcol => ?aboveRight⟩
  case own =>
    have hnone : hasAboveRight s = false := by
      rw [← Bool.not_eq_true, hasAboveRight_iff]
      rintro ⟨hrow, hcol⟩
      exact hedge.elim hrow hcol.not_ge
    refine ⟨fun hn => ?_, fun cell hn hc => ?_, fun x rest hr hx hb => ?_⟩
    · exact ⟨_, encodePixel_overflows hnone hn, rfl, rfl, rfl⟩
    · exact ⟨_, encodePixel_refused hq hnone hn hc, rfl, rfl, rfl, rfl⟩
    · obtain ⟨u, htaken⟩ := decodePixel_codeword hq hnone hr hx hb
      refine ⟨fun hn => ?_, fun cell hn hc => ?_⟩
      · exact ⟨u, htaken.overflows hn, htaken.bits, htaken.plane, htaken.cells, htaken.fetches.planeEvents, htaken.regs⟩
      · obtain ⟨fetches, hlog, hfetch⟩ := htaken.fetches
        exact ⟨_, fetches, htaken.refused hq hn hc, htaken.bits, congrArg (· ++ _) hlog, hfetch,
          congrArg (Memory.writeOpt _ cell) htaken.cells, htaken.regs⟩
  case aboveRight =>
    have habove : hasAboveRight (markPosition s) = true := (hasAboveRight_iff s).mpr ⟨hrow, hcol⟩
    refine ⟨fun hn => ?_, fun cell hn hc => ?_⟩
    · exact ⟨_, pixel_raised hp (loadAboveRight_overflows habove hn), rfl, rfl, rfl, rfl⟩
    · exact ⟨_, pixel_raised hp (loadAboveRight_refused (s := markPosition s) hq habove hn hc), rfl, rfl, rfl, rfl, rfl⟩

end Sys2Proof.Machine
end

section
/-! SUPPORT and proofs for the statements about encoding and dispatch: the decoder is the encoder's inverse on the legal words
and rejects every other one (O1, O2, O3), and what a CMD write does while the block is idle (O4, O6). -/

namespace Sys2Proof.Machine

open Sys2Proof.Safety

/-! ### The command map -/

/-- An OPCODE that names a command is that command's (R103). -/
theorem eq_opcodeOf_of_commandOf {op : BitVec 4} {i : Instr} (h : commandOf op = .ok i) : op = opcodeOf i := by
  unfold commandOf at h
  split at h <;> cases h <;> exact BitVec.eq_of_toNat_eq ‹_›

/-- Every OPCODE up to 0xA names a command (R103). -/
theorem exists_commandOf {op : BitVec 4} (h : op.toNat ≤ 0xA) : ∃ i, commandOf op = .ok i := by
  unfold commandOf
  interval_cases op.toNat <;> exact ⟨_, rfl⟩

/-! ### The decoder -/

/-- A word is its two fields (R100). -/
theorem reservedField_append_opcodeField (w : Word) : reservedField w ++ opcodeField w = w :=
  BitVec.extractLsb'_append_extractLsb' (w := 28) (len := 4)

theorem decode_eq_commandOf {w : Word} (h : reservedField w = 0#28) : decode w = commandOf (opcodeField w) := if_pos h

/-- A word with a bit of the reserved field set is rejected for it, whatever its OPCODE (R102). -/
theorem decode_reservedBits {w : Word} (h : reservedField w ≠ 0#28) : decode w = .error .reservedBits := if_neg h

/-- A word that decodes to a command is that command's encoding (R101, R103). -/
theorem eq_encode_of_decode {w : Word} {i : Instr} (h : decode w = .ok i) : w = encode i := by
  by_cases hr : reservedField w = 0#28
  · rw [decode_eq_commandOf hr] at h
    rw [encode, ← eq_opcodeOf_of_commandOf h, ← hr, reservedField_append_opcodeField]
  · rw [decode_reservedBits hr] at h
    cases h

theorem commandWordLegal_encode (i : Instr) : commandWordLegal (encode i) = true := by
  cases i <;> rfl

/-- The legality of a word as its fields give it (R101). -/
theorem commandWordLegal_iff (w : Word) :
    commandWordLegal w = true ↔ reservedField w = 0#28 ∧ (opcodeField w).toNat ≤ 0xA := by
  simp [commandWordLegal, reservedField, opcodeField]

/-- The legal words are those that decode to a command (R101). -/
theorem exists_decode_iff (w : Word) : (∃ i, decode w = .ok i) ↔ commandWordLegal w = true := by
  constructor
  · rintro ⟨i, h⟩
    rw [eq_encode_of_decode h]
    exact commandWordLegal_encode i
  · intro h
    obtain ⟨hr, hop⟩ := (commandWordLegal_iff w).mp h
    rw [decode_eq_commandOf hr]
    exact exists_commandOf hop

/-- Every other word is illegal (R101, R107). -/
theorem decode_illegal {w : Word} (h : ¬ commandWordLegal w = true) : ∃ r, decode w = .error r := by
  cases hd : decode w with
  | ok i => exact absurd ((exists_decode_iff w).mp ⟨i, hd⟩) h
  | error r => exact ⟨r, rfl⟩

/-- Settles O2: `decode_encode`, and its converse from the two fields of a word. -/
theorem decodeInvertsEncodeExactly : Obligations.DecodeInvertsEncodeExactly :=
  ⟨fun i _ => decode_encode i, fun _ _ => eq_encode_of_decode⟩

/-- Settles O3: a legal word decodes to a command, and `decode`, a function, gives it no second one. -/
theorem decoderIsTotalOnCommandWords : Obligations.DecoderIsTotalOnCommandWords := by
  intro w
  split
  case isTrue h =>
    obtain ⟨i, hi⟩ := (exists_decode_iff w).mpr ((commandWordLegal_iff w).mpr h)
    exact ⟨i, hi, fun j hj => Except.ok.inj (hj.symm.trans hi)⟩
  case isFalse h => exact decode_illegal fun hw => h ((commandWordLegal_iff w).mp hw)

/-- Settles O1: the legal words are the encodings of the map's commands, in its order; the others are rejected by their
OPCODE or by their reserved field. -/
theorem commandWordsDecodeByTheMap : Obligations.CommandWordsDecodeByTheMap :=
  ⟨decode_encode .nop, decode_encode .bsWrite, decode_encode .bsFlush, decode_encode .bsRead, decode_encode .bsRalign,
    decode_encode .riceK, decode_encode .riceEnc, decode_encode .riceDec, decode_encode .medPred, decode_encode .planeEnc,
    decode_encode .planeDec, decode_eq_commandOf rfl, decode_eq_commandOf rfl, decode_reservedBits (by decide),
    decode_reservedBits (by decide)⟩

/-! ### A CMD write while idle -/

/-- The step of an idle block with a CMD write waiting: the write is taken from the queue and its word started (R110). -/
theorem step_idle_cmd {s : State} {w : Word} {rest : List HostAct} (hidle : s.ctl.busy = false)
    (hq : s.host.queue = wr .cmd w :: rest) : step s = startCommand w { foresee s with host.queue := rest } :=
  (step_idle_write hidle hq (regOffset_wellFormed .cmd)).trans (if_pos rfl)

theorem startCommand_legal {w : Word} {i : Instr} (h : decode w = .ok i) (s : State) :
    startCommand w s = exec i (s.startEdge w) := by
  rw [startCommand, h]

theorem startCommand_illegal {w : Word} {r : DecodeReject} (h : decode w = .error r) (s : State) :
    startCommand w s = illegalCommand (s.startEdge w) := by
  rw [startCommand, h]

/-- An illegal word's command completes at once with ILLEGAL_CMD while no outside action lands (R107, R282). -/
theorem illegalCommand_quiet {s : State} (h : Quiet s) : illegalCommand s = .next (s.complete .illegalCmd) :=
  endCommand_quiet .illegalCmd h

/-- Settles O4: the state after the start edge is the one the statement writes out. -/
theorem stepRunsTheDecodedCommand : Obligations.StepRunsTheDecodedCommand := by
  intro s w i rest hidle hq hw
  exact (step_idle_cmd hidle hq).trans (startCommand_legal hw _)

/-- Settles O6: the word is rejected, and the completion follows the start edge with nothing in between. -/
theorem illegalWordCompletesAtOnce : Obligations.IllegalWordCompletesAtOnce := by
  intro s w rest hquiet hidle hq hw
  obtain ⟨r, hr⟩ := decode_illegal (Bool.eq_false_iff.mp hw)
  rw [step_idle_cmd hidle hq, startCommand_illegal hr]
  exact illegalCommand_quiet hquiet

end Sys2Proof.Machine
end

section
/-! SUPPORT and proofs for the statements about the bit stream: WriteBits and ReadBits (O42, O43), the BitStream
commands (O35, O36, O37, O38, O39, O40, O26), and the separation of the writer from the reader (O24). -/

namespace Sys2Proof.Machine

open Sys2Proof.Safety

/-! ### A command from how its rule ends -/

/-- A command whose rule goes to its end completes without an error (R111). -/
theorem exec_of_ok {i : Instr} {s t : State} (hq : Quiet s) (h : commandRule i s = .ok () t)
    (hhost : t.host = s.host) : exec i s = .next (t.complete .none) := by
  rw [exec_eq_finish, h, finish_ok, endCommand_quiet _ (by rw [hhost]; exact hq)]

/-- A command whose rule raises completes with the code (R111, R281). -/
theorem exec_of_raised {i : Instr} {s t : State} {e : ErrCode} (hq : Quiet s) (h : commandRule i s = .raised e t)
    (hhost : t.host = s.host) : exec i s = .next (t.complete e) := by
  rw [exec_eq_finish, h, finish_raised, endCommand_quiet _ (by rw [hhost]; exact hq)]

/-- What a rule keeps, however it ends, and the completion too, the command keeps. -/
theorem exec_within {R : State → State → Prop} {i : Instr} {s t : State} (hq : Quiet s)
    (hrule : (commandRule i s).Within R s) (hhost : ∀ u, R s u → u.host = s.host)
    (hcomplete : ∀ u e, R s u → R s (u.complete e)) (hexec : exec i s = .next t) : R s t := by
  cases hr : commandRule i s with
  | ok a u =>
    rw [hr] at hrule
    cases hexec.symm.trans (exec_of_ok hq hr (hhost u hrule))
    exact hcomplete u _ hrule
  | raised e u =>
    rw [hr] at hrule
    cases hexec.symm.trans (exec_of_raised hq hr (hhost u hrule))
    exact hcomplete u e hrule
  | ended o =>
    rw [hr] at hrule
    obtain ⟨u, rfl, hu⟩ := hrule
    rw [exec_eq_finish, hr, finish_ended] at hexec
    cases hexec
    exact hu

/-! ### The writer and the reader are separate -/

/-- The commands that write the stream (R139). -/
abbrev writingCommands : List Instr := [.bsWrite, .bsFlush, .riceEnc, .planeEnc]

/-- The commands that read it (R139). -/
abbrev readingCommands : List Instr := [.bsRead, .bsRalign, .riceDec, .planeDec]

/-- The commands that scan a plane (R38, R39, R46). -/
abbrev planeCommands : List Instr := [.planeEnc, .planeDec]

/-- What command `i` leaves alone, by the kind of command it is (R139, R73, R38, R39, R46). -/
structure Separate (i : Instr) (s t : State) : Prop where
  host : t.host = s.host
  reader : i ∈ writingCommands →
    t.reader = s.reader ∧ t.ports.source = s.ports.source ∧ t.regs.inBytes = s.regs.inBytes
  writer : i ∈ readingCommands →
    t.writer = s.writer ∧ t.ports.sink = s.ports.sink ∧ t.regs.outBytes = s.regs.outBytes
  cells : i ≠ .planeDec → t.ports.cells = s.ports.cells
  scan : i ∉ planeCommands →
    t.regs.posRow = s.regs.posRow ∧ t.regs.posCol = s.regs.posCol ∧ t.scan = s.scan ∧ t.ports.plane = s.ports.plane

theorem Separate.refl (i : Instr) (s : State) : Separate i s s :=
  ⟨rfl, fun _ => ⟨rfl, rfl, rfl⟩, fun _ => ⟨rfl, rfl, rfl⟩, fun _ => rfl, fun _ => ⟨rfl, rfl, rfl, rfl⟩⟩

theorem Separate.setResult {i : Instr} {s t : State} (h : Separate i s t) (hi lo : Word) :
    Separate i s (t.setResult hi lo) :=
  ⟨h.host, h.reader, h.writer, h.cells, h.scan⟩

theorem Separate.complete {i : Instr} {s t : State} (h : Separate i s t) (e : ErrCode) : Separate i s (t.complete e) :=
  ⟨h.host, h.reader, h.writer, h.cells, h.scan⟩

theorem EncSide.separate {s t : State} (h : EncSide s t) : Separate .planeEnc s t where
  host := h.host
  reader _ := by rw [h.frame]; exact ⟨rfl, rfl, rfl⟩
  writer hi := absurd hi (by decide)
  cells _ := by rw [h.frame]
  scan hi := absurd hi (by decide)

theorem DecSide.separate {s t : State} (h : DecSide s t) : Separate .planeDec s t where
  host := h.host
  reader hi := absurd hi (by decide)
  writer _ := by rw [h.frame]; exact ⟨rfl, rfl, rfl⟩
  cells hi := absurd rfl hi
  scan hi := absurd hi (by decide)

theorem SinkSide.separate {i : Instr} (hi : i ∉ readingCommands) {s t : State} (h : SinkSide s t) : Separate i s t where
  host := h.host
  reader _ := by rw [h.frame]; exact ⟨rfl, rfl, rfl⟩
  writer hr := absurd hr hi
  cells _ := by rw [h.frame]
  scan _ := by rw [h.frame]; exact ⟨rfl, rfl, rfl, rfl⟩

theorem SourceSide.separate {i : Instr} (hi : i ∉ writingCommands) {s t : State} (h : SourceSide s t) :
    Separate i s t where
  host := h.host
  reader hw := absurd hw hi
  writer _ := by rw [h.frame]; exact ⟨rfl, rfl, rfl⟩
  cells _ := by rw [h.frame]
  scan _ := by rw [h.frame]; exact ⟨rfl, rfl, rfl, rfl⟩

/-- A rule that reads a value from the stream and returns it. -/
theorem Res.Within.separate {α : Type} {i : Instr} (hi : i ∉ writingCommands) {s : State} {r : Res α}
    (h : r.Within SourceSide s) (hiWord loWord : α → Word) :
    (r.bind fun v t => .ok () (t.setResult (hiWord v) (loWord v))).Within (Separate i) s :=
  Res.Sat.bind (Res.Within.mono h fun _ ht => ht.separate hi) fun _ _ ht => ht.setResult _ _

theorem commandRule_separate (i : Instr) {s : State} (hq : Quiet s) : (commandRule i s).Within (Separate i) s := by
  cases i with
  | nop => exact Separate.refl _ s
  | bsWrite => exact Res.Within.mono (writeBits_within _ _ hq) fun _ h => h.separate (by decide)
  | bsFlush => exact Res.Within.mono (flushWriter_within true hq) fun _ h => h.separate (by decide)
  | bsRead =>
    exact Res.Sat.guard (Separate.refl _ s)
      (Res.Within.separate (by decide) (readBits_within _ _ hq) (·.extractLsb' 32 32) (·.extractLsb' 0 32))
  | bsRalign =>
    have hdrop : SourceSide s s.dropReader := ⟨rfl, Counted.of_eq rfl rfl rfl, LogGrew.of_eq rfl⟩
    exact hdrop.separate (by decide)
  | riceK => exact (Separate.refl _ s).setResult _ _
  | riceEnc =>
    exact Res.Sat.guard (Separate.refl _ s)
      (Res.Within.mono (riceEncode_within _ _ hq) fun _ h => h.separate (by decide))
  | riceDec =>
    exact Res.Sat.guard (Separate.refl _ s)
      (Res.Within.separate (by decide) (riceDecode_within _ hq) (fun _ => 0) id)
  | medPred => exact (Separate.refl _ s).setResult _ _
  | planeEnc =>
    exact Res.Sat.guard (Separate.refl _ s)
      (Res.Within.mono (encodeExit_within hq (scanPlane_encSide hq)) fun _ h => h.separate)
  | planeDec =>
    exact Res.Sat.guard (Separate.refl _ s)
      (Res.Within.mono (decodeExit_within (scanPlane_decSide hq)) fun _ h => h.separate)

/-- Settles O24: each rule stays on its side, and the completion touches the edges alone. -/
theorem writerAndReaderAreSeparate : Obligations.WriterAndReaderAreSeparate := by
  intro i s t hq hexec
  have hsep : Separate i s t :=
    exec_within hq (commandRule_separate i hq) (fun _ h => h.host) (fun _ e h => h.complete e) hexec
  exact ⟨hsep.reader, hsep.writer, hsep.cells, hsep.scan⟩

/-! ### WriteBits and ReadBits -/

/-- WriteBits sees the low n bits of its value alone (R131). -/
theorem writeBits_congr {v w : DoubleWord} {n : Nat} (h : ∀ i < n, v.getLsbD i = w.getLsbD i) (s : State) :
    writeBits v n s = writeBits w n s := by
  induction n generalizing s with
  | zero => rfl
  | succ n ih =>
    have hrest : writeBits v n = writeBits w n := funext (ih fun i hi => h i (by omega))
    rw [writeBits, writeBits, h n (by omega), hrest]

/-- Bit `i` of `value mod 2^m` below `m`. -/
theorem getLsbD_mod_two_pow (v : DoubleWord) {m i : Nat} (h : i < m) :
    (BitVec.ofNat 64 (v.toNat % 2 ^ m)).getLsbD i = v.getLsbD i := by
  by_cases hi : i < 64
  · rw [BitVec.getLsbD_ofNat, Nat.testBit_mod_two_pow, BitVec.testBit_toNat]
    simp only [hi, h, decide_true, Bool.true_and]
  · rw [BitVec.getLsbD_of_ge _ _ (by omega), BitVec.getLsbD_of_ge _ _ (by omega)]

/-- The high `d` bits and then the low `m` (R138), by induction on `d`. -/
theorem writeBits_add (v : DoubleWord) (d m : Nat) (s : State) :
    writeBits v (d + m) s =
      (writeBits (v >>> m) d s).bind fun _ t => writeBits (BitVec.ofNat 64 (v.toNat % 2 ^ m)) m t := by
  induction d generalizing s with
  | zero => rw [Nat.zero_add, writeBits, Res.bind_ok, writeBits_congr fun i => getLsbD_mod_two_pow v]
  | succ d ih =>
    have hbit : (v >>> m).getLsbD d = v.getLsbD (d + m) := by rw [BitVec.getLsbD_ushiftRight, Nat.add_comm]
    rw [Nat.add_right_comm, writeBits, writeBits, hbit, Res.bind_assoc]
    simp only [ih]

/-- Settles O42: n is `(n - m) + m`. -/
theorem writeBitsSplits : Obligations.WriteBitsSplits := by
  intro value n m s hmn _
  have h := writeBits_add value (n - m) m s
  rwa [Nat.sub_add_cancel hmn] at h

/-- A position at 64 or above counts as 0 (R131). -/
theorem valueBits_above (v : DoubleWord) (d : Nat) :
    valueBits v (d + 64) = List.replicate d false ++ valueBits v 64 := by
  induction d with
  | zero => rw [Nat.zero_add, List.replicate_zero, List.nil_append]
  | succ d ih =>
    rw [Nat.add_right_comm, valueBits, ih, BitVec.getLsbD_of_ge _ _ (by omega), List.replicate_succ, List.cons_append]

/-- ReadBits (R135) of the next n readable bits, with none taken before. -/
theorem readBits_zero_took (n : Nat) {s : State} (hq : Quiet s) (hr : s.reader.rbits ≤ 7)
    (h : n ≤ (readableBits s).length) :
    ∃ t, readBits n 0 s = .ok (BitVec.ofNat 64 (bitsNat ((readableBits s).take n))) t ∧ ReaderTook s t n := by
  simpa using readBits_took n 0 hq hr h

/-- ReadBits takes back the bits that WriteBits appends (R137). -/
theorem readBits_valueBits (v : DoubleWord) (n : Nat) {s : State} {rest : List Bool} (hq : Quiet s)
    (hr : s.reader.rbits ≤ 7) (h : readableBits s = valueBits v n ++ rest) :
    ∃ t, readBits n 0 s = .ok (BitVec.ofNat 64 (v.toNat % 2 ^ n)) t ∧ readableBits t = rest := by
  have hlen := valueBits_length v n
  obtain ⟨t, ht, htook⟩ := readBits_zero_took n hq hr (by rw [h, List.length_append, hlen]; omega)
  refine ⟨t, ?_, by rw [htook.bits, h, List.drop_left' hlen]⟩
  rw [ht, h, List.take_left' hlen, bitsNat_valueBits]

/-- Settles O43: `writeBits_grew`, `readBits_valueBits` and `valueBits_above`. -/
theorem writtenBitsReadBack : Obligations.WrittenBitsReadBack := by
  refine ⟨fun s v n hq hw hs => ?_, fun s v n rest hq hr _ h => readBits_valueBits v n hq hr h, fun v n hn => ?_⟩
  · obtain ⟨t, ht, hgrew⟩ := writeBits_grew v n hq hw hs
    exact ⟨t, ht, hgrew.writtenBits⟩
  · have h := valueBits_above v (n - 64)
    rwa [Nat.sub_add_cancel hn] at h

/-! ### BS_WRITE -/

/-- Settles O35: `writeBits_grew`, and then the completion. -/
theorem bsWriteAppendsItsBits : Obligations.BsWriteAppendsItsBits := by
  intro s hq hw hs
  obtain ⟨t, ht, hgrew⟩ := writeBits_grew s.valueOperand s.lengthOperand hq hw hs
  obtain ⟨hwbits, hout⟩ := hgrew.counts
  obtain ⟨sent, hlog, -, -⟩ := hgrew.sent
  rw [valueBits_length] at hwbits hout
  refine ⟨t.complete .none, sent, exec_of_ok hq ht hgrew.host, ?_, hlog, hgrew.writtenBits, hwbits, ?_, hgrew.reader,
    hgrew.scan, hgrew.word, hgrew.host, hgrew.cells, hgrew.source, hgrew.plane⟩
  · rw [State.complete_ctl, hgrew.ctl]
  · rw [State.complete_regs, hgrew.regs, hout]
    rfl

/-- BS_WRITE and RICE_ENC into a sink that refuses byte number j: the rule stops there, and RICE_ENC has set its codeword
counter before it (R130, R181). -/
theorem commandRule_refused {s : State} {i : Instr} {bits : List Bool} {j : Nat} {more : List SinkChoice} (hq : Quiet s)
    (hw : s.writer.wbits ≤ 7) (hs : s.ports.sink.script = List.replicate j .ok ++ .error :: more)
    (hi : (i = .bsWrite ∧ bits = valueBits s.valueOperand s.lengthOperand) ∨
      (i = .riceEnc ∧ s.kOperand ≤ 31 ∧ bits = codeword s.kOperand s.residualOperand))
    (hn : 8 * (j + 1) ≤ s.writer.wbits + bits.length) :
    ∃ t sent lost p, commandRule i s = .raised .ioError t ∧
      WriterStopped { s with word.prefixLen := p } t sent lost more ∧ (i = .bsWrite → p = s.word.prefixLen) ∧
      sent.length = j ∧ octetsBits (sent ++ [lost]) = (pendingBits s.writer ++ bits).take (8 * (j + 1)) := by
  obtain ⟨rfl, rfl⟩ | ⟨rfl, hk, rfl⟩ := hi
  · obtain ⟨t, sent, lost, ht, hstop, hlen, hbits⟩ :=
      writeBits_refused s.valueOperand s.lengthOperand j hq hw hs (by rwa [valueBits_length] at hn)
    exact ⟨t, sent, lost, s.word.prefixLen, ht, hstop, fun _ => rfl, hlen, hbits⟩
  · obtain ⟨t, sent, lost, ht, hstop, hlen, hbits⟩ := riceEncode_refused s.kOperand s.residualOperand j hq hw hs hn
    exact ⟨t, sent, lost, _, (if_neg (by omega)).trans ht, hstop, nofun, hlen, hbits⟩

/-- Settles O36: `commandRule_refused`, and then the completion with IO_ERROR. -/
theorem bsWriteStopsAtARefusedByte : Obligations.BsWriteStopsAtARefusedByte := by
  intro s i bits j more hq hw hs hi hn
  obtain ⟨t, sent, lost, p, ht, ⟨hframe⟩, hp, hlen, hbits⟩ := commandRule_refused hq hw hs hi hn
  refine ⟨t.complete .ioError, sent, lost, exec_of_raised hq ht (by rw [hframe]), ?_, hlen, hbits, ?_⟩
  · rw [State.complete_ctl, hframe]
  · subst hframe hlen
    refine ⟨rfl, rfl, rfl, rfl, rfl, rfl, fun h => ?_, rfl, rfl, rfl, rfl⟩
    cases hp h
    rfl

/-! ### BS_FLUSH -/

/-- Settles O37: `flushWriter_accepted`, and then the completion. -/
theorem bsFlushPadsAndFlushes : Obligations.BsFlushPadsAndFlushes := by
  intro s hq hw hs
  obtain ⟨t, ht, hframe, hwbits, -, pad, hlog, hpad, hout⟩ := flushWriter_accepted true hq hw hs
  refine ⟨t.complete .none, pad, exec_of_ok hq ht (by rw [hframe]), ?_, hpad, hlog, hwbits, ?_, ?_⟩
  · rw [State.complete_ctl, hframe]
  · rw [State.complete_regs, hframe, hout]
  · rw [hframe]
    exact ⟨rfl, rfl, rfl, rfl, rfl, rfl, rfl⟩

/-- The state in which FlushWriter sends its pad byte: nothing is pending any more, whatever the sink answers (R132). -/
def padSent (a : Answer) (s : State) : State :=
  answered (.byte (padByte s.writer)) a
    { s with writer.wacc := 0, writer.wbits := 0, ports.sink := s.ports.sink.rest }

/-- A pad byte that the sink refuses (R132, R285). -/
theorem flushPad_refused {s : State} (hq : Quiet s) (h : 0 < s.writer.wbits) (hc : s.ports.sink.next = .error) :
    flushPad true s = .raised .ioError (padSent .error s) := by
  rw [flushPad, if_pos h, sinkByte_refused _ (by exact hq) (by exact hc)]
  rfl

/-- A pad byte that the sink accepts (R132). -/
theorem flushPad_accepted {s : State} (hq : Quiet s) (h : 0 < s.writer.wbits) (hc : s.ports.sink.next = .ok) :
    flushPad true s = .ok () { padSent .ok s with regs.outBytes := s.regs.outBytes + 1 } := by
  rw [flushPad, if_pos h, sinkByte_accepted _ (by exact hq) (by exact hc)]
  rfl

/-- FlushWriter whose FLUSH the sink refuses, after its first part (R132, R285). -/
theorem flushWriter_flush_refused {s t : State} (hpad : flushPad true s = .ok () t) (hq : Quiet t)
    (hc : t.ports.sink.next = .error) :
    flushWriter true s = .raised .ioError (answered .flush .error { t with ports.sink := t.ports.sink.rest }) := by
  rw [flushWriter, hpad, Res.bind_ok, sinkFlush, sinkRequest_refused .flush hq hc]
  rfl

theorem flushPad_empty {s : State} (h : s.writer.wbits = 0) : flushPad true s = .ok () s :=
  if_neg (by omega)

/-- Settles O38: the refusal of the pad byte, of FLUSH after it, and of FLUSH alone. -/
theorem bsFlushReportsSinkErrors : Obligations.BsFlushReportsSinkErrors := by
  refine ⟨fun s more hq h0 hw => ⟨padByte s.writer, ?bits, fun hs => ?padRefused, fun hs => ?flushRefused⟩,
    fun s more hq h0 hs => ?flushAlone⟩
  case bits => simpa using valueBits_padByte s.writer h0 hw
  case padRefused =>
    have hrule : flushWriter true s = .raised .ioError (padSent .error s) := by
      rw [flushWriter, flushPad_refused hq h0 (by rw [Port.next, hs]), Res.bind_raised]
    exact ⟨_, exec_of_raised (i := .bsFlush) hq hrule rfl, rfl, rfl, rfl, rfl⟩
  case flushRefused =>
    have hpad := flushPad_accepted hq h0 (by rw [Port.next, hs])
    have hrule := flushWriter_flush_refused hpad hq (by simp [padSent, answered, Port.rest, Port.next, hs])
    refine ⟨_, exec_of_raised (i := .bsFlush) hq hrule rfl, rfl, rfl, ?_, rfl⟩
    simp [padSent, answered]
  case flushAlone =>
    have hrule := flushWriter_flush_refused (flushPad_empty h0) hq (by rw [Port.next, hs])
    exact ⟨_, exec_of_raised (i := .bsFlush) hq hrule rfl, rfl, h0, rfl, rfl⟩

/-! ### BS_READ and BS_RALIGN -/

/-- BS_READ of a length in range is ReadBits and then the result (R142). -/
theorem commandRule_bsRead {s : State} (h : s.lengthOperand ≤ 64) :
    commandRule .bsRead s = (readBits s.lengthOperand 0 s).bind fun v t => .ok () (t.setResult64 v) :=
  if_neg (by omega)

/-- RES1:RES0 after a 64-bit result is the result (R106). -/
theorem setResult64_value (v : DoubleWord) (s : State) :
    (s.setResult64 v).regs.res1 ++ (s.setResult64 v).regs.res0 = v :=
  BitVec.extractLsb'_append_extractLsb' (w := 32) (len := 32)

/-- Settles O39: `readBits_zero_took`, the result, and then the completion. -/
theorem bsReadTakesItsBits : Obligations.BsReadTakesItsBits := by
  intro s hq hr h64 hlen
  obtain ⟨t, ht, htook⟩ := readBits_zero_took s.regs.arg2.toNat hq hr hlen
  have hlt : bitsNat ((readableBits s).take s.regs.arg2.toNat) < 2 ^ 64 := by
    refine (bitsNat_lt _).trans_le (Nat.pow_le_pow_right (by omega) ?_)
    rw [List.length_take]
    omega
  have hrule := commandRule_bsRead h64
  rw [State.lengthOperand, ht, Res.bind_ok] at hrule
  refine ⟨_, exec_of_ok hq hrule htook.host, ?ctl, ?value, htook.bits, htook.rbits, ?regs, htook.writer, htook.scan,
    htook.word, htook.host, htook.cells, htook.sinkPort, htook.plane⟩
  case ctl => rw [State.complete_ctl, State.setResult64_ctl, htook.ctl]
  case value =>
    rw [State.complete_regs, setResult64_value, BitVec.toNat_ofNat, Nat.mod_eq_of_lt hlt]
  case regs =>
    rw [State.complete_regs, State.setResult64_regs, htook.regs, htook.inBytes hr]

/-- Settles O40: `readBits_stopped`, and then the completion with the source's error. -/
theorem bsReadFailsAtTheEndOfTheSource : Obligations.BsReadFailsAtTheEndOfTheSource := by
  intro s bytes last more hq hr hlast hs h64 hlen
  obtain ⟨t, ht, hframe, hrbits⟩ := readBits_stopped s.regs.arg2.toNat 0 hq hr hlast hs hlen
  have hrule := commandRule_bsRead h64
  rw [State.lengthOperand, ht, Res.bind_raised] at hrule
  refine ⟨_, exec_of_raised hq hrule (by rw [hframe]), ?_, hrbits, ?_⟩
  · rw [State.complete_ctl, hframe]
    rfl
  · rw [hframe]
    exact ⟨rfl, rfl, rfl, rfl, rfl, rfl, rfl, rfl, rfl⟩

/-- Settles O26: the rule is `dropReader`. -/
theorem bsRalignDropsTheBufferedBits : Obligations.BsRalignDropsTheBufferedBits :=
  fun s hq => exec_of_ok (i := .bsRalign) (t := s.dropReader) hq rfl rfl

end Sys2Proof.Machine
end

section
/-! SUPPORT and proofs for the statements about the Golomb-Rice coder: the parameter (O30, O31, O32, O27), the fold (O33,
O34), RICE_ENC (O44), RICE_DEC (O45, O46), and the round trip of a codeword (O47). -/

namespace Sys2Proof.Machine

open Sys2Proof.Safety

/-! ### The parameter is the least -/

/-- With enough steps the search stops at a k that is large enough (R171). -/
theorem le_kSearch {level fuel k : Nat} (h : level ≤ 3 * 2 ^ (k + fuel)) : level ≤ 3 * 2 ^ kSearch level fuel k := by
  induction fuel generalizing k with
  | zero => exact h
  | succ fuel ih =>
    rw [kSearch]
    split
    · assumption
    · exact ih (by rwa [Nat.add_right_comm])

theorem le_kOfActivity (level : Nat) : level ≤ 3 * 2 ^ kOfActivity level := by
  have hpow : level < 2 ^ level := Nat.lt_two_pow_self
  exact le_kSearch (by rw [Nat.zero_add]; omega)

/-- Any k that is large enough is at or above the parameter (R171). -/
theorem kOfActivity_le {level m : Nat} (h : level ≤ 3 * 2 ^ m) : kOfActivity level ≤ m :=
  kSearch_le level (Nat.zero_le m) h

/-- Settles O30: `le_kOfActivity`, and `kOfActivity_le` turned round. -/
theorem riceParameterIsLeast : Obligations.RiceParameterIsLeast := fun level =>
  ⟨le_kOfActivity level, fun _ hj => Nat.lt_of_not_le fun h => (kOfActivity_le h).not_gt hj⟩

/-- Settles O31: what is large enough for the higher level is so for the lower. -/
theorem riceParameterIsMonotone : Obligations.RiceParameterIsMonotone := by
  refine ⟨fun a b c d a' b' c' d' h => kOfActivity_le (h.trans (le_kOfActivity _)), fun a => ?_⟩
  have hzero : activity a a a a = 0 := by simp [activity]
  rw [computeK, hzero]
  rfl

/-- Each of the three differences of samples is at most 65535 (R170). -/
theorem activity_le (a b c d : Sample) : activity a b c d ≤ 196605 := by
  unfold activity
  omega

/-- Settles O32: `activity_le` and `computeK_le`. -/
theorem riceParameterIsAtMostSixteen : Obligations.RiceParameterIsAtMostSixteen :=
  fun a b c d => ⟨activity_le a b c d, computeK_le a b c d⟩

/-- The activity as R170 writes it. -/
theorem activity_cast (a b c d : Sample) :
    (activity a b c d : Int) = |(d.toNat : Int) - b.toNat| + |(b.toNat : Int) - c.toNat| + |(c.toNat : Int) - a.toNat| := by
  simp only [activity, Nat.cast_add, Int.natCast_natAbs]

/-- Settles O27: the rule is the result alone, and its k is the least by O30. -/
theorem riceKReturnsTheLeastParameter : Obligations.RiceKReturnsTheLeastParameter := by
  intro s hq
  obtain ⟨hle, hlt⟩ := riceParameterIsLeast (activity s.aOperand s.bOperand s.cOperand s.dOperand)
  refine ⟨computeK s.aOperand s.bOperand s.cOperand s.dOperand, ?_, exec_of_ok (i := .riceK) hq rfl rfl⟩
  have hcast := activity_cast s.aOperand s.bOperand s.cOperand s.dOperand
  refine ⟨hcast.symm.trans_le (by exact_mod_cast hle), fun j hj => lt_of_lt_of_eq ?_ hcast⟩
  exact_mod_cast hlt j hj

/-! ### The fold inside and outside its domain -/

/-- The sign part of the fold (R172) is the quotient by 2^30. -/
theorem sshiftRight_thirty (x : Word) : (x.sshiftRight 30).toInt = x.toInt / 2 ^ 30 := by
  rw [BitVec.toInt_sshiftRight, Int.shiftRight_eq_div_pow]
  rfl

/-- The fold (R172) of a residual whose sign part is known. -/
theorem fold_of_sign {x sign : Word} (h : x.toInt / 2 ^ 30 = sign.toInt) : fold x = (x <<< 1) ^^^ sign := by
  rw [fold, BitVec.eq_of_toInt_eq ((sshiftRight_thirty x).trans h), BitVec.xor_comm]

/-- Bit 0 of the fold: the shifted part has none (R172). -/
theorem getLsbD_fold_zero (x : Word) : (fold x).getLsbD 0 = x.getLsbD 30 := by
  rw [fold, BitVec.getLsbD_xor, BitVec.getLsbD_sshiftRight, BitVec.getLsbD_shiftLeft]
  simp

/-- The bits of the fold from 1 up: the sign part has the top bit in each (R172). -/
theorem getLsbD_fold_succ (x : Word) {i : Nat} (h : i < 31) : (fold x).getLsbD (i + 1) = (x.msb ^^ x.getLsbD i) := by
  have hsign : (x.sshiftRight 30).getLsbD (i + 1) = x.msb := by
    rw [BitVec.getLsbD_sshiftRight]
    by_cases h0 : i = 0
    · subst h0
      simp [BitVec.msb_eq_getLsbD_last]
    · simp [show ¬ 30 + (i + 1) < 32 by omega, show ¬ 32 ≤ i + 1 by omega]
  rw [fold, BitVec.getLsbD_xor, hsign, BitVec.getLsbD_shiftLeft]
  simp [show i + 1 < 32 by omega]

theorem fold_injective : Function.Injective fold := by
  intro x y h
  have hbit (i : Nat) : (fold x).getLsbD i = (fold y).getLsbD i := by rw [h]
  have hlow : x.getLsbD 30 = y.getLsbD 30 := by simpa only [getLsbD_fold_zero] using hbit 0
  have hmsb : x.msb = y.msb := by
    have h31 := hbit (30 + 1)
    rw [getLsbD_fold_succ x (by omega), getLsbD_fold_succ y (by omega), hlow] at h31
    exact Bool.xor_left_inj.mp h31
  apply BitVec.eq_of_getLsbD_eq
  intro i hi
  obtain h31 | rfl : i < 31 ∨ i = 31 := by omega
  · have hi' := hbit (i + 1)
    rw [getLsbD_fold_succ x h31, getLsbD_fold_succ y h31, hmsb] at hi'
    exact Bool.xor_right_inj.mp hi'
  · rwa [BitVec.msb_eq_getLsbD_last, BitVec.msb_eq_getLsbD_last] at hmsb

/-- The top bit of an unfolded pattern is the pattern's bit 0 (R173). -/
theorem msb_unfold (y : Word) : (Machine.unfold y).msb = y.getLsbD 0 := by
  have hshift : (y >>> 1).msb = false := by simp
  rw [Machine.unfold, BitVec.msb_xor, hshift, Bool.false_xor]
  cases y.getLsbD 0 <;> rfl

/-- The fold's domain is where the two top bits agree: the converse of `msb_of_domain`. -/
theorem domain_of_msb {x : Word} (h : x.getLsbD 30 = x.msb) : InFoldDomain x := by
  rw [← BitVec.testBit_toNat, BitVec.msb_eq_decide, Nat.testBit_eq_decide_div_mod_eq, decide_eq_decide] at h
  have := x.isLt
  rw [InFoldDomain, BitVec.toInt_eq_toNat_cond]
  split <;> omega

/-- Settles O33: the sign part is 0 or all ones, and `unfold_fold`. -/
theorem foldIsZigzagOnItsDomain : Obligations.FoldIsZigzagOnItsDomain := by
  intro x hx
  refine ⟨?_, unfold_fold hx⟩
  obtain ⟨hlow, hhigh⟩ := hx
  have hshift : (x <<< 1).toNat = x.toNat * 2 % 2 ^ 32 := by rw [BitVec.toNat_shiftLeft, Nat.shiftLeft_eq, pow_one]
  have hint := BitVec.toInt_eq_toNat_cond x
  have := x.isLt
  split
  case isTrue hpos =>
    have hsign : x.toInt / 2 ^ 30 = (0#32).toInt := by rw [BitVec.toInt_zero]; omega
    rw [fold_of_sign hsign, BitVec.xor_zero, hshift]
    split at hint <;> omega
  case isFalse hneg =>
    have hsign : x.toInt / 2 ^ 30 = (BitVec.allOnes 32).toInt := by
      rw [show (BitVec.allOnes 32).toInt = -1 from rfl]
      omega
    rw [fold_of_sign hsign, BitVec.xor_allOnes, BitVec.toNat_not, hshift]
    split at hint <;> omega

/-- Settles O34: `fold_injective`, the sign part by the quotient, and the two top bits for the last clause. -/
theorem foldOutsideItsDomain : Obligations.FoldOutsideItsDomain := by
  refine ⟨Finite.injective_iff_bijective.mp fold_injective, fun x hx => fold_of_sign ?_, fun x hx => fold_of_sign ?_,
    fun x hx h => hx (domain_of_msb ?_)⟩
  · have := x.toInt_lt
    rw [show (1#32).toInt = 1 from rfl]
    omega
  · have := x.le_toInt
    rw [show (0xFFFFFFFE#32).toInt = -2 from rfl]
    omega
  · rw [← getLsbD_fold_zero, ← msb_unfold, h]

/-! ### RICE_ENC -/

theorem commandRule_riceEnc {s : State} (h : s.kOperand ≤ 31) :
    commandRule .riceEnc s = riceEncode s.kOperand s.residualOperand s :=
  if_neg (by omega)

theorem quotient_toNat (k : Nat) (x : Word) : (quotient k x).toNat = (fold x).toNat / 2 ^ k := by
  rw [quotient, BitVec.toNat_ushiftRight, Nat.shiftRight_eq_div_pow]

/-- Settles O44: `riceEncode_grew`, and then the completion. -/
theorem riceEncAppendsItsCodeword : Obligations.RiceEncAppendsItsCodeword := by
  intro s hq hw hs hk
  obtain ⟨t, ht, hgrew⟩ := riceEncode_grew s.kOperand s.residualOperand hq hw hs
  obtain ⟨sent, hlog, -, -⟩ := hgrew.sent
  have hrule := (commandRule_riceEnc hk).trans ht
  refine ⟨t.complete .none, sent, exec_of_ok hq hrule hgrew.host, ?ctl, hlog, hgrew.writtenBits, ?length, hgrew.regs,
    hgrew.reader, hgrew.scan, ?word, hgrew.host, hgrew.cells, hgrew.source, hgrew.plane⟩
  case ctl => rw [State.complete_ctl, hgrew.ctl]
  case length => rw [codeword_length, quotient_toNat]
  case word => rw [State.complete_word, hgrew.word]

/-! ### RICE_DEC -/

theorem commandRule_riceDec {s : State} (h : s.kOperand ≤ 31) :
    commandRule .riceDec s = (riceDecode s.kOperand s).bind fun x t => .ok () (t.setResult 0 x) :=
  if_neg (by omega)

/-- Settles O45: `riceDecode_took`, the result, and then the completion. -/
theorem riceDecReadsOneCodeword : Obligations.RiceDecReadsOneCodeword := by
  intro s q r rest hq hr hk hb hl
  obtain ⟨t, ht, htook, hrest⟩ := riceDecode_took s.kOperand q hq hr hk hb hl
  have hrule := commandRule_riceDec hk
  rw [ht, Res.bind_ok] at hrule
  refine ⟨_, exec_of_ok hq hrule htook.host, ?ctl, ?regs, hrest, htook.writer, htook.scan, ?word, htook.host,
    htook.cells, htook.sinkPort, htook.plane⟩
  case ctl => rw [State.complete_ctl, State.setResult_ctl, htook.ctl]
  case regs => rw [State.complete_regs, State.setResult_regs, htook.regs, htook.inBytes hr]; rfl
  case word => rw [State.complete_word, State.setResult_word, htook.word]

/-- The bits in reach of a source that stops. -/
theorem readableBits_length_before_stop {s : State} {bytes : List Octet} {last : SourceChoice} {more : List SourceChoice}
    (hl : last = .eos ∨ last = .error) (hs : s.ports.source.script = bytes.map .data ++ last :: more) :
    (readableBits s).length = s.reader.rbits + 8 * bytes.length := by
  rw [readableBits, hs, comingBytes_before_stop hl, List.length_append, valueBits_length, octetsBits_length]

/-- Taking `n` bits before the source stops: the script keeps its form. -/
theorem ReaderTook.before_stop {s t : State} {n : Nat} {bytes : List Octet} {last : SourceChoice}
    {more : List SourceChoice} (h : ReaderTook s t n) (hs : s.ports.source.script = bytes.map .data ++ last :: more)
    (hn : n ≤ s.reader.rbits + 8 * bytes.length) :
    ∃ left : List Octet, t.ports.source.script = left.map .data ++ last :: more ∧
      t.ports.source.tail = s.ports.source.tail ∧
      n + t.reader.rbits + 8 * left.length = s.reader.rbits + 8 * bytes.length ∧
      t.regs.inBytes + BitVec.ofNat 32 left.length = s.regs.inBytes + BitVec.ofNat 32 bytes.length := by
  obtain ⟨j, hcount, hin, hscript, htail⟩ := h.fetched
  have hj : j ≤ bytes.length := by
    have := h.rbits
    omega
  have hleft : j + (bytes.drop j).length = bytes.length := by
    rw [List.length_drop]
    omega
  refine ⟨bytes.drop j, ?_, htail, by omega, ?_⟩
  · rw [hscript, hs, List.drop_append_of_le_length (by rwa [List.length_map]), List.map_drop]
  · rw [hin, BitVec.add_assoc, ← BitVec.ofNat_add, hleft]

/-- The source ends in the zeros of a codeword or at its one (R175). -/
theorem riceDecode_stopped_in_prefix (k : Nat) {s : State} {bytes : List Octet} {last : SourceChoice}
    {more : List SourceChoice} (hq : Quiet s) (hr : s.reader.rbits ≤ 7) (hl : last = .eos ∨ last = .error)
    (hs : s.ports.source.script = bytes.map .data ++ last :: more) (hzero : ∀ b ∈ readableBits s, b = false) :
    ∃ t q, riceDecode k s = .raised (sourceError last) t ∧ ReaderStopped { s with word.q := q } t bytes.length more := by
  have hfuel : s.reader.rbits + 8 * bytes.length < prefixFuel s :=
    readableBits_length_before_stop hl hs ▸ readableBits_length s
  obtain ⟨t, q, ht, hstop⟩ :=
    countPrefix_stopped (prefixFuel s) (s := { s with word.q := 0 }) hq hr hl hs hzero hfuel
  exact ⟨t, q, by rw [riceDecode, ht, Res.bind_raised], hstop⟩

/-- The zero-counting loop of RiceDecode (R175) from its Q = 0: Q is the number of zeros before the one bit. -/
theorem countPrefix_zero_took (q : Nat) {s : State} {rest : List Bool} (hq : Quiet s) (hr : s.reader.rbits ≤ 7)
    (h : readableBits s = List.replicate q false ++ true :: rest) :
    ∃ t, countPrefix (prefixFuel s) { s with word.q := 0 } = .ok () t ∧
      ReaderTook { s with word.q := BitVec.ofNat 32 q } t (q + 1) := by
  have hfuel := readableBits_length s
  rw [h, List.length_append, List.length_replicate] at hfuel
  simpa using countPrefix_took (prefixFuel s) q (s := { s with word.q := 0 }) hq hr h (by omega)

/-- The source ends in the k bits of a codeword (R175). -/
theorem riceDecode_stopped_in_remainder (k q : Nat) {s : State} {r : List Bool} {bytes : List Octet}
    {last : SourceChoice} {more : List SourceChoice} (hq : Quiet s) (hr : s.reader.rbits ≤ 7)
    (hl : last = .eos ∨ last = .error) (hs : s.ports.source.script = bytes.map .data ++ last :: more)
    (hb : readableBits s = List.replicate q false ++ true :: r) (hshort : r.length < k) :
    ∃ t, riceDecode k s = .raised (sourceError last) t ∧
      ReaderStopped { s with word.q := BitVec.ofNat 32 q } t bytes.length more := by
  have hreach : q + 1 + r.length = s.reader.rbits + 8 * bytes.length := by
    rw [← readableBits_length_before_stop hl hs, hb, List.length_append, List.length_replicate, List.length_cons]
    omega
  obtain ⟨t, ht, htook⟩ := countPrefix_zero_took q hq hr hb
  obtain ⟨left, hscript, htail, hcount, hin⟩ := htook.before_stop hs (by dsimp only; omega)
  obtain ⟨u, hu, hstop⟩ := readBits_stopped k 0 (by rw [Quiet, htook.host]; exact hq) htook.rbits hl hscript
    (by dsimp only at hcount; omega)
  exact ⟨u, by rw [riceDecode, ht, Res.bind_ok, hu, Res.bind_raised], ReaderStopped.after htook hstop htail hin⟩

/-- Settles O46: the source ends before the one bit or after it, and then the completion with the source's error. -/
theorem riceDecFailsAtTheEndOfTheSource : Obligations.RiceDecFailsAtTheEndOfTheSource := by
  intro s bytes last more hq hr hl hs hk hcut
  obtain ⟨t, q, ht, hframe, hrbits⟩ : ∃ t q, riceDecode s.kOperand s = .raised (sourceError last) t ∧
      ReaderStopped { s with word.q := q } t bytes.length more := by
    obtain hzero | ⟨q, r, hb, hshort⟩ := hcut
    · exact riceDecode_stopped_in_prefix _ hq hr hl hs (by simpa using hzero)
    · obtain ⟨t, ht, hstop⟩ := riceDecode_stopped_in_remainder _ q hq hr hl hs hb hshort
      exact ⟨t, _, ht, hstop⟩
  have hrule := commandRule_riceDec hk
  rw [ht, Res.bind_raised] at hrule
  refine ⟨_, exec_of_raised hq hrule (by rw [hframe]), ?_, hrbits, ?_⟩
  · rw [State.complete_ctl, hframe]
    rfl
  · rw [hframe]
    exact ⟨rfl, rfl, rfl, rfl, rfl, rfl⟩

/-! ### The round trip -/

/-- Settles O47: `riceEncode_grew` and `riceDecode_codeword`. -/
theorem codewordRoundTrip : Obligations.CodewordRoundTrip := by
  refine fun k x hk hx => ⟨fun s hq hw hs => ?_, fun s rest hq hr hb => ?_⟩
  · obtain ⟨t, ht, hgrew⟩ := riceEncode_grew k x hq hw hs
    exact ⟨t, ht, hgrew.writtenBits⟩
  · obtain ⟨t, q, n, ht, htook, hrest, -⟩ := riceDecode_codeword hk hx hq hr hb
    exact ⟨t, ht, hrest, htook.rbits⟩

end Sys2Proof.Machine
end

section
/-! SUPPORT and proofs for the statements about the median-edge predictor: what Med is in each of its arms and its range
(O29), and MED_PRED (O28). -/

namespace Sys2Proof.Machine

/-! ### Med in each of its arms -/

section

variable {a b c : Sample}

theorem med_toNat_of_max_le (h : max a.toNat b.toNat ≤ c.toNat) : (med a b c).toNat = min a.toNat b.toNat := by
  rw [med, if_pos h, BitVec.toNat_ofNat]
  omega

/-- The third arm neither wraps nor is negative (R211). -/
theorem med_toNat_of_between (hlo : min a.toNat b.toNat < c.toNat) (hhi : c.toNat < max a.toNat b.toNat) :
    (med a b c).toNat = a.toNat + b.toNat - c.toNat := by
  have hexact : (a.toNat : Int) + b.toNat - c.toNat = (a.toNat + b.toNat - c.toNat : Nat) := by omega
  rw [med, if_neg hhi.not_ge, if_neg hlo.not_ge, hexact, BitVec.ofInt_natCast, BitVec.toNat_ofNat]
  omega

/-- Where the first arm comes before the second, a = b = c, and both give the same (R210). -/
theorem med_toNat_of_le_min (h : c.toNat ≤ min a.toNat b.toNat) : (med a b c).toNat = max a.toNat b.toNat := by
  by_cases htie : max a.toNat b.toNat ≤ c.toNat
  · rw [med_toNat_of_max_le htie]
    omega
  · rw [med, if_neg htie, if_pos h, BitVec.toNat_ofNat]
    omega

end

/-- Settles O29: the two ends in the first two arms; in the third, what c is above the one end Med is below the other. -/
theorem medStaysBetweenItsNeighbours : Obligations.MedStaysBetweenItsNeighbours := by
  intro a b c
  have hbetween : min a.toNat b.toNat < c.toNat → c.toNat < max a.toNat b.toNat →
      (med a b c).toNat + c.toNat = a.toNat + b.toNat ∧
      min a.toNat b.toNat < (med a b c).toNat ∧ (med a b c).toNat < max a.toNat b.toNat := by
    intro hlo hhi
    rw [med_toNat_of_between hlo hhi]
    omega
  have hrange : min a.toNat b.toNat ≤ (med a b c).toNat ∧ (med a b c).toNat ≤ max a.toNat b.toNat := by
    obtain hmax | hhi := le_or_gt (max a.toNat b.toNat) c.toNat
    · rw [med_toNat_of_max_le hmax]
      omega
    obtain hmin | hlo := le_or_gt c.toNat (min a.toNat b.toNat)
    · rw [med_toNat_of_le_min hmin]
      omega
    · obtain ⟨-, hgt, hlt⟩ := hbetween hlo hhi
      exact ⟨hgt.le, hlt.le⟩
  exact ⟨hrange.1, hrange.2, med_toNat_of_max_le, med_toNat_of_le_min, hbetween⟩

/-! ### MED_PRED -/

/-- Med as R210 writes it, in exact arithmetic. -/
theorem med_toNat (a b c : Sample) :
    (med a b c).toNat =
      if c.toNat ≥ max a.toNat b.toNat then min a.toNat b.toNat
      else if c.toNat ≤ min a.toNat b.toNat then max a.toNat b.toNat
      else a.toNat + b.toNat - c.toNat := by
  split_ifs with hmax hmin
  · exact med_toNat_of_max_le hmax
  · exact med_toNat_of_le_min hmin
  · exact med_toNat_of_between (not_le.mp hmin) (not_le.mp hmax)

/-- Settles O28: the rule is the result alone, Med zero-extended. -/
theorem medPredReturnsThePrediction : Obligations.MedPredReturnsThePrediction := by
  intro s hq
  have hexec := exec_of_ok (i := .medPred) hq rfl rfl
  rw [State.setResult16, ← BitVec.ofNat_toNat, med_toNat] at hexec
  exact hexec

end Sys2Proof.Machine
end

section
/-! SUPPORT and proofs for the statements about PLANE_ENC: a plane with no pixels (O52), the codewords and bytes of a plane
(O54, O55), and how the command ends whatever the ports answer (O59). -/

namespace Sys2Proof.Machine

open Sys2Proof.Safety

/-! ### The rules of the plane commands -/

/-- PLANE_ENC on a byte boundary is its scan and then the exit flush (R231, R233, R240). -/
theorem commandRule_planeEnc {s : State} (h : s.writer.wbits = 0) :
    commandRule .planeEnc s = encodeExit (scanPlane encodePixel s) :=
  if_neg (not_not_intro h)

/-- PLANE_DEC on a byte boundary is its scan and then the reader's discard (R232, R233, R241). -/
theorem commandRule_planeDec {s : State} (h : s.reader.rbits = 0) :
    commandRule .planeDec s = decodeExit (scanPlane decodePixel s) :=
  if_neg (not_not_intro h)

/-! ### A plane with no pixels -/

/-- Rows without columns move the scan state alone (R222). -/
theorem scanRows_no_columns (pixel : State → Res Unit) (n : Nat) {s : State} (hw : s.regs.pwidth = 0) :
    ∃ c, scanRows pixel n s = .ok () { s with scan := c } := by
  induction n generalizing s with
  | zero => exact ⟨s.scan, rfl⟩
  | succ n ih =>
    obtain ⟨c, hc⟩ := ih (s := { startRow s with scan.row := (startRow s).scan.row + 1 }) hw
    refine ⟨c, ?_⟩
    rw [scanRows, hw]
    exact hc

/-- The scan of a plane with no pixels sends nothing and ends at (H, 0) (R222, R230). -/
theorem scanPlane_empty (pixel : State → Res Unit) {s : State} (h : s.regs.pwidth = 0 ∨ s.regs.pheight = 0) :
    ∃ c, scanPlane pixel s = .ok () { s with regs.posRow := s.regs.pheight, regs.posCol := 0, scan := c } := by
  obtain ⟨c, hc⟩ : ∃ c, scanRows pixel s.regs.pheight.toNat { s with scan.b := 0, scan.row := 0 } =
      .ok () { s with scan := c } := by
    obtain hw | hh := h
    · exact scanRows_no_columns pixel _ (s := { s with scan.b := 0, scan.row := 0 }) hw
    · rw [hh]
      exact ⟨_, rfl⟩
  exact ⟨c, by rw [scanPlane, hc, Res.bind_ok]⟩

/-- FlushWriter with no bit pending, whose FLUSH the sink accepts (R132). -/
theorem flushWriter_empty_accepted {s : State} (hq : Quiet s) (h0 : s.writer.wbits = 0) (hc : s.ports.sink.next = .ok) :
    flushWriter true s = .ok () (answered .flush .ok { s with ports.sink := s.ports.sink.rest }) := by
  rw [flushWriter, flushPad_empty h0, Res.bind_ok, sinkFlush, sinkRequest_accepted .flush hq hc]
  rfl

/-- Settles O52: the scan moves POS and the scan state alone, and the exit flush sends FLUSH with no bit pending. -/
theorem emptyPlaneSendsOnlyFlush : Obligations.EmptyPlaneSendsOnlyFlush := by
  refine fun s hq hempty => ⟨fun h0 accepted hc => ?enc, fun h0 => ?dec⟩
  case enc =>
    obtain ⟨c, hscan⟩ := scanPlane_empty encodePixel hempty
    have hrule := commandRule_planeEnc h0
    rw [hscan, encodeExit] at hrule
    cases accepted with
    | true =>
      exact ⟨_, exec_of_ok hq (hrule.trans (flushWriter_empty_accepted hq h0 hc)) rfl, rfl, rfl, rfl, rfl, rfl, h0, rfl,
        rfl⟩
    | false =>
      exact ⟨_, exec_of_raised hq (hrule.trans (flushWriter_flush_refused (flushPad_empty h0) hq hc)) rfl, rfl, rfl, rfl,
        rfl, rfl, h0, rfl, rfl⟩
  case dec =>
    obtain ⟨c, hscan⟩ := scanPlane_empty decodePixel hempty
    have hrule := commandRule_planeDec h0
    rw [hscan, decodeExit] at hrule
    exact ⟨_, exec_of_ok hq hrule rfl, rfl, rfl, rfl, rfl, rfl, rfl⟩

/-! ### The codewords of a plane -/

/-- Padding reaches the next byte boundary (R132). -/
theorem padded_length (bits : List Bool) : (padded bits).length = 8 * ((bits.length + 7) / 8) := by
  rw [padded, List.length_append, List.length_replicate]
  omega

/-- Whole bytes in front do not change the padding. -/
theorem octetsBits_append_padded (l : List Octet) (bits : List Bool) :
    octetsBits l ++ padded bits = padded (octetsBits l ++ bits) := by
  have hmod : (octetsBits l ++ bits).length % 8 = bits.length % 8 := by
    rw [List.length_append, octetsBits_length]
    omega
  rw [padded, padded, hmod, List.append_assoc]

/-- What PLANE_ENC has done with the sink accepting and plane memory serving: `new` is what it sent and read before its one
FLUSH. -/
structure PlaneSent (s t : State) (new : List PortEvent) : Prop where
  ctl : t.ctl = { s.ctl with busy := false, done := true, err := .none, phase := .idle }
  log : t.ports.log = s.ports.log ++ new ++ [{ request := .flush, answer := .ok }]
  noFlush : ∀ e ∈ new, e.request ≠ .flush
  bits : octetsBits (sinkStream new) = padded (planeBits (planeSample s) s.regs.pwidth.toNat s.regs.pheight.toNat)
  wbits : t.writer.wbits = 0
  regs : t.regs = { s.regs with
    posRow := s.regs.pheight
    posCol := 0
    outBytes := s.regs.outBytes + BitVec.ofNat 32 (sinkStream new).length }
  cells : t.ports.cells = s.ports.cells
  source : t.ports.source = s.ports.source
  reader : t.reader = s.reader
  host : t.host = s.host

/-- The scan's codewords and then the exit flush (R223, R231, R240). -/
theorem planeEnc_sent {s : State} (hq : Quiet s) (hw : s.writer.wbits = 0) (hs : SinkAccepts s) (hp : PlaneServes s)
    (ha : AddressesFit s) : ∃ t new, exec .planeEnc s = .next t ∧ PlaneSent s t new := by
  obtain ⟨u, hscan, henc, hrow, hcol⟩ := scanPlane_encoded hq (by omega) hs hp ha
  obtain ⟨sent, hlog, hnf, hbits, hout⟩ := henc.sent
  obtain ⟨t, hflush, hframe, hwbits, -, pad, hplog, hpbits, hpout⟩ :=
    flushWriter_accepted true (by rw [Quiet, henc.host]; exact hq) henc.wbits henc.sink
  have hrule := commandRule_planeEnc hw
  rw [hscan, encodeExit, hflush] at hrule
  have hempty : pendingBits s.writer = [] := by rw [pendingBits, hw, valueBits]
  refine ⟨_, sent ++ pad.map sentByte, exec_of_ok hq hrule (by rw [hframe, henc.host]), ?ctl, ?log, ?noFlush, ?bits, hwbits,
    ?regs, ?cells, ?source, ?reader, ?host⟩
  case ctl => rw [State.complete_ctl, hframe, henc.ctl]
  case log => rw [State.complete_ports, hplog, hlog, List.append_assoc s.ports.log]
  case noFlush => exact List.forall_mem_append.mpr ⟨hnf, sentBytes_noFlush pad⟩
  case bits =>
    rw [sinkStream_append, sinkStream_sentBytes, octetsBits_append, hpbits, octetsBits_append_padded, hbits, hempty,
      List.nil_append]
  case regs =>
    rw [State.complete_regs, hframe, hpout, hout, sinkStream_append, sinkStream_sentBytes, List.length_append,
      BitVec.ofNat_add, ← BitVec.add_assoc, henc.regs, hrow, hcol]
  case cells => rw [State.complete_ports, hframe, henc.cells]
  case source => rw [State.complete_ports, hframe, henc.source]
  case reader => rw [State.complete_reader, hframe, henc.reader]
  case host => rw [State.complete_host, hframe, henc.host]

/-- Settles O54: `planeEnc_sent`. -/
theorem planeEncSendsThePlanesCodewords : Obligations.PlaneEncSendsThePlanesCodewords := by
  intro s hq hw hs hp ha
  obtain ⟨t, new, hexec, h⟩ := planeEnc_sent hq hw hs hp ha
  exact ⟨t, new, hexec, h.ctl, h.log, h.bits, h.wbits, h.regs, h.cells, h.source, h.reader, h.host⟩

/-- The number of bytes sent is that of the plane's bits, rounded up (R248). -/
theorem PlaneSent.length {s t : State} {new : List PortEvent} (h : PlaneSent s t new) :
    (sinkStream new).length =
      ((planeBits (planeSample s) s.regs.pwidth.toNat s.regs.pheight.toNat).length + 7) / 8 := by
  have hlen := congrArg List.length h.bits
  rw [octetsBits_length, padded_length] at hlen
  omega

/-- The bits of a plane are those of its codewords, q + 1 + K each (R174, R248). -/
theorem planeBits_length (f : Nat → Nat → Sample) (w h : Nat) :
    (planeBits f w h).length =
      ((List.range h).map fun row => ((List.range w).map fun col =>
        (quotient (pixelK f w row col) (residual (f row col) (pixelPrediction f row col))).toNat + 1 +
          pixelK f w row col).sum).sum := by
  simp only [planeBits, List.length_flatMap, pixelCodeword, codeword_length]

/-- Settles O55: the bits of `planeEnc_sent`, counted. -/
theorem planeEncLengthLaw : Obligations.PlaneEncLengthLaw := by
  intro s hq hw hs hp ha
  obtain ⟨t, new, hexec, h⟩ := planeEnc_sent hq hw hs hp ha
  refine ⟨t, new, hexec, by rw [h.ctl], h.log, ?noFlush, ?bytes⟩
  case noFlush =>
    rw [List.countP_eq_zero]
    exact fun e he => by simpa using h.noFlush e he
  case bytes => rw [h.length, planeBits_length]

/-! ### The end of PLANE_ENC, whatever the ports answer -/

/-- A scan that ended, and its exit flush (R231): the writer is empty, and a refusal is IO_ERROR. -/
theorem planeEnc_scan_ended {s u : State} (hq : Quiet s) (hw : s.writer.wbits = 0)
    (hscan : scanPlane encodePixel s = .ok () u) (hside : EncSide s u) (henc : Encoding u) :
    ∃ t e, exec .planeEnc s = .next (t.complete e) ∧ (e = .none ∨ e = .ioError) ∧ SinkSide u t ∧ t.writer.wbits = 0 := by
  have hrule := commandRule_planeEnc hw
  rw [hscan, encodeExit] at hrule
  have hends := flushWriter_reported henc
  have hkeeps := flushWriter_within true henc.quiet
  cases hflush : flushWriter true u with
  | ok a t =>
    rw [hflush] at hrule hends hkeeps
    exact ⟨t, .none, exec_of_ok hq hrule ((SinkSide.host hkeeps).trans hside.host), .inl rfl, hkeeps, hends.2⟩
  | raised e t =>
    rw [hflush] at hrule hends hkeeps
    obtain ⟨he, -, hwbits⟩ := hends
    exact ⟨t, e, exec_of_raised hq hrule ((SinkSide.host hkeeps).trans hside.host), .inr he, hkeeps, hwbits⟩
  | ended o =>
    rw [hflush] at hends
    exact hends.elim

/-- The pad byte, if bits are pending in `u`, and then FLUSH, whatever the answers (R231). -/
def ExitFlushed (u t : State) : Prop :=
  ∃ (pad : List PortEvent) (a : Answer),
    t.ports.log = u.ports.log ++ pad ++ [{ request := .flush, answer := a }] ∧
    (u.writer.wbits = 0 → pad = []) ∧
    (0 < u.writer.wbits → ∃ b : Answer, pad = [{ request := .byte (padByte u.writer), answer := b }])

/-- A scan that raised, and its exit flush (R231, R288): the command ends with the scan's error. -/
theorem planeEnc_scan_raised {s u : State} {e : ErrCode} (hq : Quiet s) (hw : s.writer.wbits = 0)
    (hscan : scanPlane encodePixel s = .raised e u) (hside : EncSide s u) (henc : Encoding u) :
    ∃ t, exec .planeEnc s = .next (t.complete e) ∧ SinkSide { u with ctl.abortErr := e } t ∧ t.writer.wbits = 0 ∧
      ExitFlushed u t := by
  have hheld : Encoding { u with ctl.abortErr := e } := ⟨henc.quiet, henc.sink, henc.plane, henc.wbits⟩
  obtain ⟨t, pad, a, hflush, hwbits, -, hlog, hnone, hsome⟩ := flushWriter_ignored hheld
  have hkeeps := flushWriter_within false hheld.quiet
  rw [hflush] at hkeeps
  have habort : t.ctl.abortErr = e := (congrArg (fun v => v.ctl.abortErr) hkeeps.frame :)
  have hrule := commandRule_planeEnc hw
  rw [hscan, encodeExit, hflush, Res.bind_ok, habort] at hrule
  exact ⟨t, exec_of_raised hq hrule ((SinkSide.host hkeeps).trans hside.host), hkeeps, hwbits, pad, a, hlog, hnone, hsome⟩

/-- The exit flush keeps what the scan kept: cells, reader, and the registers but OUT_BYTES. -/
theorem EncSide.flushed {s u t : State} (h : EncSide s u) (g : SinkSide u t) :
    t.ports.cells = s.ports.cells ∧ t.reader = s.reader ∧ t.regs = { u.regs with outBytes := t.regs.outBytes } := by
  have hfull := EncSide.trans _ _ _ h g.enc
  exact ⟨(congrArg (fun v => v.ports.cells) hfull.frame :), (congrArg State.reader hfull.frame :),
    (congrArg State.regs g.frame :)⟩

/-- Settles O59: `scanPlane_scans` says where the scan stops, and the exit flush follows in both cases. -/
theorem planeEncEndsOnAByteBoundary : Obligations.PlaneEncEndsOnAByteBoundary := by
  intro s hq hw hports
  have hscans := scanPlane_scans ⟨hq, hports.1, hports.2.2, by omega⟩
  have hside := scanPlane_encSide hq
  cases hscan : scanPlane encodePixel s with
  | ok _ u =>
    rw [hscan] at hscans hside
    obtain ⟨henc, -, hregs⟩ := hscans
    obtain ⟨t, e, hexec, he, hkeeps, hwbits⟩ := planeEnc_scan_ended hq hw hscan hside henc
    obtain ⟨hcells, hreader, htregs⟩ := EncSide.flushed hside hkeeps
    refine ⟨_, hexec, rfl, rfl, hwbits, hcells, hreader, fun hmem => ?_, (fun _ _ h => by cases h), fun v hv => ?_⟩
    · obtain rfl | rfl := he
      · cases hmem
      · cases hmem
    · cases hv
      rw [hregs] at htregs
      exact ⟨htregs, he⟩
  | raised e u =>
    rw [hscan] at hscans hside
    obtain ⟨henc, hfailed, hstop⟩ := hscans
    obtain ⟨t, hexec, hkeeps, hwbits, hflushed⟩ := planeEnc_scan_raised hq hw hscan hside henc
    have hheld : EncSide s { u with ctl.abortErr := e } := EncSide.trans _ _ _ hside ⟨rfl, Counted.of_eq rfl rfl rfl⟩
    obtain ⟨hcells, hreader, htregs⟩ := hheld.flushed hkeeps
    refine ⟨_, hexec, rfl, rfl, hwbits, hcells, hreader, fun _ => ?_, fun e' v hv => ?_, fun _ h => by cases h⟩
    · obtain ⟨pad, a, hlog, -⟩ := hflushed
      exact ⟨_, a, hlog⟩
    · cases hv
      refine ⟨rfl, hstop.inPlane, ?_, hfailed, hflushed⟩
      rw [hstop.regs] at htregs
      exact htregs
  | ended o =>
    rw [hscan] at hscans
    exact hscans.elim

end Sys2Proof.Machine
end

section
/-! SUPPORT and proofs for the statements about PLANE_DEC: the plane that a stream of codewords writes (O56, O58), a stream
that ends inside one (O57), and how the command ends whatever the ports answer (O60). -/

namespace Sys2Proof.Machine

open Sys2Proof.Safety

/-! ### The plane that the codewords write -/

/-- PLANE_DEC whose scan ends: the reader is dropped, and the command completes (R232, R241). -/
theorem planeDec_scan_ended {s u : State} (hq : Quiet s) (h0 : s.reader.rbits = 0)
    (hscan : scanPlane decodePixel s = .ok () u) (hhost : u.host = s.host) :
    exec .planeDec s = .next (u.dropReader.complete .none) :=
  exec_of_ok hq (by rw [commandRule_planeDec h0, hscan, decodeExit]) hhost

/-- PLANE_DEC whose scan raises: the reader is dropped all the same (R232, R241). -/
theorem planeDec_scan_raised {s u : State} {e : ErrCode} (hq : Quiet s) (h0 : s.reader.rbits = 0)
    (hscan : scanPlane decodePixel s = .raised e u) (hhost : u.host = s.host) :
    exec .planeDec s = .next (u.dropReader.complete e) :=
  exec_of_raised hq (by rw [commandRule_planeDec h0, hscan, decodeExit]) hhost

/-- An empty reader fetches the bytes that its `n` bits need and no more (R136). -/
theorem Decoded.fetched_ceil {s t : State} {n : Nat} (h : Decoded s t n) (h0 : s.reader.rbits = 0) :
    t.regs.inBytes = s.regs.inBytes + BitVec.ofNat 32 ((n + 7) / 8) ∧
      t.ports.source.script = s.ports.source.script.drop ((n + 7) / 8) := by
  obtain ⟨k, hcount, hin, hscript, -⟩ := h.fetched
  have hk : k = (n + 7) / 8 := by
    have := h.rbits
    omega
  exact ⟨hk ▸ hin, hk ▸ hscript⟩

/-- The view's registers fix its addresses (R220). -/
theorem addrNat_of_regs {s t : State} {posRow posCol inBytes : Word}
    (h : t.regs = { s.regs with posRow := posRow, posCol := posCol, inBytes := inBytes }) (row col : Nat) :
    addrNat row col t = addrNat row col s := by
  rw [addrNat, h, addrNat]

/-- What PLANE_DEC has done once it took the `n` bits of the plane `f`. -/
structure PlaneWritten (s t : State) (f : Nat → Nat → Sample) (n : Nat) : Prop where
  ctl : t.ctl = { s.ctl with busy := false, done := true, err := .none, phase := .idle }
  inside : ∀ row col, InPlane s row col → Memory.lookup (addrNat row col s) t.ports.cells = some (f row col)
  outside : ∀ a, (∀ row col, InPlane s row col → addrNat row col s ≠ a) →
    Memory.lookup a t.ports.cells = Memory.lookup a s.ports.cells
  reader : t.reader = { racc := 0, rbits := 0 }
  regs : t.regs = { s.regs with
    posRow := s.regs.pheight
    posCol := 0
    inBytes := s.regs.inBytes + BitVec.ofNat 32 ((n + 7) / 8) }
  script : t.ports.source.script = s.ports.source.script.drop ((n + 7) / 8)
  writer : t.writer = s.writer
  sink : t.ports.sink = s.ports.sink
  host : t.host = s.host

/-- The scan of a plane's codewords and then the completion (R223, R228, R241). -/
theorem planeDec_written {s : State} {f : Nat → Nat → Sample} {rest : List Bool} (hq : Quiet s) (h0 : s.reader.rbits = 0)
    (hp : PlaneServes s) (ha : AddressesFit s) (hd : AddressesDistinct s)
    (hb : readableBits s = planeBits f s.regs.pwidth.toNat s.regs.pheight.toNat ++ rest) :
    ∃ t, exec .planeDec s = .next t ∧
      PlaneWritten s t f (planeBits f s.regs.pwidth.toNat s.regs.pheight.toNat).length := by
  obtain ⟨u, hscan, hdec, hcells, -, hrow, hcol⟩ := scanPlane_decoded hq (by omega) hp ha hd hb
  obtain ⟨hin, hscript⟩ := hdec.fetched_ceil h0
  refine ⟨_, planeDec_scan_ended hq h0 hscan hdec.host, ?ctl, fun row col hrc => ?inside, hcells.outside, rfl, ?regs, hscript,
    hdec.writer, hdec.sink, hdec.host⟩
  case ctl => rw [State.complete_ctl, State.dropReader_ctl, hdec.ctl]
  case inside => exact (hcells.inside row col hrc).trans (if_pos (.inl hrc.1))
  case regs => rw [State.complete_regs, State.dropReader_regs, hdec.regs, hin, hrow, hcol]

/-- Settles O56: `planeDec_written`. -/
theorem planeDecWritesThePlane : Obligations.PlaneDecWritesThePlane := by
  intro s f rest hq h0 hp ha hd hb
  obtain ⟨t, hexec, h⟩ := planeDec_written hq h0 hp ha hd hb
  exact ⟨t, hexec, h.ctl, h.inside, h.outside, h.reader, h.regs, h.writer, h.sink, h.host⟩

/-! ### The round trip -/

/-- The bytes of a script of DATA answers come first. -/
theorem comingBytes_data_append (bytes : List Octet) (more : List SourceChoice) :
    comingBytes (bytes.map .data ++ more) = bytes ++ comingBytes more := by
  induction bytes with
  | nil => rfl
  | cons v bytes ih => simp [comingBytes, ih]

/-- FLUSH is no byte of the stream (R74). -/
theorem sinkStream_append_flush (log : List PortEvent) :
    sinkStream (log ++ [{ request := .flush, answer := .ok }]) = sinkStream log := by
  rw [sinkStream_append]
  exact List.append_nil _

/-- Settles O58: `planeEnc_sent` gives the bits, padded, and `planeDec_written` takes them. -/
theorem planeRoundTrip : Obligations.PlaneRoundTrip := by
  intro s u more hqs hws hss hps has _ hqu hru hpu hau hdu _ _ hwidth hheight _ _
  obtain ⟨t, new, henc, hsent⟩ := planeEnc_sent hqs hws hss hps has
  refine ⟨t, new ++ [{ request := .flush, answer := .ok }], henc, by rw [hsent.ctl],
    by rw [hsent.log, List.append_assoc], fun hscript => ?_⟩
  rw [sinkStream_append_flush] at hscript ⊢
  obtain ⟨rest, hbits⟩ : ∃ rest, readableBits u =
      planeBits (planeSample s) u.regs.pwidth.toNat u.regs.pheight.toNat ++ rest := by
    rw [readableBits, hru, hscript, comingBytes_data_append, octetsBits_append, hsent.bits, padded, hwidth, hheight,
      List.append_assoc, valueBits, List.nil_append]
    exact ⟨_, rfl⟩
  obtain ⟨v, hdec, hwritten⟩ := planeDec_written hqu hru hpu hau hdu hbits
  have hlen := hsent.length
  rw [← hwidth, ← hheight] at hlen
  refine ⟨v, hdec, by rw [hwritten.ctl], fun row col hin => ?sample, ?count, ?script⟩
  case sample =>
    rw [planeSample, addrNat_of_regs hwritten.regs]
    exact Memory.read_of_lookup (hwritten.inside row col (by rw [InPlane, hwidth, hheight]; exact hin))
  case count => rw [hwritten.regs, hlen]
  case script =>
    rw [hwritten.script, ← hlen, hscript]
    exact List.drop_left' (List.length_map _)

/-! ### A stream that ends inside a codeword -/

/-- A row stops where the pixel after its first `m` raises. -/
theorem scanRow_raised {pixel : State → Res Unit} {m n : Nat} {s t u : State} {e : ErrCode} (hm : m < n)
    (hrow : scanRow pixel m s = .ok () t) (hpixel : pixel t = .raised e u) : scanRow pixel n s = .raised e u := by
  obtain ⟨j, rfl⟩ := Nat.exists_eq_add_of_lt hm
  rw [Nat.add_assoc, scanRow_append, hrow, Res.bind_ok, scanRow, hpixel, Res.bind_raised]

/-- A scan stops where the row after its first `m` raises. -/
theorem scanRows_raised {pixel : State → Res Unit} {m n : Nat} {s t u : State} {e : ErrCode} (hm : m < n)
    (hrows : scanRows pixel m s = .ok () t)
    (hrow : scanRow pixel t.regs.pwidth.toNat (startRow t) = .raised e u) : scanRows pixel n s = .raised e u := by
  obtain ⟨j, rfl⟩ := Nat.exists_eq_add_of_lt hm
  rw [Nat.add_assoc, scanRows_append, hrows, Res.bind_ok, scanRows, hrow, Res.bind_raised]

/-- Before the source stops, a script of DATA answers keeps its form. -/
theorem Decoded.before_stop {s t : State} {n : Nat} (h : Decoded s t n) {bytes : List Octet} {last : SourceChoice}
    {more : List SourceChoice} (hs : s.ports.source.script = bytes.map .data ++ last :: more)
    (hn : n ≤ s.reader.rbits + 8 * bytes.length) :
    ∃ left : List Octet, t.ports.source.script = left.map .data ++ last :: more ∧
      t.regs.inBytes + BitVec.ofNat 32 left.length = s.regs.inBytes + BitVec.ofNat 32 bytes.length := by
  obtain ⟨k, hcount, hin, hscript, -⟩ := h.fetched
  have hk : k ≤ bytes.length := by
    have := h.rbits
    omega
  refine ⟨bytes.drop k, ?_, ?_⟩
  · rw [hscript, hs, List.drop_append_of_le_length (by rwa [List.length_map]), List.map_drop]
  · rw [hin, BitVec.add_assoc, ← BitVec.ofNat_add, List.length_drop, Nat.add_sub_cancel' hk]

/-- The pixels before (row, col), from a stream that starts with their codewords (R223, R228). -/
theorem scan_decoded_before {s : State} {f : Nat → Nat → Sample} {row col : Nat} {rest : List Bool} (hq : Quiet s)
    (h0 : s.reader.rbits = 0) (hp : PlaneServes s) (ha : AddressesFit s) (hd : AddressesDistinct s)
    (hin : InPlane s row col)
    (hb : readableBits s = planeBits f s.regs.pwidth.toNat row ++
      (((List.range col).flatMap fun j => pixelCodeword f s.regs.pwidth.toNat row j) ++ rest)) :
    ∃ t u, scanRows decodePixel row { s with scan.b := 0, scan.row := 0 } = .ok () t ∧
      t.regs.pwidth = s.regs.pwidth ∧ scanRow decodePixel col (startRow t) = .ok () u ∧
      Decoded s u (planeBits f s.regs.pwidth.toNat row ++
        (List.range col).flatMap fun j => pixelCodeword f s.regs.pwidth.toNat row j).length ∧
      CellsBefore s f row col u.ports.cells ∧ readableBits u = rest ∧
      ScanAt f s.regs.pwidth.toNat row col u.scan := by
  obtain ⟨t, ht, hdec, hcells, hbits, hseed⟩ := scanRows_decoded (s := s) (t := { s with scan.b := 0, scan.row := 0 })
    (f := f) (row := 0) (m := row) (n := 0) hq ha hd (by have := hin.1; omega)
    ((Decoded.refl (by omega) hp).setScan _) (CellsBefore.refl s f) ⟨rfl, fun _ => by simp [contextB]⟩
    (by rw [← List.range_eq_range']; exact hb)
  rw [Nat.zero_add] at hcells hseed
  obtain ⟨u, hu, hdec', hcells', hbits', hscan⟩ := scanRow_decoded (t := startRow t) (col := 0) (m := col) hq ha hd
    hin.1 (by have := hin.2; omega) (hdec.setScan _) hcells hseed.start
    (by rw [← List.range_eq_range']; exact hbits)
  rw [Nat.zero_add] at hcells' hscan
  refine ⟨t, u, ht, hdec.pwidth, hu, ?_, hcells', hbits', hscan⟩
  rw [← List.range_eq_range', ← List.range_eq_range', Nat.zero_add] at hdec'
  rw [List.length_append]
  exact hdec'

/-- Settles O57: the scan to the pixel before, `decodePixel_stopped` there, and then the completion. -/
theorem planeDecStopsAtATruncatedCodeword : Obligations.PlaneDecStopsAtATruncatedCodeword := by
  intro s f row col bytes cut gone last more hq h0 hp ha hd hin hl hs hbytes hcode hgone
  have hreadable : readableBits s = octetsBits bytes := by
    rw [readableBits, h0, hs, comingBytes_before_stop hl, valueBits, List.nil_append]
  obtain ⟨t, u, hrows, hwidth, hrow, hdec, hcells, hcut, hscan⟩ := scan_decoded_before (rest := cut) hq h0 hp ha hd hin
    (by rw [hreadable, hbytes, List.append_assoc])
  have hfit := congrArg List.length hbytes
  rw [octetsBits_length, List.length_append] at hfit
  obtain ⟨left, hscript, hleft⟩ := hdec.before_stop hs (by omega)
  obtain ⟨v, hpixel, hhost, hctl, hwriter, hregs, hsink, hmore, hkept⟩ :=
    decodePixel_stopped hq ha hin hdec hcells hscan hl hscript hcut hcode hgone
  have hstop : scanPlane decodePixel s = .raised (sourceError last) v := by
    rw [scanPlane, scanRows_raised hin.1 hrows (scanRow_raised (hwidth ▸ hin.2) hrow hpixel), Res.bind_raised]
  refine ⟨_, planeDec_scan_raised hq h0 hstop hhost, ?ctl, ?regs, fun i j hij => ?inside, fun a hna => ?outside, rfl, hmore,
    hwriter, hsink, hhost⟩
  case ctl => rw [State.complete_ctl, State.dropReader_ctl, hctl, sourceError]
  case regs =>
    rw [State.complete_regs, State.dropReader_regs, hregs, hleft, ← hscan.rowAt, ← hscan.colAt, BitVec.ofNat_toNat,
      BitVec.ofNat_toNat, BitVec.setWidth_eq, BitVec.setWidth_eq]
  case inside => exact (congrArg (Memory.lookup _) hkept).trans (hcells.inside i j hij)
  case outside => exact (congrArg (Memory.lookup a) hkept).trans (hcells.outside a hna)

/-! ### The cells outside the view, whatever the ports answer -/

/-- What part of a decode pixel step at (ROW, COL) leaves alone: the pixel, the registers but POS and IN_BYTES, and every
cell but the pixel's own. -/
structure PixelSide (s t : State) : Prop where
  host : t.host = s.host
  regs : t.regs = { s.regs with posRow := t.regs.posRow, posCol := t.regs.posCol, inBytes := t.regs.inBytes }
  row : t.scan.row = s.scan.row
  col : t.scan.col = s.scan.col
  cells : ∀ a, addrNat s.scan.row.toNat s.scan.col.toNat s ≠ a →
    Memory.lookup a t.ports.cells = Memory.lookup a s.ports.cells

theorem PixelSide.refl (s : State) : PixelSide s s := ⟨rfl, rfl, rfl, rfl, fun _ _ => rfl⟩

theorem PixelSide.trans (s t u : State) (h : PixelSide s t) (h' : PixelSide t u) : PixelSide s u := by
  refine ⟨h'.host.trans h.host, by rw [h'.regs, h.regs], h'.row.trans h.row, h'.col.trans h.col, fun a hne => ?_⟩
  have hsame : addrNat t.scan.row.toNat t.scan.col.toNat t = addrNat s.scan.row.toNat s.scan.col.toNat s := by
    rw [addrNat_of_regs h.regs, h.row, h.col]
  exact (h'.cells a (hsame ▸ hne)).trans (h.cells a hne)

theorem PixelSide.quiet {s t : State} (h : PixelSide s t) (hq : Quiet s) : Quiet t := by
  rw [Quiet, h.host]
  exact hq

theorem SourceSide.pixelSide {s t : State} (h : SourceSide s t) : PixelSide s t := by
  rw [h.frame]
  exact ⟨rfl, rfl, rfl, rfl, fun _ _ => rfl⟩

/-- MemRead (R72) changes no cell. -/
theorem memRead_pixelSide (a : Word) {s : State} (hq : Quiet s) : (memRead a s).Within PixelSide s := by
  refine Res.Within.mono (memRead_within a hq) fun t ⟨hframe, _⟩ => ?_
  rw [hframe]
  exact ⟨rfl, rfl, rfl, rfl, fun _ _ => rfl⟩

theorem loadAboveRight_pixelSide {s : State} (hq : Quiet s) : (loadAboveRight s).Within PixelSide s := by
  unfold loadAboveRight
  split
  · refine Res.Within.bind PixelSide.trans (addr_within PixelSide.refl _ _ _) fun a t ht => ?_
    exact Res.Within.bind PixelSide.trans (memRead_pixelSide a (ht.quiet hq)) fun _ _ _ =>
      ⟨rfl, rfl, rfl, rfl, fun _ _ => rfl⟩
  · exact ⟨rfl, rfl, rfl, rfl, fun _ _ => rfl⟩

theorem Memory.lookup_writeOpt_other {a b : Nat} (h : b ≠ a) (v : Option Sample) (m : Memory) :
    Memory.lookup b (Memory.writeOpt a v m) = Memory.lookup b m := by
  cases v with
  | none => rfl
  | some v => exact Memory.lookup_write_other h v m

/-- MemWrite (R73) of the pixel's own address, whatever plane memory answers. -/
theorem memWrite_pixelSide {a : Word} (v : Sample) {s : State} (hq : Quiet s)
    (ha : a.toNat = addrNat s.scan.row.toNat s.scan.col.toNat s) : (memWrite a v s).Within PixelSide s := by
  refine Res.Within.mono (memWrite_within a v hq) fun t ⟨hframe, ⟨w, hcells⟩, _⟩ =>
    ⟨(congrArg State.host hframe :), by rw [hframe], (congrArg (·.scan.row) hframe :), (congrArg (·.scan.col) hframe :),
      fun b hne => ?_⟩
  rw [hcells, ha]
  exact Memory.lookup_writeOpt_other (Ne.symm hne) w _

/-- The write of a decode pixel step: at the pixel's address, or none at all (R220, R228). -/
theorem writePixel_pixelSide (x : Sample) {s : State} (hq : Quiet s) :
    ((addr s.scan.row.toNat s.scan.col.toNat s).bind fun a t =>
      (memWrite a x t).bind fun _ u => .ok () (roll x u)).Within PixelSide s := by
  by_cases hn : addrNat s.scan.row.toNat s.scan.col.toNat s < 2 ^ 32
  · rw [addr_fits hn, Res.bind_ok]
    refine Res.Within.bind PixelSide.trans (memWrite_pixelSide x hq ?_) fun _ _ _ => ⟨rfl, rfl, rfl, rfl, fun _ _ => rfl⟩
    rw [BitVec.toNat_ofNat, Nat.mod_eq_of_lt hn]
  · rw [addr_overflows (by omega), Res.bind_raised]
    exact PixelSide.refl s

/-- The decode pixel step (R228), whatever the ports answer. -/
theorem decodePixel_pixelSide {s : State} (hq : Quiet s) : (decodePixel s).Within PixelSide s := by
  have hmark : PixelSide s (markPosition s) := ⟨rfl, rfl, rfl, rfl, fun _ _ => rfl⟩
  have hload := Res.Within.mono (loadAboveRight_pixelSide (s := markPosition s) hq) fun t => hmark.trans _ _ t
  refine Res.Within.bind PixelSide.trans hload fun _ t ht => ?_
  have hpredict : PixelSide t (predict t) := ⟨rfl, rfl, rfl, rfl, fun _ _ => rfl⟩
  have hquiet : Quiet (predict t) := ht.quiet hq
  refine Res.Within.mono (R := PixelSide) (s := predict t) ?_ fun u => hpredict.trans _ _ u
  refine Res.Within.bind PixelSide.trans (Res.Within.mono (riceDecode_within _ hquiet) fun _ h => h.pixelSide) fun x u hu => ?_
  exact writePixel_pixelSide _ (hu.quiet hquiet)

/-- What part of a decoding scan leaves alone: the registers but POS and IN_BYTES, and every cell outside the view (R232). -/
structure ViewSide (s t : State) : Prop where
  host : t.host = s.host
  regs : t.regs = { s.regs with posRow := t.regs.posRow, posCol := t.regs.posCol, inBytes := t.regs.inBytes }
  cells : ∀ a, (∀ row col, InPlane s row col → addrNat row col s ≠ a) →
    Memory.lookup a t.ports.cells = Memory.lookup a s.ports.cells

theorem ViewSide.of_eq {s t : State} (hh : t.host = s.host)
    (hr : t.regs = { s.regs with posRow := t.regs.posRow, posCol := t.regs.posCol, inBytes := t.regs.inBytes })
    (hc : t.ports.cells = s.ports.cells) : ViewSide s t :=
  ⟨hh, hr, fun _ _ => by rw [hc]⟩

theorem ViewSide.setScan {s t : State} (h : ViewSide s t) (c : Scan) : ViewSide s { t with scan := c } :=
  ⟨h.host, h.regs, h.cells⟩

theorem ViewSide.trans (s t u : State) (h : ViewSide s t) (h' : ViewSide t u) : ViewSide s u := by
  refine ⟨h'.host.trans h.host, by rw [h'.regs, h.regs], fun a hna => (h'.cells a fun row col hin => ?_).trans (h.cells a hna)⟩
  rw [InPlane, h.regs] at hin
  rw [addrNat_of_regs h.regs]
  exact hna row col hin

theorem ViewSide.quiet {s t : State} (h : ViewSide s t) (hq : Quiet s) : Quiet t := by
  rw [Quiet, h.host]
  exact hq

/-- What part of a decoding row leaves alone: it stays on the row. -/
structure RowSide (s t : State) : Prop extends ViewSide s t where
  row : t.scan.row = s.scan.row

theorem RowSide.trans (s t u : State) (h : RowSide s t) (h' : RowSide t u) : RowSide s u :=
  ⟨h.toViewSide.trans _ _ _ h'.toViewSide, h'.row.trans h.row⟩

/-- A pixel of the view is none of the cells outside it. -/
theorem PixelSide.rowSide {s t : State} (h : PixelSide s t) (hin : InPlane s s.scan.row.toNat s.scan.col.toNat) :
    RowSide s t :=
  ⟨⟨h.host, h.regs, fun a hna => h.cells a (hna _ _ hin)⟩, h.row⟩

/-- The next row or column is no wrap while the scan is below the plane's bound. -/
theorem toNat_succ_of_lt {x bound : Word} (h : x.toNat < bound.toNat) : (x + 1).toNat = x.toNat + 1 := by
  bv_omega

/-- The rest of a row of the view from COL on (R223). -/
theorem scanRow_rowSide (n : Nat) {s : State} (hq : Quiet s) (hrow : s.scan.row.toNat < s.regs.pheight.toNat)
    (hcol : s.scan.col.toNat + n = s.regs.pwidth.toNat) : (scanRow decodePixel n s).Within RowSide s := by
  induction n generalizing s with
  | zero => exact ⟨.of_eq rfl rfl rfl, rfl⟩
  | succ n ih =>
    have hlt : s.scan.col.toNat < s.regs.pwidth.toNat := by omega
    have hpixel : (decodePixel s).Sat (fun _ t => PixelSide s t) (fun _ t => RowSide s t)
        fun o => ∃ t, o = .next t ∧ RowSide s t :=
      Res.Sat.mono (decodePixel_pixelSide hq) (fun _ _ => id) (fun _ _ ht => ht.rowSide ⟨hrow, hlt⟩)
        fun _ ⟨t, ho, ht⟩ => ⟨t, ho, ht.rowSide ⟨hrow, hlt⟩⟩
    refine Res.Sat.bind hpixel fun _ t ht => ?_
    have hnext : RowSide s { t with scan.col := t.scan.col + 1 } := ⟨(ht.rowSide ⟨hrow, hlt⟩).setScan _, ht.row⟩
    have hcolNext : (t.scan.col + 1).toNat = s.scan.col.toNat + 1 := by rw [ht.col, toNat_succ_of_lt hlt]
    refine Res.Within.mono (ih (s := { t with scan.col := t.scan.col + 1 }) (ht.quiet hq) ?_ ?_)
      fun u => hnext.trans _ _ u
    · rw [ht.regs, ht.row]
      exact hrow
    · rw [ht.regs, hcolNext]
      exact (Nat.succ_add_eq_add_succ _ _).trans hcol

/-- The rest of the plane from ROW on (R223). -/
theorem scanRows_viewSide (n : Nat) {s : State} (hq : Quiet s) (hrow : s.scan.row.toNat + n = s.regs.pheight.toNat) :
    (scanRows decodePixel n s).Within ViewSide s := by
  induction n generalizing s with
  | zero => exact .of_eq rfl rfl rfl
  | succ n ih =>
    have hlt : s.scan.row.toNat < s.regs.pheight.toNat := by omega
    have hstart : RowSide s (startRow s) := ⟨.of_eq rfl rfl rfl, rfl⟩
    have hfirst : (scanRow decodePixel s.regs.pwidth.toNat (startRow s)).Within RowSide s :=
      Res.Within.mono (scanRow_rowSide _ (s := startRow s) hq hlt (Nat.zero_add _)) fun t => hstart.trans _ _ t
    have hview : (scanRow decodePixel s.regs.pwidth.toNat (startRow s)).Sat (fun _ t => RowSide s t)
        (fun _ t => ViewSide s t) fun o => ∃ t, o = .next t ∧ ViewSide s t :=
      Res.Sat.mono hfirst (fun _ _ => id) (fun _ _ ht => ht.toViewSide) fun _ ⟨t, ho, ht⟩ => ⟨t, ho, ht.toViewSide⟩
    refine Res.Sat.bind hview fun _ t ht => ?_
    have hnext : ViewSide s { t with scan.row := t.scan.row + 1 } := ht.setScan _
    have hrowNext : (t.scan.row + 1).toNat = s.scan.row.toNat + 1 := by rw [ht.row, toNat_succ_of_lt hlt]
    refine Res.Within.mono (ih (s := { t with scan.row := t.scan.row + 1 }) (ht.quiet hq) ?_) fun u => hnext.trans _ _ u
    rw [ht.regs, hrowNext]
    exact (Nat.succ_add_eq_add_succ _ _).trans hrow

/-- The decoding scan (R223, R232), whatever the ports answer: no cell outside the view changes. -/
theorem scanPlane_viewSide {s : State} (hq : Quiet s) : (scanPlane decodePixel s).Within ViewSide s := by
  have hstart : ViewSide s { s with scan.b := 0, scan.row := 0 } := .of_eq rfl rfl rfl
  have hrows := Res.Within.mono
    (scanRows_viewSide s.regs.pheight.toNat (s := { s with scan.b := 0, scan.row := 0 }) hq (Nat.zero_add _))
    fun t => hstart.trans _ _ t
  exact Res.Within.bind ViewSide.trans hrows fun _ _ _ => .of_eq rfl rfl rfl

/-- PLANE_DEC completes when every port answers, with its reader dropped after the scan (R232). -/
theorem planeDec_completes {s : State} (hq : Quiet s) (h0 : s.reader.rbits = 0) (hports : PortsAnswer s)
    (hsource : SourceNotEndlessZeros s) :
    ∃ u e, exec .planeDec s = .next (u.dropReader.complete e) ∧ DecSide s u ∧ ViewSide s u := by
  have hends := scanPlane_ends (fun _ => decodePixel_ends) ⟨hq, hports, hsource⟩
  have hside := scanPlane_decSide hq
  have hview := scanPlane_viewSide hq
  cases hscan : scanPlane decodePixel s with
  | ok _ u =>
    rw [hscan] at hside hview
    exact ⟨u, .none, planeDec_scan_ended hq h0 hscan (DecSide.host hside), hside, hview⟩
  | raised e u =>
    rw [hscan] at hside hview
    exact ⟨u, e, planeDec_scan_raised hq h0 hscan (DecSide.host hside), hside, hview⟩
  | ended o =>
    rw [hscan] at hends
    exact hends.elim

/-- Settles O60: `planeDec_completes`, and each pixel of a scan writes its own cell alone. -/
theorem planeDecEndsWithAnEmptyReader : Obligations.PlaneDecEndsWithAnEmptyReader := by
  intro s hq h0 hports hsource
  obtain ⟨u, e, hexec, hside, hview⟩ := planeDec_completes hq h0 hports hsource
  exact ⟨_, hexec, rfl, rfl, rfl, (congrArg State.writer hside.frame :), hview.cells⟩

end Sys2Proof.Machine
end

section
/-! SUPPORT and proof for the statement about NOP (O25): STATUS after a completion without an error, as R270 writes it. -/

namespace Sys2Proof.Machine

/-- R270: STATUS after a completion without an error is the OR of its shifted fields, because no two share a bit. -/
theorem statusWord_completed {wbits rbits : Nat} (hw : wbits ≤ 7) (hr : rbits ≤ 7) :
    statusWord false true .none (BitVec.ofNat 3 wbits) (BitVec.ofNat 3 rbits) =
      ((BitVec.ofNat 32 wbits <<< 8) ||| (BitVec.ofNat 32 rbits <<< 12)) ||| 0x2#32 := by
  have hdone : wbits <<< 8 ||| 2 = wbits <<< 8 + 2 := (Nat.shiftLeft_add_eq_or_of_lt (by decide) wbits).symm
  have hlow : wbits <<< 8 + 2 < 2 ^ 12 := by omega
  have hor : (wbits <<< 8 ||| rbits <<< 12) ||| 2 = rbits <<< 12 + (wbits <<< 8 + 2) := by
    rw [Nat.or_comm (wbits <<< 8), Nat.or_assoc, hdone, Nat.shiftLeft_add_eq_or_of_lt hlow]
  apply BitVec.eq_of_toNat_eq
  simp (disch := omega) only [statusWord_toNat, BitVec.toNat_or, BitVec.toNat_shiftLeft, BitVec.toNat_ofNat,
    Nat.mod_eq_of_lt, hor, Bool.toNat_false, Bool.toNat_true, ErrCode.code]
  omega

/-- Settles O25: the rule leaves the state as it is, so that the completion is all, and it keeps WBITS and RBITS. -/
theorem nopOnlyCompletes : Obligations.NopOnlyCompletes := by
  intro s hq hw hr
  have hexec : exec .nop s = .next (s.complete .none) := exec_of_ok (i := .nop) hq rfl rfl
  refine ⟨hexec, fun t ht => ?_⟩
  obtain rfl : s.complete .none = t := Host.Outcome.next.inj (hexec.symm.trans ht)
  exact statusWord_completed hw hr

end Sys2Proof.Machine
end

section
/-! SUPPORT and proofs for the statements about the errors that a command raises before its first effect: ILLEGAL_ARG (O41)
and STATE (O51). -/

namespace Sys2Proof.Machine

open Sys2Proof.Safety

/-! ### The checks that a rule starts with -/

/-- A command whose first check fails has no effect but its completion (R111, R281). -/
theorem exec_of_raised_at_start {i : Instr} {s : State} {e : ErrCode} (hq : Quiet s)
    (h : commandRule i s = .raised e s) : exec i s = .next (s.complete e) :=
  exec_of_raised hq h rfl

/-- BS_READ refuses a length above 64 (R142, R283). -/
theorem commandRule_bsRead_illegalArg {s : State} (h : 64 < s.lengthOperand) :
    commandRule .bsRead s = .raised .illegalArg s :=
  if_pos h

/-- RICE_ENC refuses a k above 31 (R181, R283). -/
theorem commandRule_riceEnc_illegalArg {s : State} (h : 31 < s.kOperand) :
    commandRule .riceEnc s = .raised .illegalArg s :=
  if_pos h

/-- RICE_DEC refuses a k above 31 (R182, R283). -/
theorem commandRule_riceDec_illegalArg {s : State} (h : 31 < s.kOperand) :
    commandRule .riceDec s = .raised .illegalArg s :=
  if_pos h

/-- PLANE_ENC refuses to start with bits pending (R233, R284). -/
theorem commandRule_planeEnc_state {s : State} (h : s.writer.wbits ≠ 0) :
    commandRule .planeEnc s = .raised .state s :=
  if_pos h

/-- PLANE_DEC refuses to start with bits buffered (R233, R284). -/
theorem commandRule_planeDec_state {s : State} (h : s.reader.rbits ≠ 0) :
    commandRule .planeDec s = .raised .state s :=
  if_pos h

/-! ### The statements -/

/-- Settles O41: each of the three rules raises ILLEGAL_ARG at its first check, in the state that it starts in. -/
theorem illegalArgumentChangesNothing : Obligations.IllegalArgumentChangesNothing := by
  intro i s hq hi
  apply exec_of_raised_at_start hq
  obtain ⟨rfl, hlength⟩ | ⟨rfl | rfl, hk⟩ := hi
  · exact commandRule_bsRead_illegalArg hlength
  · exact commandRule_riceEnc_illegalArg hk
  · exact commandRule_riceDec_illegalArg hk

/-- Settles O51: either rule raises STATE at its first check, in the state that it starts in. -/
theorem planeCommandsStartOnAByteBoundary : Obligations.PlaneCommandsStartOnAByteBoundary :=
  fun _ hq => ⟨fun hw => exec_of_raised_at_start hq (commandRule_planeEnc_state hw),
    fun hr => exec_of_raised_at_start hq (commandRule_planeDec_state hr)⟩

end Sys2Proof.Machine
end

section
/-! SUPPORT and proofs for the statements about reset and about commands that end or do not: reset between steps and at
power-up (O14, O16), a reset at a command's first point (O15), the end of every command (O19), and the endless run of
zeros (O49). A lemma named `<operation>_reset` says what the operation does when a reset is the first action to land. -/

namespace Sys2Proof.Machine

open Sys2Proof.Safety

variable {α β : Type}

/-! ### Reset between steps -/

/-- A block at its reset values reads 0 at every offset (R20, R321). -/
theorem idleValue_of_reset {s : State} (hregs : s.regs = Regs.reset) (hctl : s.ctl = Control.reset)
    (hwriter : s.writer = Writer.reset) (hreader : s.reader = Reader.reset) (offset : Nat) : idleValue offset s = 0 := by
  unfold idleValue
  cases regAt offset with
  | none => rfl
  | some r =>
    cases r with
    | status => simp only [regValue, State.status, hctl, hwriter, hreader]; decide
    | _ => simp only [regValue, hregs]; rfl

/-- Reset is one step, busy or idle (R320). -/
theorem step_reset {s : State} {rest : List HostAct} (hq : s.host.queue = .reset :: rest) :
    step s = .next (resetBlock { foresee s with host.queue := rest }) := by
  unfold step hostStep
  split
  · simp [serveBusy, hq, HostAct.wellFormed]
  · simp [serveIdle, hq, HostAct.wellFormed]

/-- Settles O14: reset is `resetBlock`, which drops the outstanding transaction and leaves the rest of the ports. -/
theorem resetActsOnTheBlockAlone : Obligations.ResetActsOnTheBlockAlone := by
  intro s rest hq
  refine ⟨_, step_reset hq, idleValue_of_reset rfl rfl rfl rfl, rfl, rfl, rfl, ?_⟩
  simp [dropPending_eq]

/-- Settles O16: every part of the block is at its reset value. -/
theorem resetStateReadsZero : Obligations.ResetStateReadsZero :=
  ⟨idleValue_of_reset rfl rfl rfl rfl, rfl, rfl, rfl⟩

/-! ### A reset at a command's first point -/

/-- The ports are `p`, and at the coming point a reset is the first to land; it leaves the host's side as `after`. -/
abbrev ResetComes (p : Ports) (after : HostSide) (s : State) : Prop :=
  s.ports = p ∧
    ∃ n, s.host = { after with queue := .reset :: after.queue, slots := (n + 1) :: after.slots }

/-- Reset has stopped the command, with the ports still `p` (R322). -/
def StoppedByReset (p : Ports) (after : HostSide) (o : Host.Outcome State Fault Refusal) : Prop :=
  ∃ s : State, s.ports = p ∧ s.host = after ∧ o = .next (resetBlock s)

/-- The reset stops the operation. -/
def Res.StopsHere (p : Ports) (after : HostSide) (r : Res α) : Prop := ∃ o, r = .ended o ∧ StoppedByReset p after o

/-- The operation comes to no point, so that the reset is still to come, or the reset stops it. -/
abbrev Res.StopsAtFirstPoint (p : Ports) (after : HostSide) (r : Res α) : Prop :=
  r.Sat (fun _ t => ResetComes p after t) (fun _ t => ResetComes p after t) (StoppedByReset p after)

section

variable {p : Ports} {after : HostSide} {s : State}

theorem Res.StopsHere.bind {r : Res α} (h : r.StopsHere p after) (f : α → State → Res β) :
    (r.bind f).StopsHere p after := by
  obtain ⟨o, rfl, ho⟩ := h
  exact ⟨o, rfl, ho⟩

theorem Res.StopsHere.sat {r : Res α} (h : r.StopsHere p after) (Q : α → State → Prop) (E : ErrCode → State → Prop) :
    r.Sat Q E (StoppedByReset p after) := by
  obtain ⟨o, rfl, ho⟩ := h
  exact ho

theorem yieldHost_reset (uses : Bool) (h : ResetComes p after s) :
    ∃ o, yieldHost uses s = .error o ∧ StoppedByReset p after o := by
  obtain ⟨hp, n, hh⟩ := h
  exact ⟨_, by simp [yieldHost, serveMany, serveBusy, hh, HostAct.wellFormed], { s with host := after }, hp, rfl, rfl⟩

/-! Each request is sent after a point (log 2), so that the reset stops it before the port sees it. -/

theorem sinkRequest_reset (req : Request) (h : ResetComes p after s) : (sinkRequest req s).StopsHere p after := by
  obtain ⟨o, hy, ho⟩ := yieldHost_reset true h
  exact ⟨o, by rw [sinkRequest, hy], ho⟩

theorem sinkByte_reset (v : Octet) (h : ResetComes p after s) : (sinkByte v s).StopsHere p after :=
  (sinkRequest_reset _ h).bind _

theorem sourceFetch_reset (h : ResetComes p after s) : (sourceFetch s).StopsHere p after := by
  obtain ⟨o, hy, ho⟩ := yieldHost_reset true h
  exact ⟨o, by rw [sourceFetch, hy], ho⟩

theorem memRead_reset (a : Word) (h : ResetComes p after s) : (memRead a s).StopsHere p after := by
  obtain ⟨o, hy, ho⟩ := yieldHost_reset true h
  exact ⟨o, by rw [memRead, hy], ho⟩

theorem memWrite_reset (a : Word) (v : Sample) (h : ResetComes p after s) : (memWrite a v s).StopsHere p after := by
  obtain ⟨o, hy, ho⟩ := yieldHost_reset true h
  exact ⟨o, by rw [memWrite, hy], ho⟩

theorem putBit_reset (b : Bool) (h : ResetComes p after s) : (putBit b s).StopsAtFirstPoint p after := by
  unfold putBit
  dsimp only
  split
  · exact ((sinkByte_reset _ (by exact h)).bind _).sat _ _
  · exact h

theorem writeBits_reset (v : DoubleWord) (n : Nat) (h : ResetComes p after s) :
    (writeBits v n s).StopsAtFirstPoint p after := by
  induction n generalizing s with
  | zero => exact h
  | succ n ih => exact Res.Sat.bind (putBit_reset _ h) fun _ _ ht => ih ht

/-- FLUSH is sent whatever is pending (R132), so that FlushWriter comes to a point. -/
theorem flushWriter_reset (report : Bool) (h : ResetComes p after s) : (flushWriter report s).StopsHere p after := by
  unfold flushWriter flushPad
  split
  · exact ((sinkByte_reset _ (by exact h)).bind _).bind _
  · exact (sinkRequest_reset _ h).bind _

theorem riceEncode_reset (k : Nat) (x : Word) (h : ResetComes p after s) :
    (riceEncode k x s).StopsAtFirstPoint p after :=
  Res.Sat.bind (writeBits_reset _ _ h) fun _ _ ht => writeBits_reset _ _ ht

/-- A bit comes from those held, of which there is one less then. -/
theorem getBit_reset (h : ResetComes p after s) :
    (getBit s).Sat (fun _ t => ResetComes p after t ∧ t.reader.rbits < s.reader.rbits) (fun _ t => ResetComes p after t)
      (StoppedByReset p after) := by
  unfold getBit
  split
  · exact ((sourceFetch_reset h).bind _).sat _ _
  · next hheld => exact ⟨h, Nat.sub_one_lt hheld⟩

theorem readBits_reset (n : Nat) (v : DoubleWord) (h : ResetComes p after s) :
    (readBits n v s).StopsAtFirstPoint p after := by
  induction n generalizing s v with
  | zero => exact h
  | succ n ih => exact Res.Sat.bind (getBit_reset h) fun _ _ ht => ih _ ht.1

/-- The zero count of RiceDecode (R175) does not count to its end before the bits held are used up. -/
theorem countPrefix_reset (fuel : Nat) (h : ResetComes p after s) (hfuel : s.reader.rbits < fuel) :
    (countPrefix fuel s).StopsAtFirstPoint p after := by
  induction fuel generalizing s with
  | zero => omega
  | succ fuel ih =>
    refine Res.Sat.bind (getBit_reset h) fun b t ⟨ht, hlt⟩ => ?_
    cases b with
    | true => exact ht
    | false => exact ih ht (show t.reader.rbits < fuel by omega)

theorem riceDecode_reset (k : Nat) (h : ResetComes p after s) : (riceDecode k s).StopsAtFirstPoint p after := by
  have hfuel : s.reader.rbits < prefixFuel s := by
    unfold prefixFuel
    omega
  exact Res.Sat.bind (countPrefix_reset _ h hfuel) fun _ _ ht =>
    Res.Sat.bind (readBits_reset _ _ ht) fun _ _ hu => hu

theorem addr_reset (row col : Nat) (h : ResetComes p after s) : (addr row col s).StopsAtFirstPoint p after := by
  unfold addr
  split <;> exact h

theorem loadAboveRight_reset (h : ResetComes p after s) : (loadAboveRight s).StopsAtFirstPoint p after := by
  unfold loadAboveRight
  split
  · exact Res.Sat.bind (addr_reset _ _ h) fun a _ ht => ((memRead_reset a ht).bind _).sat _ _
  · exact h

theorem encodePixel_reset (h : ResetComes p after s) : (encodePixel s).StopsAtFirstPoint p after := by
  refine Res.Sat.bind (loadAboveRight_reset h) fun _ t ht => ?_
  exact Res.Sat.bind (addr_reset _ _ ht) fun a _ hu => ((memRead_reset a hu).bind _).sat _ _

theorem decodePixel_reset (h : ResetComes p after s) : (decodePixel s).StopsAtFirstPoint p after := by
  refine Res.Sat.bind (loadAboveRight_reset h) fun _ t ht => ?_
  refine Res.Sat.bind (riceDecode_reset _ ht) fun _ u hu => ?_
  exact Res.Sat.bind (addr_reset _ _ hu) fun a _ hv => ((memWrite_reset a _ hv).bind _).sat _ _

section

variable {pixel : State → Res Unit}
  (hpixel : ∀ s, ResetComes p after s → (pixel s).StopsAtFirstPoint p after)

include hpixel

theorem scanRow_reset (n : Nat) (h : ResetComes p after s) : (scanRow pixel n s).StopsAtFirstPoint p after := by
  induction n generalizing s with
  | zero => exact h
  | succ n ih => exact Res.Sat.bind (hpixel s h) fun _ _ ht => ih ht

theorem scanRows_reset (n : Nat) (h : ResetComes p after s) : (scanRows pixel n s).StopsAtFirstPoint p after := by
  induction n generalizing s with
  | zero => exact h
  | succ n ih => exact Res.Sat.bind (scanRow_reset hpixel _ h) fun _ _ ht => ih ht

theorem scanPlane_reset (h : ResetComes p after s) : (scanPlane pixel s).StopsAtFirstPoint p after :=
  Res.Sat.bind (scanRows_reset hpixel _ h) fun _ _ ht => ht

end

/-- A scan that the reset stops has no exit flush; one that came to no point is stopped at the exit flush's first. -/
theorem encodeExit_reset {r : Res Unit} (h : r.StopsAtFirstPoint p after) : (encodeExit r).StopsAtFirstPoint p after := by
  cases r with
  | ok _ t => exact (flushWriter_reset true h).sat _ _
  | raised e t => exact ((flushWriter_reset false (by exact h)).bind _).sat _ _
  | ended o => exact h

theorem decodeExit_reset {r : Res Unit} (h : r.StopsAtFirstPoint p after) : (decodeExit r).StopsAtFirstPoint p after := by
  cases r with
  | ok _ t => exact h
  | raised e t => exact h
  | ended o => exact h

theorem commandRule_reset (i : Instr) (h : ResetComes p after s) : (commandRule i s).StopsAtFirstPoint p after := by
  cases i with
  | nop => exact h
  | bsWrite => exact writeBits_reset _ _ h
  | bsFlush => exact (flushWriter_reset true h).sat _ _
  | bsRead => exact Res.Sat.guard h (Res.Sat.bind (readBits_reset _ _ h) fun _ _ ht => ht)
  | bsRalign => exact h
  | riceK => exact h
  | riceEnc => exact Res.Sat.guard h (riceEncode_reset _ _ h)
  | riceDec => exact Res.Sat.guard h (Res.Sat.bind (riceDecode_reset _ h) fun _ _ ht => ht)
  | medPred => exact h
  | planeEnc => exact Res.Sat.guard h (encodeExit_reset (scanPlane_reset (fun _ => encodePixel_reset) h))
  | planeDec => exact Res.Sat.guard h (decodeExit_reset (scanPlane_reset (fun _ => decodePixel_reset) h))

/-- The completion is after a point too (log 2), so that a command whose rule comes to none is stopped there. -/
theorem endCommand_reset (e : ErrCode) (h : ResetComes p after s) : StoppedByReset p after (endCommand e s) := by
  obtain ⟨o, hy, ho⟩ := yieldHost_reset e.afterChecks h
  rw [endCommand, hy]
  exact ho

theorem finish_reset {r : Res Unit} (h : r.StopsAtFirstPoint p after) : StoppedByReset p after (finish r) := by
  cases r with
  | ok _ t => exact endCommand_reset .none h
  | raised e t => exact endCommand_reset e h
  | ended o => exact h

theorem exec_reset (i : Instr) (h : ResetComes p after s) : StoppedByReset p after (exec i s) := by
  rw [exec_eq_finish]
  exact finish_reset (commandRule_reset i h)

end

/-- Settles O15: the reset stops the rule or its completion, with the ports as they were and nothing outstanding to drop. -/
theorem resetStopsAnyCommand : Obligations.ResetStopsAnyCommand := by
  intro i s n slots rest hslots hq hpending
  have hcomes : ResetComes s.ports { s.host with queue := rest, slots := slots } s := ⟨rfl, n, by rw [← hslots, ← hq]⟩
  obtain ⟨u, hports, hhost, hexec⟩ := exec_reset i hcomes
  refine ⟨resetBlock u, hexec, rfl, rfl, rfl, rfl, ?_, hhost⟩
  rw [resetBlock_ports, hports, dropPending, hpending]

/-! ### The end of every command -/

theorem Answering.setResult {s : State} (h : Answering s) (hi lo : Word) : Answering (s.setResult hi lo) :=
  ⟨h.quiet, h.ports, h.source⟩

theorem Answering.dropReader {s : State} (h : Answering s) : Answering s.dropReader := ⟨h.quiet, h.ports, h.source⟩

theorem encodeExit_ends {r : Res Unit} (h : r.Ends) : (encodeExit r).Ends := by
  cases r with
  | ok _ t => exact flushWriter_ends true h
  | raised e t => exact Res.Ends.bind (flushWriter_ends false ⟨h.quiet, h.ports, h.source⟩) fun _ _ hu => hu
  | ended o => exact h

theorem decodeExit_ends {r : Res Unit} (h : r.Ends) : (decodeExit r).Ends := by
  cases r with
  | ok _ t => exact Answering.dropReader h
  | raised e t => exact Answering.dropReader h
  | ended o => exact h

theorem commandRule_ends (i : Instr) {s : State} (h : Answering s) : (commandRule i s).Ends := by
  cases i with
  | nop => exact h
  | bsWrite => exact writeBits_ends _ _ h
  | bsFlush => exact flushWriter_ends true h
  | bsRead => exact Res.Sat.guard h (Res.Ends.bind (readBits_ends _ _ h) fun _ _ ht => ht.setResult _ _)
  | bsRalign => exact h.dropReader
  | riceK => exact h.setResult _ _
  | riceEnc => exact Res.Sat.guard h (riceEncode_ends _ _ h)
  | riceDec => exact Res.Sat.guard h (Res.Ends.bind (riceDecode_ends _ h) fun _ _ ht => ht.setResult _ _)
  | medPred => exact h.setResult _ _
  | planeEnc => exact Res.Sat.guard h (encodeExit_ends (scanPlane_ends (fun _ => encodePixel_ends) h))
  | planeDec => exact Res.Sat.guard h (decodeExit_ends (scanPlane_ends (fun _ => decodePixel_ends) h))

theorem finish_completes {r : Res Unit} (h : r.Ends) : ∃ t e, finish r = .next (State.complete e t) := by
  cases r with
  | ok _ t => exact ⟨t, .none, endCommand_quiet .none h.quiet⟩
  | raised e t => exact ⟨t, e, endCommand_quiet e h.quiet⟩
  | ended o => exact h.elim

/-- A command whose ports answer, and in which nothing lands, completes (R93, R332). -/
theorem exec_completes (i : Instr) {s : State} (h : Answering s) : ∃ t e, exec i s = .next (State.complete e t) := by
  rw [exec_eq_finish]
  exact finish_completes (commandRule_ends i h)

/-- Settles O19: `exec_completes`, and harmless accesses that land change the host's side alone (O20). -/
theorem everyCommandEnds : Obligations.EveryCommandEnds := by
  intro i s hlands hports hsource
  obtain hq | hharmless := hlands
  · obtain ⟨t, e, ht⟩ := exec_completes i ⟨hq, hports, hsource⟩
    exact ⟨_, ht, rfl, rfl, rfl⟩
  · obtain ⟨t, e, ht⟩ := exec_completes i (s := { s with host.slots := [] }) ⟨rfl, hports, hsource⟩
    obtain ⟨host, hexec⟩ := hostAccessesDoNotDisturbACommand i s _ hharmless ht
    exact ⟨_, hexec, rfl, rfl, rfl⟩

/-! ### The endless run of zeros -/

/-- Every bit that the reader will take is 0: those it holds, and those of a source that answers DATA(0x00) for ever. -/
structure ZerosForEver (s : State) : Prop where
  quiet : Quiet s
  held : valueBits s.reader.racc s.reader.rbits = List.replicate s.reader.rbits false
  source : s.ports.source = { script := [], tail := .data 0 }

/-- A held bit is 0, and so are the rest. -/
theorem takeBit_zero {s : State} (h : ZerosForEver s) (h0 : s.reader.rbits ≠ 0) :
    ∃ t, takeBit s = .ok false t ∧ ZerosForEver t := by
  have hheld := h.held
  obtain ⟨n, hn⟩ := Nat.exists_eq_succ_of_ne_zero h0
  rw [hn] at hheld
  obtain ⟨hbit, hrest⟩ := List.cons.inj hheld
  refine ⟨{ s with reader.rbits := n }, ?_, h.quiet, hrest, h.source⟩
  rw [takeBit, hn, Nat.succ_sub_one, hbit]

theorem getBit_zero {s : State} (h : ZerosForEver s) : ∃ t, getBit s = .ok false t ∧ ZerosForEver t := by
  have hbyte : valueBits (0 : Octet) 8 = List.replicate 8 false := by decide
  unfold getBit
  split
  · rw [sourceFetch_data h.quiet (v := 0) (by rw [h.source, Port.next_nil]), Res.bind_ok]
    refine takeBit_zero ⟨h.quiet, hbyte, ?_⟩ (Nat.succ_ne_zero 7)
    show s.ports.source.rest = _
    rw [h.source, Port.rest_nil]
  · next hheld => exact takeBit_zero h hheld

/-- The zero count of RiceDecode (R175) meets no one bit and no end of the source, however far it counts. -/
theorem countPrefix_zeros (fuel : Nat) {s : State} (h : ZerosForEver s) : ∃ o, countPrefix fuel s = .ended o := by
  induction fuel generalizing s with
  | zero => exact ⟨_, rfl⟩
  | succ fuel ih =>
    obtain ⟨t, ht, hzeros⟩ := getBit_zero h
    obtain ⟨o, ho⟩ := ih (s := { t with word.q := t.word.q + 1 }) ⟨hzeros.quiet, hzeros.held, hzeros.source⟩
    exact ⟨o, by rw [countPrefix, ht]; exact ho⟩

theorem riceDecode_zeros (k : Nat) {s : State} (h : ZerosForEver s) :
    ∃ t, riceDecode k s = .ended (.next t) ∧ SourceSide s t := by
  have hside := riceDecode_within k h.quiet
  obtain ⟨o, ho⟩ := countPrefix_zeros (prefixFuel s) (s := { s with word.q := 0 }) ⟨h.quiet, h.held, h.source⟩
  have hdecode : riceDecode k s = .ended o := by rw [riceDecode, ho, Res.bind_ended]
  rw [hdecode] at hside
  obtain ⟨t, rfl, ht⟩ := hside
  exact ⟨t, hdecode, ht⟩

/-- Settles O49: the count of zeros ends without a one bit, and a busy block with an empty queue does not move (log 7). -/
theorem endlessZerosHangRiceDec : Obligations.EndlessZerosHangRiceDec := by
  intro s hquiet hbusy hq _ hk hheld hsource
  obtain ⟨t, ht, hside⟩ := riceDecode_zeros s.kOperand ⟨hquiet, hheld, hsource⟩
  have hctl : t.ctl = s.ctl := (congrArg State.ctl hside.frame :)
  refine ⟨t, ?_, hctl, step_waiting (by rw [hctl]; exact hbusy) (by rw [hside.host]; exact hq)⟩
  rw [exec_eq_finish, commandRule_riceDec hk, ht, Res.bind_ended, finish_ended]

end Sys2Proof.Machine
end
